-- ==== Sys2Proof/Word.lean ====
section
/-! DEFINITION. The word types of PMX: bytes, 64-bit registers, the two floating-point formats and complex values.
The names follow 00_scope.md R10 to R14 and 40_numerics.md R122. -/

namespace Sys2Proof

/-- One byte of sample memory (20_memory.md R60). -/
abbrev Byte := BitVec 8

/-- A register of the host window (10_state.md R22). -/
abbrev Word64 := BitVec 64

/-- A vector register's contents, VLEN = 256 bits (10_state.md R33). -/
abbrev VWord := BitVec 256

/-- The floating-point formats F32 and F64 (40_numerics.md R122). -/
inductive Fmt where
  | f32
  | f64
deriving DecidableEq, Repr

/-- The width in bits of a pattern of the format. -/
abbrev Fmt.width : Fmt → Nat
  | .f32 => 32
  | .f64 => 64

/-- A bit pattern of format `f`. -/
abbrev Fp (f : Fmt) := BitVec f.width

/-- A complex value: the ordered pair (re, im) of patterns of `f` (00_scope.md R14, R17). -/
@[ext] structure Cx (f : Fmt) where
  re : BitVec f.width
  im : BitVec f.width
deriving DecidableEq, Repr

end Sys2Proof
end

