-- ==== Sys2Proof/Syntax.lean ====
section
/-! DEFINITION. The commands of PMX-1: one constructor per row of spec/opcode_table.json (30_encoding.md R95). -/

namespace Sys2Proof

/-- A command with its operand fields (30_encoding.md R91, R92). A register number is the 4-bit field of the word;
which of its values name a register is WellFormed's question (R94). -/
inductive Instr where
  /-- SHIFT: multiply the array in place by the rotating phasor (41_shift_generic.md R160). -/
  | shift
  /-- TGEN: construct the four master tones and the step (42_vector_primitives.md R190). -/
  | tgen
  /-- VNARROW vd, va, vb: narrow eight F64 lanes to eight F32 lanes (R192). -/
  | vnarrow (rd ra rb : BitVec 4)
  /-- VCMUL4S vd, va: four complex products in F32, in place (R194). -/
  | vcmul4s (rd ra : BitVec 4)
  /-- VCMUL2D vd, va: two complex products in F64, in place (R196). -/
  | vcmul2d (rd ra : BitVec 4)
  /-- VBCMUL2D vd: multiply two complex F64 values by STEP, in place (R198). -/
  | vbcmul2d (rd : BitVec 4)
  /-- VLD vd, imm: load 32 bytes of sample memory (R200). -/
  | vld (rd : BitVec 4) (imm : BitVec 16)
  /-- VST vd, imm: store 32 bytes to sample memory (R201). -/
  | vst (rd : BitVec 4) (imm : BitVec 16)
deriving DecidableEq, Repr

/-- Why a word is illegal: the four causes of 30_encoding.md R98. -/
inductive Illegal where
  /-- Its OP is not one of the eight assigned ones. -/
  | unassignedOpcode
  /-- Its OP needs the vector datapath and HAS_VEC = 0. -/
  | absentFeature
  /-- A must-be-zero field of its format is nonzero. -/
  | nonzeroField
  /-- A register field in use has its top bit set. -/
  | registerNumber
deriving DecidableEq, Repr

/-- What a word decodes to (30_encoding.md R96): a command, or Illegal with its cause. -/
inductive Decoded where
  | instr (i : Instr)
  | illegal (why : Illegal)
deriving DecidableEq, Repr

end Sys2Proof
end

