-- ==== Sys2Proof/WellFormed.lean ====
section
/-! DEFINITION. Which command terms have a word that names them (30_encoding.md R94): every register field in use has
its top bit 0. An IMM16 has no illegal value (R93). -/

namespace Sys2Proof

/-- A 4-bit register field names one of `V[0]` to `V[7]` (30_encoding.md R94). -/
abbrev regOk (r : BitVec 4) : Bool := decide (r.toNat < 8)

/-- The command's register fields all name registers. -/
def Instr.wellFormed : Instr → Bool
  | .shift => true
  | .tgen => true
  | .vnarrow rd ra rb => regOk rd && regOk ra && regOk rb
  | .vcmul4s rd ra => regOk rd && regOk ra
  | .vcmul2d rd ra => regOk rd && regOk ra
  | .vbcmul2d rd => regOk rd
  | .vld rd _ => regOk rd
  | .vst rd _ => regOk rd

/-- `i` is a well-formed command. -/
abbrev WellFormed (i : Instr) : Prop := i.wellFormed = true

/-- The command needs the vector datapath: the column "needs" of 30_encoding.md R95. -/
def Instr.needsVec : Instr → Bool
  | .shift => false
  | .tgen => true
  | .vnarrow _ _ _ => true
  | .vcmul4s _ _ => true
  | .vcmul2d _ _ => true
  | .vbcmul2d _ => true
  | .vld _ _ => true
  | .vst _ _ => true

/-- The command exists on a build with or without the vector datapath (30_encoding.md R95, R98). -/
def Instr.available (hasVec : Bool) (i : Instr) : Bool := !i.needsVec || hasVec

end Sys2Proof
end

