-- ==== Sys2Proof/Decode.lean ====
section
/-! DEFINITION. The decoder of 30_encoding.md R95 and R96, total on 32-bit words, and the encoder of R101 after it. -/

namespace Sys2Proof

/-- The rows of the opcode map (30_encoding.md R95). -/
inductive Row where
  | shift | tgen | vnarrow | vcmul4s | vcmul2d | vbcmul2d | vld | vst
deriving DecidableEq, Repr

/-- The map's rows in the table's order. -/
def Row.all : List Row := [.shift, .tgen, .vnarrow, .vcmul4s, .vcmul2d, .vbcmul2d, .vld, .vst]

/-- The column "match" of 30_encoding.md R95. -/
def Row.pattern : Row → BitVec 32
  | .shift => 0x01000000#32
  | .tgen => 0x02000000#32
  | .vnarrow => 0x10000000#32
  | .vcmul4s => 0x11000000#32
  | .vcmul2d => 0x12000000#32
  | .vbcmul2d => 0x13000000#32
  | .vld => 0x20000000#32
  | .vst => 0x21000000#32

/-- The column "mask" of 30_encoding.md R95. -/
def Row.mask : Row → BitVec 32
  | .shift => 0xFFFFFFFF#32
  | .tgen => 0xFFFFFFFF#32
  | .vnarrow => 0xFF888FFF#32
  | .vcmul4s => 0xFF88FFFF#32
  | .vcmul2d => 0xFF88FFFF#32
  | .vbcmul2d => 0xFF8FFFFF#32
  | .vld => 0xFF8F0000#32
  | .vst => 0xFF8F0000#32

/-- The column "needs" of 30_encoding.md R95. -/
def Row.needsVec : Row → Bool
  | .shift => false
  | .tgen => true
  | .vnarrow => true
  | .vcmul4s => true
  | .vcmul2d => true
  | .vbcmul2d => true
  | .vld => true
  | .vst => true

/-- The word selects the row: `w & mask = match` (30_encoding.md R95). -/
def Row.selects (r : Row) (w : BitVec 32) : Bool := (w &&& r.mask) == r.pattern

/-- `OP = w[31:24]` (30_encoding.md R92). -/
def opField (w : BitVec 32) : BitVec 8 := w.extractLsb' 24 8
/-- `RD = w[23:20]` (30_encoding.md R92). -/
def rdField (w : BitVec 32) : BitVec 4 := w.extractLsb' 20 4
/-- `RA = w[19:16]` (30_encoding.md R92). -/
def raField (w : BitVec 32) : BitVec 4 := w.extractLsb' 16 4
/-- `RB = w[15:12]` (30_encoding.md R92). -/
def rbField (w : BitVec 32) : BitVec 4 := w.extractLsb' 12 4
/-- `IMM16 = w[15:0]` (30_encoding.md R92). -/
def immField (w : BitVec 32) : BitVec 16 := w.extractLsb' 0 16

/-- The command of a row with the word's fields (30_encoding.md R91, R96). -/
def Row.instr (w : BitVec 32) : Row → Instr
  | .shift => .shift
  | .tgen => .tgen
  | .vnarrow => .vnarrow (rdField w) (raField w) (rbField w)
  | .vcmul4s => .vcmul4s (rdField w) (raField w)
  | .vcmul2d => .vcmul2d (rdField w) (raField w)
  | .vbcmul2d => .vbcmul2d (rdField w)
  | .vld => .vld (rdField w) (immField w)
  | .vst => .vst (rdField w) (immField w)

/-- The row whose OP the word has, if any: the upper 8 bits of a row's "match" are its OP. -/
def opcodeRow (w : BitVec 32) : Option Row := Row.all.find? fun r => opField r.pattern == opField w

/-- Which must-be-zero bits of the row are not the top bit of a register field in use (30_encoding.md R91, R94). -/
def Row.zeroMask : Row → BitVec 32
  | .shift => 0x00FFFFFF#32
  | .tgen => 0x00FFFFFF#32
  | .vnarrow => 0x00000FFF#32
  | .vcmul4s => 0x0000FFFF#32
  | .vcmul2d => 0x0000FFFF#32
  | .vbcmul2d => 0x000FFFFF#32
  | .vld => 0x000F0000#32
  | .vst => 0x000F0000#32

/-- The name of the cause for which a word that selects no row is illegal (30_encoding.md R98). -/
def illegalCause (hasVec : Bool) (w : BitVec 32) : Illegal :=
  match opcodeRow w with
  | none => .unassignedOpcode
  | some r =>
    if r.needsVec && !hasVec then .absentFeature
    else if (w &&& r.zeroMask) != 0#32 then .nonzeroField
    else .registerNumber

/-- `decode(w)` (30_encoding.md R96): the command of the first row that the word selects and whose "needs" holds;
Illegal if there is none. Of the machine it reads HAS_VEC alone. -/
def decode (hasVec : Bool) (w : BitVec 32) : Decoded :=
  match Row.all.find? (fun r => r.selects w && (!r.needsVec || hasVec)) with
  | some r => .instr (r.instr w)
  | none => .illegal (illegalCause hasVec w)

/-- The instruction alone, for the host's decode check. -/
def Decoded.toOption : Decoded → Option Instr
  | .instr i => some i
  | .illegal _ => none

/-- The word of a command as a CMD write latches it, from the bits of an opcode-table row: bits above `nbits` are 0. -/
def tableWord (nbits w : Nat) : BitVec 32 := BitVec.ofNat 32 (w % 2 ^ nbits)

/-- The host's decode check: a command is one 32-bit word (30_encoding.md R90), the build has the vector datapath. -/
def decodeTableWord (nbits w : Nat) : Option Instr := (decode true (tableWord nbits w)).toOption

/-- The word of a command (30_encoding.md R101): its row's OP, its fields in their places, zero elsewhere. -/
def encode : Instr → BitVec 32
  | .shift => 0x01#8 ++ 0#24
  | .tgen => 0x02#8 ++ 0#24
  | .vnarrow rd ra rb => 0x10#8 ++ rd ++ ra ++ rb ++ 0#12
  | .vcmul4s rd ra => 0x11#8 ++ rd ++ ra ++ 0#16
  | .vcmul2d rd ra => 0x12#8 ++ rd ++ ra ++ 0#16
  | .vbcmul2d rd => 0x13#8 ++ rd ++ 0#20
  | .vld rd imm => 0x20#8 ++ rd ++ 0#4 ++ imm
  | .vst rd imm => 0x21#8 ++ rd ++ 0#4 ++ imm

end Sys2Proof
end

