-- ==== Sys2Proof/Config.lean ====
section
/-! DEFINITION. What a build of PMX fixes and what the spec leaves open: the parameters of 00_scope.md R7, the open
functions of the numerics record, and the free values. An opaque constant has no body: no proof can see its value. -/

namespace Sys2Proof.Config

/-- The build parameters of 00_scope.md R7 that the spec leaves OPEN. They stand in State, where no step changes
them, so that a claim over all states is a claim over all builds (log 1). -/
structure Params where
  /-- HAS_VEC: the vector datapath is built. -/
  hasVec : Bool
  /-- MEM_BYTES: sample memory is the bytes 0 to MEM_BYTES − 1; at most 2^64 of them (20_memory.md R73). -/
  memBytes : Fin (2 ^ 64 + 1)
deriving DecidableEq, Repr

/-- The build of `State.reset`. DESIGN CHOICE (log 1), unsafe: HAS_VEC as in every example of the spec, MEM_BYTES the
whole address space. -/
def resetParams : Params := { hasVec := true, memBytes := ⟨2 ^ 64, Nat.lt_succ_self _⟩ }

/-- What a byte of sample memory reads as when nothing is listed for its address. DESIGN CHOICE (log 4), safe: it is how
a memory is written down, and no content at power-up, which is `powerUpCells`. -/
def unlistedByte : Byte := 0#8

/-- The bytes of sample memory at power-up that are not `unlistedByte`, by address, open: any list, and so any content
(93_implementation_defined.md U7, 70_reset_and_hazards.md R302; log 4). -/
opaque powerUpCells : List (Nat × Byte)

/-- `NUM.cos` for F32 at a nonzero operand (40_numerics.md R132), open: any total function (log 2). -/
opaque cosOpen32 : BitVec 32 → BitVec 32
/-- `NUM.sin` for F32 at a nonzero operand (40_numerics.md R132), open: any total function (log 2). -/
opaque sinOpen32 : BitVec 32 → BitVec 32
/-- `NUM.cos` for F64 at a nonzero operand (40_numerics.md R132), open: any total function (log 2). -/
opaque cosOpen64 : BitVec 64 → BitVec 64
/-- `NUM.sin` for F64 at a nonzero operand (40_numerics.md R132), open: any total function (log 2). -/
opaque sinOpen64 : BitVec 64 → BitVec 64

/-- The sign of QNAN32 (93_implementation_defined.md U3), open (log 2). -/
opaque qnanSign32 : BitVec 1
/-- The fraction of QNAN32 below its quiet bit, open (log 2). -/
opaque qnanPayload32 : BitVec 22
/-- The sign of QNAN64 (93_implementation_defined.md U3), open (log 2). -/
opaque qnanSign64 : BitVec 1
/-- The fraction of QNAN64 below its quiet bit, open (log 2). -/
opaque qnanPayload64 : BitVec 51

/-- Free 64-bit values: the draw with counter `n` at place `i` (log 3, log 10). -/
opaque freeWord : Nat → Nat → Word64
/-- Free 256-bit values: what `V[r]` holds after the reset with counter `n` (log 3). -/
opaque freeVector : Nat → Nat → VWord
/-- Free bytes: the byte at an address that a VLD or VST abandoned by the reset with counter `n` was accessing
(log 8). -/
opaque freeByte : Nat → Nat → Byte
/-- Free choices: whether element `i` of a SHIFT abandoned by the reset with counter `n` already holds its final value
(log 8). -/
opaque freeChoice : Nat → Nat → Bool

end Sys2Proof.Config
end

