-- ==== Sys2Proof/Machine/Memory.lean ====
section
/-! DEFINITION. Sample memory as plain data (20_memory.md R61 to R63): its bytes, its canonical form, its little-endian
accesses, and its content at power-up (70_reset_and_hazards.md R302). -/

namespace Sys2Proof.Machine

/-- Sample memory (20_memory.md R61): address and byte pairs, addresses strictly rising, no byte equal to what an
unlisted address reads as (`Memory.wf`). -/
abbrev Memory := List Host.Cell

/-- The byte at an address (20_memory.md R61). -/
def Memory.read : Memory → Nat → Byte
  | [], _ => Config.unlistedByte
  | (b, v) :: rest, a => if b = a then v else Memory.read rest a

/-- Write one byte (20_memory.md R61), keeping the addresses rising and no unlisted byte listed. -/
def Memory.write : Memory → Nat → Byte → Memory
  | [], a, v => if v = Config.unlistedByte then [] else [(a, v)]
  | (b, x) :: rest, a, v =>
    if a < b then (if v = Config.unlistedByte then (b, x) :: rest else (a, v) :: (b, x) :: rest)
    else if a = b then (if v = Config.unlistedByte then rest else (a, v) :: rest)
    else (b, x) :: Memory.write rest a v

/-- The canonical form: addresses strictly rising, no byte equal to what an unlisted address reads as. -/
def Memory.wf : Memory → Bool
  | [] => true
  | (a, v) :: rest => decide (v ≠ Config.unlistedByte) && rest.all (fun c => decide (a < c.1)) && Memory.wf rest

/-- `MemRead(addr, n)` (20_memory.md R62): the little-endian number of the n bytes from addr. The range is checked by
the command, `State.inMemory`. -/
def Memory.readLE (m : Memory) (addr : Nat) : Nat → Nat
  | 0 => 0
  | n + 1 => (Memory.read m addr).toNat + 256 * Memory.readLE m (addr + 1) n

/-- `MemWrite(addr, n, v)` (20_memory.md R63): byte addr + j becomes bits 8j+7 to 8j of v. -/
def Memory.writeLE (m : Memory) (addr : Nat) : Nat → Nat → Memory
  | 0, _ => m
  | n + 1, v => Memory.writeLE (Memory.write m addr (BitVec.ofNat 8 v)) (addr + 1) n (v / 256)

/-- The memory with the cells' bytes written, those later in the list first. -/
def Memory.ofCells : List Host.Cell → Memory
  | [] => []
  | c :: cs => (Memory.ofCells cs).write c.1 c.2

/-- The sample memory of a build with the cells' bytes written, as far as they lie inside MEM_BYTES. -/
def Memory.inBuild (p : Config.Params) (cs : List Host.Cell) : Memory :=
  Memory.ofCells (cs.filter fun c => decide (c.1 < p.memBytes.val))

/-- The content of sample memory at power-up: any value (93_implementation_defined.md U7, 70_reset_and_hazards.md R302;
log 4). -/
def powerUpMemory (p : Config.Params) : Memory := Memory.inBuild p Config.powerUpCells

end Sys2Proof.Machine
end

