-- ==== Sys2Proof/Machine/State.lean ====
section
/-! DEFINITION. The state of PMX (10_state.md R20), its reasons to stop, and the state after reset (R46).
INVENTORY.md lists every field with the rule that names it. -/

namespace Sys2Proof.Machine

/-- The machine stops: the spec's treatment is `refuse`. PMX's own two faults, INVALID_FREQ and ILLEGAL_CMD, do not stop
it: they are taken as completions (60_exceptions.md R276). -/
inductive Fault where
  /-- SHIFT with a valid frequency, VLD, VST, or an access from outside the engine, of bytes that are not all inside
  sample memory: no meaning (20_memory.md R72, U2). Safe. -/
  | outsideSampleMemory
deriving DecidableEq, Repr

/-- The request has no meaning. -/
inductive Refusal where
  /-- Raised by an arm of exec that has no meaning yet; no arm raises it. Safe. -/
  | notModelled (mnemonic : String)
  /-- An access from outside the engine to a byte of a command whose completion the host has not read
  (20_memory.md R81, U1). Safe. -/
  | concurrentAccess
  /-- An access to the host window that is not an aligned 64-bit access (10_state.md R21, U10). Safe. -/
  | windowAccess
deriving DecidableEq, Repr

/-- The two faults of PMX (60_exceptions.md R270). -/
inductive Exc where
  | invalidFreq
  | illegalCmd
deriving DecidableEq, Repr

/-- STATUS (10_state.md R25), field by field; bits 63 to 5 read 0. -/
structure Status where
  busy : Bool
  done : Bool
  err  : BitVec 2
  kvec : Bool
deriving DecidableEq, Repr

/-- The engine's phase (10_state.md R41); RUN holds the word latched at issue (30_encoding.md R97; log 12). -/
inductive Seq where
  | idle
  | run (word : BitVec 32)
deriving DecidableEq, Repr

/-- A vector register (10_state.md R33): 256 bits, and for each 64-bit lane the mark "holds a value" (R34, R45). -/
structure VReg where
  bits : VWord
  held : BitVec 4
deriving DecidableEq, Repr

/-- STEP (10_state.md R32): two halves that hold a value independently. -/
structure StepReg where
  re     : Word64
  im     : Word64
  heldRe : Bool
  heldIm : Bool
deriving DecidableEq, Repr

/-- A complex value typed by its format, as TONE and GSTEP carry it (10_state.md R37). -/
inductive Tone where
  | f32 (z : Cx .f32)
  | f64 (z : Cx .f64)
deriving DecidableEq, Repr

/-- One of TONE[0] to TONE[7], or GSTEP, with the mark "holds a value" (10_state.md R37, R38, R45). -/
structure ToneReg where
  val  : Tone
  held : Bool
deriving DecidableEq, Repr

/-- An action of the outside world, or the engine's turn (log 5). -/
inductive Input where
  /-- The engine runs to the completion of its command, if it has one. -/
  | engineTurn
  /-- A write of `bytes` bytes at `offset` of the host window (10_state.md R21, R22). -/
  | windowWrite (offset : BitVec 12) (bytes : Nat) (value : Word64)
  /-- A read of `bytes` bytes at `offset` of the host window (10_state.md R21, R22). -/
  | windowRead (offset : BitVec 12) (bytes : Nat)
  /-- A write of one byte of sample memory from outside the engine (20_memory.md R60, R76). -/
  | memWrite (addr : Word64) (value : Byte)
  /-- A read of one byte of sample memory from outside the engine (20_memory.md R60, R76). -/
  | memRead (addr : Word64)
  /-- Reset is applied and released (70_reset_and_hazards.md R300). -/
  | reset
deriving DecidableEq, Repr

/-- The registers of the host window by offset (10_state.md R22). -/
inductive WindowReg where
  | cap | cmd | status | cfg | base | size | freq | phase | stepRe | stepIm
  | lane (r : Fin 8) (j : Fin 4)
  | reserved
deriving DecidableEq, Repr

/-- The whole state. The last four fields are the model's own (log 5, 9, 10, 14). -/
structure State where
  params   : Config.Params
  status   : Status
  cfg      : Word64
  base     : Word64
  size     : Word64
  freq     : Word64
  phase    : Word64
  step     : StepReg
  v        : Vector VReg 8
  tone     : Vector ToneReg 8
  gstep    : ToneReg
  seq      : Seq
  idx      : Word64
  mem      : Memory
  inputs   : List Input
  locked   : List (Nat × Nat)
  hostData : Word64
  freeCtr  : Nat
deriving DecidableEq, Repr

/-- The free value a complex register of the generic datapath has after a reset (log 3); typed by the U of the reset
CFG, F32. -/
def freeTone (n i : Nat) : ToneReg :=
  { val := .f32 ⟨(Config.freeWord n i).setWidth 32, (Config.freeWord n (i + 1)).setWidth 32⟩, held := false }

/-- The table of 10_state.md R46: every register after a reset, for a build `p`, the sample memory `m` that the reset
leaves as it is, and the counter `n` that its free values are drawn with. `ins` and `lk` are the model's own
pending inputs and byte ranges, which a reset does not touch. -/
def State.afterReset (p : Config.Params) (m : Memory) (n ctr : Nat) (ins : List Input) (lk : List (Nat × Nat)) :
    State where
  params := p
  status := { busy := false, done := false, err := 0#2, kvec := false }
  cfg := 0#64
  base := 0#64
  size := 0#64
  freq := 0#64
  phase := 0#64
  step := { re := Config.freeWord n 0, im := Config.freeWord n 1, heldRe := false, heldIm := false }
  v := Vector.ofFn fun r => { bits := Config.freeVector n r.val, held := 0#4 }
  tone := Vector.ofFn fun k => freeTone n (2 + 2 * k.val)
  gstep := freeTone n 18
  seq := .idle
  idx := 0#64
  mem := m
  inputs := ins
  locked := lk
  hostData := 0#64
  freeCtr := ctr

/-- The machine right after power-up and reset (10_state.md R46): sample memory has the free content of power-up
(70_reset_and_hazards.md R302; log 4), no input is pending (log 5). -/
def State.reset : State := State.afterReset Config.resetParams (powerUpMemory Config.resetParams) 0 1 [] []

end Sys2Proof.Machine
end

