-- ==== Sys2Proof/Machine/Flags.lean ====
section
/-! DEFINITION. STATUS, the only flags of the hardware (10_state.md R25): its word, and what issue and completion write
into it (R26). No arithmetic operation sets a flag (40_numerics.md R126). -/

namespace Sys2Proof.Machine

/-- STATUS as the host reads it (10_state.md R25): BUSY bit 0, DONE bit 1, ERR bits 3:2, KVEC bit 4, zero above. -/
def Status.word (t : Status) : Word64 :=
  0#59 ++ BitVec.ofBool t.kvec ++ t.err ++ BitVec.ofBool t.done ++ BitVec.ofBool t.busy

/-- At issue: `BUSY <- 1; DONE <- 0; ERR <- 0` (10_state.md R26). -/
def Status.issued (t : Status) : Status := { t with busy := true, done := false, err := 0#2 }

/-- At completion: `BUSY <- 0; DONE <- 1; ERR <- code` (10_state.md R26). -/
def Status.completed (code : BitVec 2) (t : Status) : Status := { t with busy := false, done := true, err := code }

/-- KVEC, written at the completion of a SHIFT and of no other command (44_dispatch.md R242). -/
def Status.withKvec (b : Bool) (t : Status) : Status := { t with kvec := b }

/-- The code of a fault in STATUS.ERR (60_exceptions.md R270); 0 is success and 3 is never produced. -/
def Exc.code : Exc → BitVec 2
  | .invalidFreq => 1#2
  | .illegalCmd => 2#2

/-- The code of a command that completes without a fault (10_state.md R25). -/
def okCode : BitVec 2 := 0#2

end Sys2Proof.Machine
end

