-- ==== Sys2Proof/Machine/Ops.lean ====
section
/-! DEFINITION. The shared operations: sample memory (20_memory.md R65 to R67, R72), the registers and their marks
(10_state.md R45), the life of a command (30_encoding.md R97), and taking a fault (60_exceptions.md R276). -/

namespace Sys2Proof.Machine

/-! Sample memory. -/

/-- The byte range from addr of n bytes is wholly inside sample memory, on unbounded integers (20_memory.md R72). -/
def State.inMemory (s : State) (addr n : Nat) : Bool := decide (addr + n ≤ s.params.memBytes.val)

/-! Formats in memory. -/

/-- The size in bytes W of one component of a sample (20_memory.md R65). -/
def fmtBytes : Fmt → Nat
  | .f32 => 4
  | .f64 => 8

/-- `ESZ_T`, the size in bytes of a complex sample (00_scope.md R12). -/
def fmtEsz : Fmt → Nat
  | .f32 => 8
  | .f64 => 16

/-- `MemReadC_T(addr)` (20_memory.md R65): the real part at the lower address. -/
def memReadC (T : Fmt) (m : Memory) (addr : Nat) : Cx T :=
  { re := BitVec.ofNat T.width (m.readLE addr (fmtBytes T))
    im := BitVec.ofNat T.width (m.readLE (addr + fmtBytes T) (fmtBytes T)) }

/-- `MemWriteC_T(addr, z)` (20_memory.md R66). -/
def memWriteC (T : Fmt) (m : Memory) (addr : Nat) (z : Cx T) : Memory :=
  (m.writeLE addr (fmtBytes T) z.re.toNat).writeLE (addr + fmtBytes T) (fmtBytes T) z.im.toNat

/-- A 32-byte read into a vector register's contents (20_memory.md R67). -/
def memReadV (m : Memory) (addr : Nat) : VWord := BitVec.ofNat 256 (m.readLE addr 32)

/-- A 32-byte write of a vector register's contents (20_memory.md R67). -/
def memWriteV (m : Memory) (addr : Nat) (x : VWord) : Memory := m.writeLE addr 32 x.toNat

/-- Sample memory becomes `m`. -/
def State.setMem (s : State) (m : Memory) : State := { s with mem := m }

/-! Registers. -/

/-- `V[r]` (00_scope.md R11). -/
def State.vBits (s : State) (r : Fin 8) : VWord := s.v[r].bits

/-- `V[r] <- x`: all 256 bits, and the register then holds a value (00_scope.md R11, 10_state.md R34). -/
def State.setV (s : State) (r : Fin 8) (x : VWord) : State :=
  { s with v := s.v.set r { bits := x, held := 0xF#4 } }

/-- Write lane j of `V[r]` and leave the other lanes (10_state.md R34). -/
def VReg.setLane (t : VReg) (j : Fin 4) (x : Word64) : VReg :=
  { bits := (t.bits &&& ~~~((BitVec.allOnes 64).setWidth 256 <<< (64 * j.val))) ||| (x.setWidth 256 <<< (64 * j.val))
    held := t.held ||| (1#4 <<< j.val) }

/-- `V[r].d[j] <- x` by the host (10_state.md R34). -/
def State.setVLane (s : State) (r : Fin 8) (j : Fin 4) (x : Word64) : State :=
  { s with v := s.v.set r (s.v[r].setLane j x) }

/-- The register holds a value: all four lanes do (10_state.md R34, R45). -/
def VReg.holds (t : VReg) : Bool := t.held == 0xF#4

/-- STEP as the complex F64 value it holds (10_state.md R32). -/
def StepReg.value (t : StepReg) : Cx .f64 := { re := t.re, im := t.im }

/-- `STEP <- z`: both halves, which then hold a value (10_state.md R32). -/
def State.setStep (s : State) (z : Cx .f64) : State :=
  { s with step := { re := z.re, im := z.im, heldRe := true, heldIm := true } }

/-- STEP holds a value: both halves do (42_vector_primitives.md R198). -/
def StepReg.holds (t : StepReg) : Bool := t.heldRe && t.heldIm

/-- A complex value of format U as TONE and GSTEP carry it (10_state.md R37). -/
def Tone.of : (U : Fmt) → Cx U → Tone
  | .f32, z => .f32 z
  | .f64, z => .f64 z

/-- A tone register that holds the value (10_state.md R45). -/
def ToneReg.of (U : Fmt) (z : Cx U) : ToneReg := { val := Tone.of U z, held := true }

/-- `TONE[k], TONE[k+1], … <- zs`; the registers beyond the list, and a k beyond 7, are not written
(41_shift_generic.md R162). -/
def writeTones (U : Fmt) (t : Vector ToneReg 8) : Nat → List (Cx U) → Vector ToneReg 8
  | _, [] => t
  | k, z :: zs => writeTones U (t.setIfInBounds k (ToneReg.of U z)) (k + 1) zs

/-! The life of a command (30_encoding.md R97). -/

/-- Issue: `SEQ <- RUN; STATUS.BUSY <- 1; STATUS.DONE <- 0; STATUS.ERR <- 0`, and the word is latched. It clears the
code of an earlier fault, and that is all the return from a fault there is (60_exceptions.md R278). -/
def State.latch (s : State) (w : BitVec 32) : State := { s with seq := .run w, status := s.status.issued }

/-- Complete: `SEQ <- IDLE; STATUS.BUSY <- 0; STATUS.DONE <- 1; STATUS.ERR <- code`. -/
def State.complete (s : State) (code : BitVec 2) : State :=
  { s with seq := .idle, status := s.status.completed code }

/-- Complete a SHIFT: KVEC is written too (44_dispatch.md R242). -/
def State.completeShift (s : State) (code : BitVec 2) (kvec : Bool) : State :=
  { s with seq := .idle, status := (s.status.completed code).withKvec kvec }

/-- Taking a fault, `raise F` (60_exceptions.md R276): the command completes at once with the fault's code; if it is
SHIFT, KVEC becomes 0; every other piece of state is as it was. -/
def State.raise (s : State) (e : Exc) (isShift : Bool) : State :=
  if isShift then s.completeShift e.code false else s.complete e.code

/-- Draw the next free values: the counter moves on (log 14). -/
def State.draw (s : State) : State := { s with freeCtr := s.freeCtr + 1 }

end Sys2Proof.Machine
end

