-- ==== Sys2Proof/Machine/Float.lean ====
section
/-! DEFINITION. The floating-point operations of 40_numerics.md R122 to R131. A finite value of a format is an integer
multiple of its smallest subnormal, the format's unit; an operation computes exactly on those integers and rounds once
at the end. -/

namespace Sys2Proof.Machine

/-- The number of fraction bits, p − 1 (40_numerics.md R122). -/
def fmtFrac : Fmt → Nat
  | .f32 => 23
  | .f64 => 52

/-- The unit of the format is 2^−unitExp: bias + p − 2 (40_numerics.md R122). -/
def fmtUnitExp : Fmt → Nat
  | .f32 => 149
  | .f64 => 1074

/-- The pattern of +∞ (40_numerics.md R123): every larger magnitude is a NaN. -/
def fmtInfMag : Fmt → Nat
  | .f32 => 0x7F800000
  | .f64 => 0x7FF0000000000000

/-- The sign bit (40_numerics.md R122). -/
def fpNeg {f : Fmt} (b : Fp f) : Bool := b.msb

/-- The pattern without its sign bit: biased exponent and fraction as one number. -/
def fpMag {f : Fmt} (b : Fp f) : Nat := b.toNat % 2 ^ (f.width - 1)

/-- The pattern with a sign and a magnitude. -/
def fpPack (f : Fmt) (neg : Bool) (mag : Nat) : Fp f :=
  BitVec.ofNat f.width (if neg then 2 ^ (f.width - 1) + mag else mag)

/-- The pattern is a NaN (40_numerics.md R122). -/
def fpIsNaN {f : Fmt} (b : Fp f) : Bool := decide (fmtInfMag f < fpMag b)

/-- The pattern is ±∞ (40_numerics.md R122). -/
def fpIsInf {f : Fmt} (b : Fp f) : Bool := decide (fpMag b = fmtInfMag f)

/-- The pattern is ±0 (40_numerics.md R122). -/
def fpIsZero {f : Fmt} (b : Fp f) : Bool := decide (fpMag b = 0)

/-- A magnitude's value in units: f for a subnormal, (2^(p−1) + f) · 2^(e−1) for a normal (40_numerics.md R122). -/
def fpUnitsOf (f : Fmt) (mag : Nat) : Nat :=
  if mag / 2 ^ fmtFrac f = 0 then mag else (2 ^ fmtFrac f + mag % 2 ^ fmtFrac f) * 2 ^ (mag / 2 ^ fmtFrac f - 1)

/-- The magnitude of a pattern's value in units. -/
def fpUnits {f : Fmt} (b : Fp f) : Nat := fpUnitsOf f (fpMag b)

/-- A pattern's value in units, with its sign; an infinity lies beyond every finite value. -/
def fpInt {f : Fmt} (b : Fp f) : Int := if fpNeg b then -(fpUnits b : Int) else (fpUnits b : Int)

/-- The quotient `m / 2^d` rounded to nearest, ties to the even integer (roundTiesToEven). -/
def rneShift (m d : Nat) : Nat :=
  if 2 ^ d < 2 * (m % 2 ^ d) ∨ (2 ^ d = 2 * (m % 2 ^ d) ∧ m / 2 ^ d % 2 = 1) then m / 2 ^ d + 1 else m / 2 ^ d

/-- The magnitude of the format nearest to `m · 2^−q` units, ties to even (40_numerics.md R124): the significand keeps
at most p bits, results below the normal range stay on the subnormal grid, and a magnitude that would reach the
format's end is ∞. -/
def fpRound (f : Fmt) (m q : Nat) : Nat :=
  min (fmtInfMag f) ((max q (Nat.log2 m - fmtFrac f) - q) * 2 ^ fmtFrac f + rneShift m (max q (Nat.log2 m - fmtFrac f)))

/-- The pattern an operation returns when its result is a NaN, QNAN32 or QNAN64: any quiet NaN
(00_scope.md R7, 93_implementation_defined.md U3; log 2). -/
def qnan : (f : Fmt) → Fp f
  | .f32 => Config.qnanSign32 ++ 0xFF#8 ++ 1#1 ++ Config.qnanPayload32
  | .f64 => Config.qnanSign64 ++ 0x7FF#11 ++ 1#1 ++ Config.qnanPayload64

/-- The value with its sign changed. -/
def fneg {f : Fmt} (b : Fp f) : Fp f := fpPack f (!fpNeg b) (fpMag b)

/-- A signed number of units as a pattern; an exact zero takes the sign `negZero`. -/
def fpOfInt (f : Fmt) (negZero : Bool) (n : Int) : Fp f :=
  if n = 0 then fpPack f negZero 0 else fpPack f (decide (n < 0)) (fpRound f n.natAbs 0)

/-- `fadd_F(a, b)` (40_numerics.md R124). -/
def fadd {f : Fmt} (a b : Fp f) : Fp f :=
  if fpIsNaN a || fpIsNaN b then qnan f
  else if fpIsInf a && fpIsInf b then (if fpNeg a = fpNeg b then a else qnan f)
  else if fpIsInf a then a
  else if fpIsInf b then b
  else fpOfInt f (fpNeg a && fpNeg b) (fpInt a + fpInt b)

/-- `fsub_F(a, b) = fadd_F(a, −b)` (40_numerics.md R124 c). -/
def fsub {f : Fmt} (a b : Fp f) : Fp f := fadd a (fneg b)

/-- `fmul_F(a, b)` (40_numerics.md R124): the sign is the exclusive-or of the operands' signs. -/
def fmul {f : Fmt} (a b : Fp f) : Fp f :=
  if fpIsNaN a || fpIsNaN b then qnan f
  else if fpIsInf a || fpIsInf b then
    (if fpIsZero a || fpIsZero b then qnan f else fpPack f (fpNeg a ^^ fpNeg b) (fmtInfMag f))
  else fpPack f (fpNeg a ^^ fpNeg b) (fpRound f (fpUnits a * fpUnits b) (fmtUnitExp f))

/-- `cvt_64_32(a)`, the field `NUM.cvt_64_32` of the numerics record (40_numerics.md R127, 90_conflicts.md C2): to
nearest, ties to even. -/
def cvt6432 (a : Fp .f64) : Fp .f32 :=
  if fpIsNaN a then qnan .f32
  else if fpIsInf a then fpPack .f32 (fpNeg a) (fmtInfMag .f32)
  else fpPack .f32 (fpNeg a) (fpRound .f32 (fpUnits a) (fmtUnitExp .f64 - fmtUnitExp .f32))

/-- `cvt_32_64(a)` (40_numerics.md R128): exact. -/
def cvt3264 (a : Fp .f32) : Fp .f64 :=
  if fpIsNaN a then qnan .f64
  else if fpIsInf a then fpPack .f64 (fpNeg a) (fmtInfMag .f64)
  else fpPack .f64 (fpNeg a) (fpRound .f64 (fpUnits a * 2 ^ (fmtUnitExp .f64 - fmtUnitExp .f32)) 0)

/-- `flt_F(n)`, 0 ≤ n ≤ 8: the pattern with value n (40_numerics.md R129). -/
def flt (f : Fmt) (n : Nat) : Fp f := fpPack f false (fpRound f (n * 2 ^ fmtUnitExp f) 0)

/-- `ge_F(a, b)` (40_numerics.md R130): false if an operand is a NaN; −0 and +0 are equal. -/
def fge {f : Fmt} (a b : Fp f) : Bool := !fpIsNaN a && !fpIsNaN b && decide (fpInt b ≤ fpInt a)

/-- `lt_F(a, b)` (40_numerics.md R130): false if an operand is a NaN; −0 and +0 are equal. -/
def fltLt {f : Fmt} (a b : Fp f) : Bool := !fpIsNaN a && !fpIsNaN b && decide (fpInt a < fpInt b)

/-- The pattern of 1.0 (40_numerics.md R123). -/
def fpOne : (f : Fmt) → Fp f
  | .f32 => 0x3F800000#32
  | .f64 => 0x3FF0000000000000#64

/-- `TWO_PI_F` (40_numerics.md R131). -/
def twoPi : (f : Fmt) → Fp f
  | .f32 => 0x40C90FDB#32
  | .f64 => 0x401921FB54442D18#64

/-- `valid_freq(f)` (40_numerics.md R136): `ge_F64(f, +0.0) and lt_F64(f, 1.0)`. -/
def validFreq (b : Fp .f64) : Bool := fge b (0#64 : Fp .f64) && fltLt b (fpOne .f64)

end Sys2Proof.Machine
end

