-- ==== Sys2Proof/Machine/Complex.lean ====
section
/-! DEFINITION. The phasor function, the complex product and the angles (40_numerics.md R132 to R139). -/

namespace Sys2Proof.Machine

/-- `NUM.cos` (40_numerics.md R132, R133 a): 1.0 at ±0, open elsewhere (log 2). -/
def fcos : (f : Fmt) → Fp f → Fp f
  | .f32, x => if fpIsZero (f := .f32) x then fpOne .f32 else Config.cosOpen32 x
  | .f64, x => if fpIsZero (f := .f64) x then fpOne .f64 else Config.cosOpen64 x

/-- `NUM.sin` (40_numerics.md R132, R133 a): the operand itself at ±0, open elsewhere (log 2). -/
def fsin : (f : Fmt) → Fp f → Fp f
  | .f32, x => if fpIsZero (f := .f32) x then x else Config.sinOpen32 x
  | .f64, x => if fpIsZero (f := .f64) x then x else Config.sinOpen64 x

/-- `phasor_F(θ) = (cos_F(θ), sin_F(θ))` (40_numerics.md R134). -/
def phasor (f : Fmt) (x : Fp f) : Cx f := { re := fcos f x, im := fsin f x }

/-- `cmul_F(z, x)` (40_numerics.md R135): three roundings per component, nothing fused (R125). -/
def cmul {f : Fmt} (z x : Cx f) : Cx f :=
  { re := fsub (fmul z.re x.re) (fmul z.im x.im)
    im := fadd (fmul z.re x.im) (fmul z.im x.re) }

/-- `to_U(b)`: an F64 register's value in the format U (40_numerics.md R137). -/
def toFmt : (U : Fmt) → Fp .f64 → Fp U
  | .f32, b => cvt6432 b
  | .f64, b => b

/-- `cvt_UT(t)`: a tone from the accumulator format U to the sample format T, part by part (40_numerics.md R138). -/
def cvtTone : (U T : Fmt) → Cx U → Cx T
  | .f32, .f32, t => t
  | .f32, .f64, t => { re := cvt3264 t.re, im := cvt3264 t.im }
  | .f64, .f32, t => { re := cvt6432 t.re, im := cvt6432 t.im }
  | .f64, .f64, t => t

/-- `w = fmul_U(TWO_PI_U, f)`, f = to_U(FREQ) (40_numerics.md R139). -/
def angularStep (U : Fmt) (freq : Fp .f64) : Fp U := fmul (twoPi U) (toFmt U freq)

/-- `angle_U(k) = fadd_U(p, fmul_U(flt_U(k), w))`, p = to_U(PHASE) (40_numerics.md R139). -/
def angle (U : Fmt) (freq phase : Fp .f64) (k : Nat) : Fp U :=
  fadd (toFmt U phase) (fmul (flt U k) (angularStep U freq))

/-- `stepangle_U(n) = fmul_U(w, flt_U(n))` (40_numerics.md R139). -/
def stepAngle (U : Fmt) (freq : Fp .f64) (n : Nat) : Fp U := fmul (angularStep U freq) (flt U n)

/-- `tone[k] = phasor(startPhase + k·2π·freq)` (41_shift_generic.md R162). -/
def initialTone (U : Fmt) (freq phase : Fp .f64) (k : Nat) : Cx U := phasor U (angle U freq phase k)

/-- `step = phasor(2π·freq·n)` (41_shift_generic.md R162). -/
def stepPhasor (U : Fmt) (freq : Fp .f64) (n : Nat) : Cx U := phasor U (stepAngle U freq n)

end Sys2Proof.Machine
end

