-- ==== Sys2Proof/Machine/Operands.lean ====
section
/-! DEFINITION. The operand forms: register numbers, the immediate address, the fields of CFG, element addresses, and
the lane views of a vector register (10_state.md R27, R36; 20_memory.md R64; 30_encoding.md R92, R93). -/

namespace Sys2Proof.Machine

/-- The register a 4-bit field names, by its lower three bits; a field with its top bit set names none and its command
is illegal (30_encoding.md R94). -/
def vnum (r : BitVec 4) : Fin 8 := ⟨r.toNat % 8, Nat.mod_lt _ (Nat.zero_lt_succ 7)⟩

/-- `CFG.T`, the sample format (10_state.md R27). -/
def State.fmtT (s : State) : Fmt := if s.cfg.getLsbD 0 then .f64 else .f32

/-- `CFG.U`, the accumulator format of the generic kernel (10_state.md R27). -/
def State.fmtU (s : State) : Fmt := if s.cfg.getLsbD 1 then .f64 else .f32

/-- `CFG.GEN` (10_state.md R27). -/
def State.gen (s : State) : Bool := s.cfg.getLsbD 2

/-- UNROLL_SIZE = `CFG.UNROLL_M1 + 1` (10_state.md R27). -/
def State.unroll (s : State) : Nat := (s.cfg.extractLsb' 4 3).toNat + 1

/-- What a write to CFG stores: bits 2 to 0 and 6 to 4 (10_state.md R27). -/
def cfgStored (x : Word64) : Word64 := x &&& 0x77#64

/-- What a write to BASE stores: bits 63 to 4 (10_state.md R28). -/
def baseStored (x : Word64) : Word64 := x &&& 0xFFFFFFFFFFFFFFF0#64

/-- `use_vector()` (44_dispatch.md R240). -/
def State.useVector (s : State) : Bool := !s.gen && s.params.hasVec

/-- `EA_T(i) = BASE + ESZ_T · i`, modulo 2^64 (20_memory.md R64, 40_numerics.md R120). -/
def elemAddr (T : Fmt) (base : Word64) (i : Nat) : Nat := (base.toNat + fmtEsz T * i) % 2 ^ 64

/-- The byte address of a VLD or VST, `BASE + 32 · zext_64(IMM16)` modulo 2^64 (30_encoding.md R93). -/
def vecAddr (base : Word64) (imm : BitVec 16) : Nat := (base.toNat + 32 * imm.toNat) % 2 ^ 64

/-- `V.d[j]`: bits 64j+63 to 64j (00_scope.md R11). -/
def dLane (x : VWord) (j : Nat) : Fp .f64 := x.extractLsb' (64 * j) 64

/-- `V.s[j]`: bits 32j+31 to 32j (00_scope.md R11). -/
def sLane (x : VWord) (j : Nat) : Fp .f32 := x.extractLsb' (32 * j) 32

/-- Complex F64 element k: `(d[2k], d[2k+1])` (10_state.md R36). -/
def dCx (x : VWord) (k : Nat) : Cx .f64 := { re := dLane x (2 * k), im := dLane x (2 * k + 1) }

/-- Complex F32 element k: `(s[2k], s[2k+1])` (10_state.md R36). -/
def sCx (x : VWord) (k : Nat) : Cx .f32 := { re := sLane x (2 * k), im := sLane x (2 * k + 1) }

/-- The register with complex F64 elements z0, z1: lane 0 in the least significant bits (10_state.md R36). -/
def packD (z0 z1 : Cx .f64) : VWord :=
  (z1.im : BitVec 64) ++ (z1.re : BitVec 64) ++ (z0.im : BitVec 64) ++ (z0.re : BitVec 64)

/-- The register with complex F32 elements z0 to z3 (10_state.md R36). -/
def packS (z0 z1 z2 z3 : Cx .f32) : VWord :=
  (z3.im : BitVec 32) ++ (z3.re : BitVec 32) ++ (z2.im : BitVec 32) ++ (z2.re : BitVec 32) ++
    (z1.im : BitVec 32) ++ (z1.re : BitVec 32) ++ (z0.im : BitVec 32) ++ (z0.re : BitVec 32)

/-! The packed primitives (42_vector_primitives.md). -/

/-- `narrow8(A, B)` (R193): `N.s[j] = cvt_64_32(A.d[j])`, `N.s[4+j] = cvt_64_32(B.d[j])`. -/
def narrow8 (a b : VWord) : VWord :=
  packS (cvtTone .f64 .f32 (dCx a 0)) (cvtTone .f64 .f32 (dCx a 1))
    (cvtTone .f64 .f32 (dCx b 0)) (cvtTone .f64 .f32 (dCx b 1))

/-- `cmul4s(Z, X)` (R195): four complex products in F32. -/
def cmul4s (z x : VWord) : VWord :=
  packS (cmul (sCx z 0) (sCx x 0)) (cmul (sCx z 1) (sCx x 1)) (cmul (sCx z 2) (sCx x 2)) (cmul (sCx z 3) (sCx x 3))

/-- `cmul2d(Z, X)` (R197): two complex products in F64. -/
def cmul2d (z x : VWord) : VWord := packD (cmul (dCx z 0) (dCx x 0)) (cmul (dCx z 1) (dCx x 1))

/-- `bcmul2d(Z, s)` (R199): two complex products in F64 with the scalar s. -/
def bcmul2d (z : VWord) (c : Cx .f64) : VWord := packD (cmul (dCx z 0) c) (cmul (dCx z 1) c)

end Sys2Proof.Machine
end

