-- ==== Sys2Proof/Machine/GenericKernel.lean ====
section
/-! DEFINITION. The generic kernel of SHIFT (41_shift_generic.md R162 to R166), and the element multiply that the vector
kernel's tail shares with it. IDX and SIZE are unbounded naturals inside the loops (40_numerics.md R120, R121). -/

namespace Sys2Proof.Machine

/-- `array[i] <- cmul_T(array[i], t)` (41_shift_generic.md R165): the sample is the first operand. -/
def mulElem (T : Fmt) (base : Word64) (i : Nat) (t : Cx T) (m : Memory) : Memory :=
  memWriteC T m (elemAddr T base i) (cmul (memReadC T m (elemAddr T base i)) t)

/-- Multiply elements i, i+1, … by the tones of the list, each only if its index is below SIZE (41_shift_generic.md
R163, R166). -/
def mulElems (T : Fmt) (base : Word64) (size : Nat) : Nat → List (Cx T) → Memory → Memory
  | _, [], m => m
  | i, t :: ts, m => mulElems T base size (i + 1) ts (if i < size then mulElem T base i t m else m)

/-- `for k in 0 .. n-1: TONE[k] <- cmul_U(TONE[k], GSTEP)` (41_shift_generic.md R164). -/
def advanceTones (U : Fmt) (gstep : Cx U) (tones : List (Cx U)) : List (Cx U) := tones.map fun t => cmul t gstep

/-- The live state of the generic kernel between blocks: IDX, `TONE[0..n-1]`, sample memory. -/
structure GRun (U : Fmt) where
  idx   : Nat
  tones : List (Cx U)
  mem   : Memory

/-- One block (41_shift_generic.md R163): the tones are advanced in every block but the first, then the block's
elements are multiplied, the tones converted to T at the multiply (R165). -/
def gblock (T U : Fmt) (base : Word64) (size n : Nat) (gstep : Cx U) (r : GRun U) : GRun U :=
  let tones := if r.idx ≠ 0 then advanceTones U gstep r.tones else r.tones
  { idx := r.idx + n, tones := tones, mem := mulElems T base size r.idx (tones.map (cvtTone U T)) r.mem }

/-- `while IDX < SIZE` (41_shift_generic.md R163); `fuel` bounds the blocks, and SIZE blocks are always enough since
n ≥ 1 (40_numerics.md R121). -/
def gloop (T U : Fmt) (base : Word64) (size n : Nat) (gstep : Cx U) : Nat → GRun U → GRun U
  | 0, r => r
  | fuel + 1, r =>
    if r.idx < size then gloop T U base size n gstep fuel (gblock T U base size n gstep r) else r

/-- The tones `TONE[0]` to `TONE[n−1]` at the start of a SHIFT (41_shift_generic.md R162). -/
def initialTones (U : Fmt) (freq phase : Word64) (n : Nat) : List (Cx U) :=
  (List.range n).map fun k => initialTone U freq phase k

/-- The whole generic loop from its initial tones. -/
def grun (T U : Fmt) (base freq phase : Word64) (size n : Nat) (m : Memory) : GRun U :=
  gloop T U base size n (stepPhasor U freq n) size { idx := 0, tones := initialTones U freq phase n, mem := m }

/-- `gshift()` (41_shift_generic.md R162 to R167). -/
def gshift (s : State) : State :=
  let U := s.fmtU
  let r := grun s.fmtT U s.base s.freq s.phase s.size.toNat s.unroll s.mem
  { s with
    tone := writeTones U s.tone 0 r.tones
    gstep := ToneReg.of U (stepPhasor U s.freq s.unroll)
    idx := BitVec.ofNat 64 r.idx
    mem := r.mem }

end Sys2Proof.Machine
end

