-- ==== Sys2Proof/Machine/VectorKernel.lean ====
section
/-! DEFINITION. The vector kernel of SHIFT (43_vector_kernel.md R220 to R226) and the tone-step generator's body
(42_vector_primitives.md R191). -/

namespace Sys2Proof.Machine

/-- The master tones 0 and 1 as `V[4]` holds them (42_vector_primitives.md R191). -/
def masterLow (freq phase : Word64) : VWord := packD (initialTone .f64 freq phase 0) (initialTone .f64 freq phase 1)

/-- The master tones 2 and 3 as `V[5]` holds them (42_vector_primitives.md R191). -/
def masterHigh (freq phase : Word64) : VWord := packD (initialTone .f64 freq phase 2) (initialTone .f64 freq phase 3)

/-- `tgen_body()` (42_vector_primitives.md R191), in F64 whatever CFG holds. -/
def tgenBody (s : State) : State :=
  ((s.setV 4 (masterLow s.freq s.phase)).setV 5 (masterHigh s.freq s.phase)).setStep (stepPhasor .f64 s.freq 4)

/-- The live state of the vector kernel: `V[4]` to `V[7]`, IDX, sample memory. -/
structure VRun where
  v4  : VReg
  v5  : VReg
  v6  : VReg
  v7  : VReg
  idx : Nat
  mem : Memory
deriving DecidableEq

/-- A register that a command has written whole (10_state.md R34). -/
def VReg.full (x : VWord) : VReg := { bits := x, held := 0xF#4 }

/-- One full block of 32-bit samples (43_vector_kernel.md R222). -/
def vblock32 (base : Word64) (step : Cx .f64) (r : VRun) : VRun :=
  let v6 := narrow8 r.v4.bits r.v5.bits
  let a := elemAddr .f32 base r.idx
  let v7 := cmul4s (memReadV r.mem a) v6
  { v4 := VReg.full (bcmul2d r.v4.bits step)
    v5 := VReg.full (bcmul2d r.v5.bits step)
    v6 := VReg.full v6
    v7 := VReg.full v7
    idx := r.idx + 4
    mem := memWriteV r.mem a v7 }

/-- One full block of 64-bit samples (43_vector_kernel.md R225): half 0, then half 1, then the two advances. -/
def vblock64 (base : Word64) (step : Cx .f64) (r : VRun) : VRun :=
  let a0 := elemAddr .f64 base r.idx
  let m0 := memWriteV r.mem a0 (cmul2d (memReadV r.mem a0) r.v4.bits)
  let a1 := elemAddr .f64 base (r.idx + 2)
  let v7 := cmul2d (memReadV m0 a1) r.v5.bits
  { v4 := VReg.full (bcmul2d r.v4.bits step)
    v5 := VReg.full (bcmul2d r.v5.bits step)
    v6 := r.v6
    v7 := VReg.full v7
    idx := r.idx + 4
    mem := memWriteV m0 a1 v7 }

/-- One full block for the sample format T. -/
def vblock : (T : Fmt) → Word64 → Cx .f64 → VRun → VRun
  | .f32 => vblock32
  | .f64 => vblock64

/-- `while IDX + 4 ≤ SIZE` (43_vector_kernel.md R222, R225); `fuel` bounds the blocks, and SIZE are always enough. -/
def vloop (T : Fmt) (base : Word64) (size : Nat) (step : Cx .f64) : Nat → VRun → VRun
  | 0, r => r
  | fuel + 1, r => if r.idx + 4 ≤ size then vloop T base size step fuel (vblock T base step r) else r

/-- The tail of 32-bit samples (43_vector_kernel.md R223): all four masters are narrowed into `V[6]`, the elements that
remain are multiplied one by one. -/
def vtail32 (base : Word64) (size : Nat) (r : VRun) : VRun :=
  if r.idx < size then
    let v6 := narrow8 r.v4.bits r.v5.bits
    { r with
      v6 := VReg.full v6
      mem := mulElems .f32 base size r.idx [sCx v6 0, sCx v6 1, sCx v6 2, sCx v6 3] r.mem }
  else r

/-- `M[k]`: complex lane k mod 2 of `V[4 + ⌊k/2⌋]` (42_vector_primitives.md R191). -/
def VRun.masters (r : VRun) : List (Cx .f64) := [dCx r.v4.bits 0, dCx r.v4.bits 1, dCx r.v5.bits 0, dCx r.v5.bits 1]

/-- The tail of 64-bit samples (43_vector_kernel.md R226): the masters themselves, with no narrowing. -/
def vtail64 (base : Word64) (size : Nat) (r : VRun) : VRun :=
  { r with mem := mulElems .f64 base size r.idx r.masters r.mem }

/-- The tail for the sample format T. -/
def vtail : (T : Fmt) → Word64 → Nat → VRun → VRun
  | .f32 => vtail32
  | .f64 => vtail64

/-- The kernel's live state right after `tgen_body()` and `IDX <- 0` (43_vector_kernel.md R221, R224). -/
def vstart (s : State) : VRun :=
  { v4 := VReg.full (masterLow s.freq s.phase)
    v5 := VReg.full (masterHigh s.freq s.phase)
    v6 := s.v[6]
    v7 := s.v[7]
    idx := 0
    mem := s.mem }

/-- The whole vector kernel: initialisation, full blocks, tail. -/
def vrun (T : Fmt) (s : State) : VRun :=
  vtail T s.base s.size.toNat (vloop T s.base s.size.toNat (stepPhasor .f64 s.freq 4) s.size.toNat (vstart s))

/-- `vshift32()` or `vshift64()` (43_vector_kernel.md R221 to R227): the registers and memory the kernel leaves. -/
def vshift (T : Fmt) (s : State) : State :=
  let r := vrun T s
  { s.setStep (stepPhasor .f64 s.freq 4) with
    v := (((s.v.set 4 r.v4).set 5 r.v5).set 6 r.v6).set 7 r.v7
    idx := BitVec.ofNat 64 r.idx
    mem := r.mem }

end Sys2Proof.Machine
end

