-- ==== Sys2Proof/Machine/Shift.lean ====
section
/-! DEFINITION. SHIFT (41_shift_generic.md R160, R161; 44_dispatch.md R240). -/

namespace Sys2Proof.Machine

/-- The array lies wholly inside sample memory: `BASE + ESZ_T · SIZE ≤ MEM_BYTES` on unbounded integers (20_memory.md
R72); an array of no elements accesses nothing and lies anywhere (R168; log 7). -/
def State.arrayInMemory (s : State) : Bool :=
  s.size == 0#64 || s.inMemory s.base.toNat (fmtEsz s.fmtT * s.size.toNat)

/-- What a SHIFT with a valid frequency and an array in memory leaves: the vector kernel's or the generic kernel's
effect, and the completion with KVEC (41_shift_generic.md R160, 44_dispatch.md R240, R242). -/
def shiftResult (s : State) : State :=
  if s.useVector then (vshift s.fmtT s).completeShift okCode true
  else (gshift s).completeShift okCode false

/-- SHIFT (41_shift_generic.md R160): the frequency check comes first (R161), then the range (20_memory.md R72). -/
def execShift (s : State) : Host.Outcome State Fault Refusal :=
  if !validFreq s.freq then .next (s.raise .invalidFreq true)
  else if !s.arrayInMemory then .fault .outsideSampleMemory
  else .next (shiftResult s)

end Sys2Proof.Machine
end

