-- ==== Sys2Proof/Machine/Packed.lean ====
section
/-! DEFINITION. TGEN and the packed primitives VNARROW, VCMUL4S, VCMUL2D, VBCMUL2D (42_vector_primitives.md R190 to
R199, R202). A source register that holds no value is read as the free value it has (log 3). -/

namespace Sys2Proof.Machine

/-- A command of the vector datapath (42_vector_primitives.md R202): with HAS_VEC = 0, or with a register field that
names no register, its word is illegal and the fault is taken before anything is read (log 11). -/
def vectorCommand (regsOk : Bool) (s : State) (body : Host.Outcome State Fault Refusal) :
    Host.Outcome State Fault Refusal :=
  if s.params.hasVec && regsOk then body else .next (s.raise .illegalCmd false)

/-- A register-to-register command: `V[d] <- x`, then the completion (42_vector_primitives.md R202 b). -/
def writeAndComplete (s : State) (d : Fin 8) (x : VWord) : Host.Outcome State Fault Refusal :=
  .next ((s.setV d x).complete okCode)

/-- TGEN (42_vector_primitives.md R190): the frequency check, then `tgen_body()`. -/
def execTgen (s : State) : Host.Outcome State Fault Refusal :=
  vectorCommand true s
    (if !validFreq s.freq then .next (s.raise .invalidFreq false) else .next ((tgenBody s).complete okCode))

/-- VNARROW vd, va, vb: `V[d] <- narrow8(V[a], V[b])` (42_vector_primitives.md R192). -/
def execVnarrow (rd ra rb : BitVec 4) (s : State) : Host.Outcome State Fault Refusal :=
  vectorCommand (regOk rd && regOk ra && regOk rb) s
    (writeAndComplete s (vnum rd) (narrow8 (s.vBits (vnum ra)) (s.vBits (vnum rb))))

/-- VCMUL4S vd, va: `V[d] <- cmul4s(V[d], V[a])` (42_vector_primitives.md R194). -/
def execVcmul4s (rd ra : BitVec 4) (s : State) : Host.Outcome State Fault Refusal :=
  vectorCommand (regOk rd && regOk ra) s
    (writeAndComplete s (vnum rd) (cmul4s (s.vBits (vnum rd)) (s.vBits (vnum ra))))

/-- VCMUL2D vd, va: `V[d] <- cmul2d(V[d], V[a])` (42_vector_primitives.md R196). -/
def execVcmul2d (rd ra : BitVec 4) (s : State) : Host.Outcome State Fault Refusal :=
  vectorCommand (regOk rd && regOk ra) s
    (writeAndComplete s (vnum rd) (cmul2d (s.vBits (vnum rd)) (s.vBits (vnum ra))))

/-- VBCMUL2D vd: `V[d] <- bcmul2d(V[d], STEP)` (42_vector_primitives.md R198). -/
def execVbcmul2d (rd : BitVec 4) (s : State) : Host.Outcome State Fault Refusal :=
  vectorCommand (regOk rd) s
    (writeAndComplete s (vnum rd) (bcmul2d (s.vBits (vnum rd)) s.step.value))

end Sys2Proof.Machine
end

