-- ==== Sys2Proof/Machine/VectorMemory.lean ====
section
/-! DEFINITION. VLD and VST (42_vector_primitives.md R200, R201). -/

namespace Sys2Proof.Machine

/-- The 32 bytes of a VLD or VST lie inside sample memory, on unbounded integers (20_memory.md R72). -/
def State.vecInMemory (s : State) (imm : BitVec 16) : Bool := s.inMemory (s.base.toNat + 32 * imm.toNat) 32

/-- VLD vd, imm: `V[d] <- MemRead(BASE + 32 · imm, 32)` (42_vector_primitives.md R200). -/
def execVld (rd : BitVec 4) (imm : BitVec 16) (s : State) : Host.Outcome State Fault Refusal :=
  vectorCommand (regOk rd) s
    (if s.vecInMemory imm then writeAndComplete s (vnum rd) (memReadV s.mem (vecAddr s.base imm))
     else .fault .outsideSampleMemory)

/-- VST vd, imm: `MemWrite(BASE + 32 · imm, 32, V[d])` (42_vector_primitives.md R201). -/
def execVst (rd : BitVec 4) (imm : BitVec 16) (s : State) : Host.Outcome State Fault Refusal :=
  vectorCommand (regOk rd) s
    (if s.vecInMemory imm then
      .next ((s.setMem (memWriteV s.mem (vecAddr s.base imm) (s.vBits (vnum rd)))).complete okCode)
     else .fault .outsideSampleMemory)

end Sys2Proof.Machine
end

