-- ==== Sys2Proof/Machine/Dispatch.lean ====
section
/-! DEFINITION. One arm per command: execute, step 2 of 30_encoding.md R97, with the completion of step 3. -/

namespace Sys2Proof.Machine

def exec (i : Instr) (s : State) : Host.Outcome State Fault Refusal :=
  match i with
  | .shift => Sys2Proof.Machine.execShift s
  | .tgen => Sys2Proof.Machine.execTgen s
  | .vnarrow rd ra rb => Sys2Proof.Machine.execVnarrow rd ra rb s
  | .vcmul4s rd ra => Sys2Proof.Machine.execVcmul4s rd ra s
  | .vcmul2d rd ra => Sys2Proof.Machine.execVcmul2d rd ra s
  | .vbcmul2d rd => Sys2Proof.Machine.execVbcmul2d rd s
  | .vld rd imm => Sys2Proof.Machine.execVld rd imm s
  | .vst rd imm => Sys2Proof.Machine.execVst rd imm s

end Sys2Proof.Machine
end

