-- ==== Sys2Proof/Machine/Window.lean ====
section
/-! DEFINITION. What the outside world and the engine's turn do to the machine: the issue and the run of a command
(30_encoding.md R97), the host window (10_state.md R21 to R34, R42, R43), accesses to sample memory from outside the
engine (20_memory.md R76, R81), and reset (70_reset_and_hazards.md R300 to R303). -/

namespace Sys2Proof.Machine

/-! The engine. -/

/-- The bytes a command accesses, as address and length, decided at issue (20_memory.md R69, R72, R81); none when it
fails or accesses no memory. -/
def accessedBytes (s : State) (w : BitVec 32) : Nat × Nat :=
  match decode s.params.hasVec w with
  | .instr .shift => if validFreq s.freq then (s.base.toNat, fmtEsz s.fmtT * s.size.toNat) else (0, 0)
  | .instr (.vld _ imm) => (s.base.toNat + 32 * imm.toNat, 32)
  | .instr (.vst _ imm) => (s.base.toNat + 32 * imm.toNat, 32)
  | _ => (0, 0)

/-- Issue a command word (30_encoding.md R97 step 1) and note the bytes that other agents may not touch
(20_memory.md R81; log 9). -/
def State.issue (s : State) (w : BitVec 32) : State :=
  { s.latch w with locked := accessedBytes s w :: s.locked }

/-- Execute and complete the latched word (30_encoding.md R97 steps 2 and 3): an illegal word takes ILLEGAL_CMD at
decode (60_exceptions.md R272). -/
def runWord (w : BitVec 32) (s : State) : Host.Outcome State Fault Refusal :=
  match decode s.params.hasVec w with
  | .instr i => exec i s
  | .illegal _ => .next (s.raise .illegalCmd false)

/-- The engine's turn: it runs its command to completion (70_reset_and_hazards.md R317, R319), or it is idle and does
nothing (60_exceptions.md R285). -/
def engineTurn (s : State) : Host.Outcome State Fault Refusal :=
  match s.seq with
  | .idle => .next s
  | .run w => runWord w s

/-! The host window. -/

/-- An access to the window has a meaning only as a naturally aligned 64-bit access (10_state.md R21). -/
def windowOk (offset : BitVec 12) (bytes : Nat) : Bool := bytes == 8 && offset.toNat % 8 == 0

/-- The register at an offset (10_state.md R22). With HAS_VEC = 0 the offsets of STEP and of the vector registers are
reserved. -/
def windowReg (hasVec : Bool) (offset : BitVec 12) : WindowReg :=
  if offset = 0x000#12 then .cap
  else if offset = 0x008#12 then .cmd
  else if offset = 0x010#12 then .status
  else if offset = 0x018#12 then .cfg
  else if offset = 0x020#12 then .base
  else if offset = 0x028#12 then .size
  else if offset = 0x030#12 then .freq
  else if offset = 0x038#12 then .phase
  else if !hasVec then .reserved
  else if offset = 0x040#12 then .stepRe
  else if offset = 0x048#12 then .stepIm
  else if offset.extractLsb' 8 4 = 1#4 then
    .lane ⟨(offset.extractLsb' 5 3).toNat, (offset.extractLsb' 5 3).isLt⟩
      ⟨(offset.extractLsb' 3 2).toNat, (offset.extractLsb' 3 2).isLt⟩
  else .reserved

/-- CAP (10_state.md R23). -/
def capWord (p : Config.Params) : Word64 := if p.hasVec then 0x0000000000080881#64 else 0x0000000000000080#64

/-- A register write of the host with the engine idle (10_state.md R22 to R34): a write to CMD issues bits 31 to 0,
read-only registers and reserved offsets ignore it. -/
def State.writeReg (s : State) (r : WindowReg) (x : Word64) : State :=
  match r with
  | .cap => s
  | .cmd => s.issue (x.setWidth 32)
  | .status => s
  | .cfg => { s with cfg := cfgStored x }
  | .base => { s with base := baseStored x }
  | .size => { s with size := x }
  | .freq => { s with freq := x }
  | .phase => { s with phase := x }
  | .stepRe => { s with step := { s.step with re := x, heldRe := true } }
  | .stepIm => { s with step := { s.step with im := x, heldIm := true } }
  | .lane q j => s.setVLane q j x
  | .reserved => s

/-- A write to the window: ignored while BUSY = 1, CMD included (10_state.md R42). -/
def windowWrite (offset : BitVec 12) (bytes : Nat) (x : Word64) (s : State) : Host.Outcome State Fault Refusal :=
  if windowOk offset bytes then
    .next (if s.status.busy then s else s.writeReg (windowReg s.params.hasVec offset) x)
  else .refused .windowAccess

/-- The read returned a value the rules give. -/
def State.returns (s : State) (x : Word64) : State := { s with hostData := x }

/-- The read returned an unspecified value: a fresh free value (10_state.md R42, R45; U5, U6; log 10). -/
def State.returnsFree (s : State) : State := { s.draw with hostData := Config.freeWord s.freeCtr 0 }

/-- A read with a value if the register holds one, and an unspecified value otherwise (10_state.md R45). -/
def State.returnsIfHeld (s : State) (held : Bool) (x : Word64) : State := if held then s.returns x else s.returnsFree

/-- A register read of the host with the engine idle (10_state.md R22 to R34, R43). A read of STATUS that shows
BUSY = 0 ends the time in which other agents may not touch a command's bytes (20_memory.md R76, R81). -/
def State.readIdle (s : State) (r : WindowReg) : State :=
  match r with
  | .cap => s.returns (capWord s.params)
  | .cmd => s.returns 0#64
  | .status => { s.returns s.status.word with locked := [] }
  | .cfg => s.returns s.cfg
  | .base => s.returns s.base
  | .size => s.returns s.size
  | .freq => s.returns s.freq
  | .phase => s.returns s.phase
  | .stepRe => s.returnsIfHeld s.step.heldRe s.step.re
  | .stepIm => s.returnsIfHeld s.step.heldIm s.step.im
  | .lane q j => s.returnsIfHeld (s.v[q].held.getLsbD j.val) (dLane s.v[q].bits j.val)
  | .reserved => s.returns 0#64

/-- A register read of the host while BUSY = 1 (10_state.md R42): STATUS and CAP return their values, a reserved offset
returns 0 (R43), any other register an unspecified value. -/
def State.readBusy (s : State) (r : WindowReg) : State :=
  match r with
  | .cap => s.returns (capWord s.params)
  | .cmd => s.returnsFree
  | .status => s.returns s.status.word
  | .cfg => s.returnsFree
  | .base => s.returnsFree
  | .size => s.returnsFree
  | .freq => s.returnsFree
  | .phase => s.returnsFree
  | .stepRe => s.returnsFree
  | .stepIm => s.returnsFree
  | .lane _ _ => s.returnsFree
  | .reserved => s.returns 0#64

/-- A read of the window. -/
def windowRead (offset : BitVec 12) (bytes : Nat) (s : State) : Host.Outcome State Fault Refusal :=
  if windowOk offset bytes then
    .next (if s.status.busy then s.readBusy (windowReg s.params.hasVec offset)
           else s.readIdle (windowReg s.params.hasVec offset))
  else .refused .windowAccess

/-! Sample memory from outside the engine. -/

/-- The byte belongs to a command whose completion the host has not read (20_memory.md R81). -/
def State.isLocked (s : State) (a : Nat) : Bool := s.locked.any fun r => decide (r.1 ≤ a ∧ a < r.1 + r.2)

/-- A write of one byte from outside the engine (20_memory.md R60, R81). -/
def outsideWrite (addr : Word64) (x : Byte) (s : State) : Host.Outcome State Fault Refusal :=
  if !s.inMemory addr.toNat 1 then .fault .outsideSampleMemory
  else if s.isLocked addr.toNat then .refused .concurrentAccess
  else .next { s with mem := s.mem.write addr.toNat x }

/-- A read of one byte from outside the engine (20_memory.md R60, R81). -/
def outsideRead (addr : Word64) (s : State) : Host.Outcome State Fault Refusal :=
  if !s.inMemory addr.toNat 1 then .fault .outsideSampleMemory
  else if s.isLocked addr.toNat then .refused .concurrentAccess
  else .next (s.returns ((s.mem.read addr.toNat).setWidth 64))

/-! Reset. -/

/-- Elements 0 to n−1 of an abandoned SHIFT (70_reset_and_hazards.md R303): each holds its value at issue, as in `m`, or
its final value, as in `final` (log 8). -/
def abandonElems (T : Fmt) (base : Word64) (ctr : Nat) (final : Memory) : Nat → Memory → Memory
  | 0, m => m
  | n + 1, m =>
    let m' := abandonElems T base ctr final n m
    if Config.freeChoice ctr n then memWriteC T m' (elemAddr T base n) (memReadC T final (elemAddr T base n)) else m'

/-- The n bytes from addr take free values (70_reset_and_hazards.md R303; log 8). -/
def scramble (ctr : Nat) (m : Memory) (addr : Nat) : Nat → Memory
  | 0 => m
  | n + 1 => (scramble ctr m addr n).write (addr + n) (Config.freeByte ctr (addr + n))

/-- Sample memory after the command with word `w` is abandoned by a reset, `final` being the memory its completion would
have left (70_reset_and_hazards.md R303). -/
def abandonedMemory (w : BitVec 32) (s : State) (final : Memory) : Memory :=
  match decode s.params.hasVec w with
  | .instr .shift =>
    if validFreq s.freq then abandonElems s.fmtT s.base s.freeCtr final s.size.toNat s.mem else s.mem
  | .instr (.vld _ imm) => scramble s.freeCtr s.mem (vecAddr s.base imm) 32
  | .instr (.vst _ imm) => scramble s.freeCtr s.mem (vecAddr s.base imm) 32
  | _ => s.mem

/-- The registers take their reset values; the build and sample memory `m` stay (10_state.md R46). -/
def State.resetWith (s : State) (m : Memory) : State :=
  State.afterReset s.params m s.freeCtr (s.freeCtr + 1) s.inputs s.locked

/-- Reset (70_reset_and_hazards.md R300, R303): a running command is abandoned; one that has no meaning has none under
reset either. -/
def resetEvent (s : State) : Host.Outcome State Fault Refusal :=
  match s.seq with
  | .idle => .next (s.resetWith s.mem)
  | .run w =>
    match runWord w s with
    | .next t => .next (s.resetWith (abandonedMemory w s t.mem))
    | .fault r => .fault r
    | .refused r => .refused r

/-- One action of the outside world, or the engine's turn. -/
def runInput (i : Input) (s : State) : Host.Outcome State Fault Refusal :=
  match i with
  | .engineTurn => engineTurn s
  | .windowWrite offset bytes x => windowWrite offset bytes x s
  | .windowRead offset bytes => windowRead offset bytes s
  | .memWrite addr x => outsideWrite addr x s
  | .memRead addr => outsideRead addr s
  | .reset => resetEvent s

/-- The next action: the oldest pending input, or the engine's turn when none is pending (log 5). -/
def nextAction (s : State) : Host.Outcome State Fault Refusal :=
  match s.inputs with
  | [] => engineTurn s
  | i :: rest => runInput i { s with inputs := rest }

/-- A CMD write of the word with the engine idle, and the engine's turn next (log 5). -/
def issueNext (s : State) (w : BitVec 32) : State := { s.issue w with inputs := .engineTurn :: s.inputs }

end Sys2Proof.Machine
end

