-- ==== Sys2Proof/Machine/Step.lean ====
section
/-! DEFINITION. One step of PMX (70_reset_and_hazards.md R317): one action of the outside world, or one whole command
from its latched word to its completion (log 5, log 6). -/

namespace Sys2Proof.Machine

/-- One step: the next action. -/
def step (s : State) : Host.Outcome State Fault Refusal := nextAction s

/-- `s` with the command word of an opcode-table row just issued: the latched word is where the engine takes its
command from, and the engine's turn is next (log 5). -/
def State.withFetchWord (s : State) (nbits w : Nat) : State := issueNext s (tableWord nbits w)

end Sys2Proof.Machine
end

