-- ==== Sys2Proof/Safety.lean ====
section
/-! DEFINITION. The terms claims are stated in: when a command has a meaning, the invariants of the state, the closed
forms of the tones and the array, and the accuracy of a SHIFT. -/

namespace Sys2Proof.Machine

/-! When the spec gives a command a meaning. -/

/-- The command has a meaning in this state: its bytes lie inside sample memory (20_memory.md R72), and every register it
reads holds a value (10_state.md R45, 42_vector_primitives.md R202 c). Two readings in it are the model's: an array of no
elements lies anywhere (log 7), and a command that no word of this build decodes to is ILLEGAL_CMD and so has a meaning
(log 11). The machine also runs a command whose registers hold no value, on the free values they have (log 3); a claim
about PMX takes this as its premise. -/
def hasMeaning : Instr → State → Bool
  | .shift, s => !validFreq s.freq || s.arrayInMemory
  | .tgen, _ => true
  | .vnarrow _ ra rb, s => s.v[vnum ra].holds && s.v[vnum rb].holds
  | .vcmul4s rd ra, s => s.v[vnum rd].holds && s.v[vnum ra].holds
  | .vcmul2d rd ra, s => s.v[vnum rd].holds && s.v[vnum ra].holds
  | .vbcmul2d rd, s => s.v[vnum rd].holds && s.step.holds
  | .vld _ imm, s => s.vecInMemory imm
  | .vst rd imm, s => s.v[vnum rd].holds && s.vecInMemory imm

/-- A sequence of commands, each run to its completion before the next is issued. -/
def runCommands : List Instr → State → Host.Outcome State Fault Refusal
  | [], s => .next s
  | i :: is, s =>
    match exec i s with
    | .next t => runCommands is t
    | .fault r => .fault r
    | .refused r => .refused r

/-- From s to t a command wrote V[d], which then holds a value, and completed with ERR = 0; every other register, the
marks, sample memory, KVEC and the model's own fields are as they were (42_vector_primitives.md R202). -/
def State.OnlyWritesV (s t : State) (d : Fin 8) : Prop :=
  t.v[d].held = 0xF#4 ∧ (∀ r : Fin 8, r ≠ d → t.v[r] = s.v[r]) ∧
    t = { s with
      v := t.v, seq := .idle
      status := { busy := false, done := true, err := 0#2, kvec := s.status.kvec } }

/-- The table of 10_state.md R46, but for sample memory: what the registers read as after a reset. The registers the
table gives no value hold none. -/
structure State.AtReset (t : State) : Prop where
  cap : capWord t.params = if t.params.hasVec then 0x0000000000080881#64 else 0x0000000000000080#64
  status : t.status.word = 0#64
  cfg : t.cfg = 0#64
  formats : t.fmtT = .f32 ∧ t.fmtU = .f32 ∧ t.gen = false ∧ t.unroll = 1
  base : t.base = 0#64
  size : t.size = 0#64
  freq : t.freq = 0#64
  phase : t.phase = 0#64
  step : t.step.heldRe = false ∧ t.step.heldIm = false
  vector : ∀ r : Fin 8, t.v[r].held = 0#4
  tone : ∀ k : Fin 8, t.tone[k].held = false
  gstep : t.gstep.held = false
  seq : t.seq = .idle
  idx : t.idx = 0#64

/-! Invariants. -/

/-- STATUS and SEQ agree (10_state.md R26, R41): BUSY is 1 exactly when SEQ = RUN, DONE and ERR are 0 while BUSY, and
code 3 is never produced (R25). -/
structure State.StatusInv (s : State) : Prop where
  busyIffRun : s.status.busy = true ↔ s.seq ≠ .idle
  doneWhileBusy : s.status.busy = true → s.status.done = false
  errWhileBusy : s.status.busy = true → s.status.err = 0#2
  errLegal : s.status.err ≠ 3#2

/-- The reserved bits of CFG and BASE read 0 (10_state.md R27, R28, R43). -/
structure State.ReservedInv (s : State) : Prop where
  cfgReserved : s.cfg &&& ~~~0x77#64 = 0#64
  baseAligned : s.base &&& 0xF#64 = 0#64

/-- Sample memory is in its canonical form and lists bytes of sample memory only (20_memory.md R61). -/
structure State.MemoryInv (s : State) : Prop where
  canonical : s.mem.wf = true
  inside : ∀ c ∈ s.mem, c.1 < s.params.memBytes.val

/-! Rounding. -/

/-- `r` is the magnitude of format `f` nearest to `m · 2^−q` units, and of two nearest ones the one whose last
significand bit is even (40_numerics.md R124). The infinity stands for the first value beyond the largest finite one,
which is where a rounded magnitude leaves the format. -/
def NearestEven (f : Fmt) (m q r : Nat) : Prop :=
  r ≤ fmtInfMag f ∧ ∀ y, y ≤ fmtInfMag f → y ≠ r →
    ((2 ^ q * fpUnitsOf f r : Int) - m).natAbs ≤ ((2 ^ q * fpUnitsOf f y : Int) - m).natAbs ∧
    (((2 ^ q * fpUnitsOf f r : Int) - m).natAbs = ((2 ^ q * fpUnitsOf f y : Int) - m).natAbs → r % 2 = 0)

/-! The array and its tones. -/

/-- Element i of the array in a memory (20_memory.md R64, R65). -/
def elemAt (T : Fmt) (m : Memory) (base : Word64) (i : Nat) : Cx T := memReadC T m (elemAddr T base i)

/-- The address is no byte of the array (20_memory.md R72). -/
def State.outsideArray (s : State) (a : Nat) : Prop :=
  a < s.base.toNat ∨ s.base.toNat + fmtEsz s.fmtT * s.size.toNat ≤ a

/-- `t(k, q)` (41_shift_generic.md R164; with U = F64 and n = 4, `m(k, q)` of 43_vector_kernel.md R227): the k-th tone
after q advances. -/
def toneAt (U : Fmt) (freq phase : Word64) (n k : Nat) : Nat → Cx U
  | 0 => initialTone U freq phase k
  | q + 1 => cmul (toneAt U freq phase n k q) (stepPhasor U freq n)

/-- The number of blocks of the generic kernel, ⌈SIZE / n⌉ (40_numerics.md R121). -/
def State.blocks (s : State) : Nat := (s.size.toNat + s.unroll - 1) / s.unroll

/-! Accuracy (45_contract_properties.md R250 to R256). -/

/-- The value of a finite pattern (40_numerics.md R122). -/
def fpVal {f : Fmt} (b : Fp f) : ℚ := (fpInt b : ℚ) / 2 ^ fmtUnitExp f

/-- Both parts are finite. -/
def cxFinite {f : Fmt} (z : Cx f) : Prop := fpMag z.re < fmtInfMag f ∧ fpMag z.im < fmtInfMag f

/-- Both parts are at most a quarter of 2^128 (F32) or of 2^1024 (F64), so that no product with a tone leaves the
format. -/
def cxModerate {f : Fmt} (z : Cx f) : Prop :=
  fpMag z.re + 2 * 2 ^ fmtFrac f ≤ fmtInfMag f ∧ fpMag z.im + 2 * 2 ^ fmtFrac f ≤ fmtInfMag f

/-- The complex number a finite pair stands for (00_scope.md R17). -/
noncomputable def cxVal {f : Fmt} (z : Cx f) : ℂ := { re := (fpVal z.re : ℝ), im := (fpVal z.im : ℝ) }

/-- `b` is the real number x rounded once to the format, to nearest, ties to the even significand, x being below the
format's end (40_numerics.md R124). -/
def RoundsTo (f : Fmt) (x : ℝ) (b : Fp f) : Prop :=
  fpMag b < fmtInfMag f ∧ ∀ c : Fp f, fpMag c < fmtInfMag f →
    |(fpVal b : ℝ) - x| ≤ |(fpVal c : ℝ) - x| ∧
    (|(fpVal b : ℝ) - x| = |(fpVal c : ℝ) - x| → fpVal c = fpVal b ∨ fpMag b % 2 = 0)

/-- The assumption TrigCR of 40_numerics.md R133 b at one operand: the cosine and the sine that the hardware computes are
the exact ones of the operand's value, rounded once. -/
def TrigCRAt (f : Fmt) (x : Fp f) : Prop :=
  RoundsTo f (Real.cos (fpVal x)) (fcos f x) ∧ RoundsTo f (Real.sin (fpVal x)) (fsin f x)

/-- The assumption TrigCR (40_numerics.md R133 b), at every finite operand of both formats. No claim but the ones on
accuracy takes it, and it says nothing of an infinity or a NaN (R133 c). -/
def TrigCR : Prop := ∀ (f : Fmt) (x : Fp f), fpMag x < fmtInfMag f → TrigCRAt f x

/-- The format the running kernel keeps its tones in: CFG.U, or F64 in the vector kernel (43_vector_kernel.md R220). -/
def State.kernelU (s : State) : Fmt := if s.useVector then .f64 else s.fmtU

/-- The block size of the running kernel: UNROLL_SIZE, or 4 in the vector kernel (43_vector_kernel.md R220). -/
def State.kernelN (s : State) : Nat := if s.useVector then 4 else s.unroll

/-- TrigCR at the operands a SHIFT of this state takes a cosine and a sine of: the angles of its tones and of its step.
TrigCR gives it wherever PHASE is finite. -/
def State.TrigCR (s : State) : Prop :=
  (∀ k, k < s.kernelN → TrigCRAt s.kernelU (angle s.kernelU s.freq s.phase k)) ∧
  TrigCRAt s.kernelU (stepAngle s.kernelU s.freq s.kernelN)

/-- The unit roundoff 2^−p of the format. -/
def unitRoundoff (f : Fmt) : ℚ := 1 / 2 ^ (fmtFrac f + 1)

/-- The error of a step angle for each element of a block, in unit roundoffs: 2π and the products rounded, and in F32 the
frequency too (40_numerics.md R131, R137, R139). -/
def angleError : Fmt → ℚ
  | .f32 => 22
  | .f64 => 15

/-- The relative tolerance of an element that a tone after q advances is applied to, in a kernel with tones of format U
and blocks of n elements, samples of format T, and start phase φ. It grows with the number of block advances
(45_contract_properties.md R250, R256 a); the figures are the model's (log 18). -/
def shiftTolerance (U T : Fmt) (n q : Nat) (φ : ℚ) : ℚ :=
  unitRoundoff U * (q * (angleError U * n + 6) + 3 * |φ| + 210) + 6 * unitRoundoff T

/-- The tolerance of element i of a SHIFT of this state, relative to the element. -/
def State.tolerance (s : State) (i : Nat) : ℚ :=
  shiftTolerance s.kernelU s.fmtT s.kernelN (i / s.kernelN) (fpVal (f := .f64) s.phase)

/-- The absolute tolerance, four times the smallest value of the format: what underflow of the products can cost. -/
def underflowTolerance (T : Fmt) : ℚ := 4 / 2 ^ fmtUnitExp T

/-- The exact angle of element i, `2π·freq·i + startPhase` (45_contract_properties.md R250). -/
noncomputable def State.exactAngle (s : State) (i : Nat) : ℝ :=
  2 * Real.pi * fpVal (f := .f64) s.freq * i + fpVal (f := .f64) s.phase

/-- The premises of a claim on the accuracy of a SHIFT: it completes with ERR = 0 (20_memory.md R72, 40_numerics.md R136),
PHASE is a real number in the tones' format (40_numerics.md R140), the cosines and sines it takes are correctly rounded
(R133 b), and SIZE is at most 2^47, or 2^18 where the tones are F32, beyond which the tolerance nears 1. -/
structure State.InContract (s : State) : Prop where
  freq : validFreq s.freq = true
  array : s.base.toNat + fmtEsz s.fmtT * s.size.toNat ≤ s.params.memBytes.val
  memory : s.mem.wf = true
  phase : fpMag (toFmt s.kernelU s.phase) < fmtInfMag s.kernelU
  trig : s.TrigCR
  size : s.size.toNat * 2 ^ 6 ≤ 2 ^ (fmtFrac s.kernelU + 1)

/-- The element `b` is the element `a` turned by the exact angle x, within a relative tolerance r and an absolute one. The
spec gives the relative error no norm (91_not_in_source.md N9). DESIGN CHOICE (log 20): the complex magnitude of the
difference against that of the initial element, and not part against part. -/
def cxNear {T : Fmt} (b : Cx T) (a : ℂ) (x : ℝ) (r e : ℝ) : Prop :=
  ‖cxVal b - a * Complex.exp (x * Complex.I)‖ ≤ r * ‖a‖ + e

end Sys2Proof.Machine
end

