-- ==== Sys2Proof/Certificates/Slice0/Obligations.lean ====
section
/-! DEFINITION. The statements for the provers. Each docstring names the rule or the section of the spec it rests on. -/

open Sys2Proof Sys2Proof.Machine

/-! Encoding. -/

/-- 30_encoding.md R95: the masks do not overlap, so a word selects at most one row. -/
def Obligations.WordSelectsAtMostOneRow : Prop :=
  ∀ (w : BitVec 32) (r r' : Row), r.selects w = true → r'.selects w = true → r = r'

/-- 30_encoding.md R101 against R95, R96: every operand value the encoding admits survives the word. -/
def Obligations.DecodeOfEncode : Prop :=
  ∀ (hasVec : Bool) (i : Instr), WellFormed i → i.available hasVec = true → decode hasVec (encode i) = .instr i

/-- 30_encoding.md R96, R98, R101: a word that decodes is the word of its command, which is well-formed and available. -/
def Obligations.EncodeOfDecode : Prop :=
  ∀ (hasVec : Bool) (w : BitVec 32) (i : Instr), decode hasVec w = .instr i →
    encode i = w ∧ WellFormed i ∧ i.available hasVec = true

/-- 30_encoding.md R98, whole: which words are illegal, and that running one completes with ERR = 2 and changes nothing
else. -/
def Obligations.IllegalWordsExactly : Prop :=
  (∀ (hasVec : Bool) (w : BitVec 32),
    (∃ why, decode hasVec w = .illegal why) ↔
      (opField w ∉ [0x01#8, 0x02#8, 0x10#8, 0x11#8, 0x12#8, 0x13#8, 0x20#8, 0x21#8]
        ∨ (opField w ∈ [0x01#8, 0x02#8] ∧ w.extractLsb' 0 24 ≠ 0#24)
        ∨ (opField w = 0x10#8 ∧ w.extractLsb' 0 12 ≠ 0#12)
        ∨ (opField w ∈ [0x11#8, 0x12#8] ∧ w.extractLsb' 0 16 ≠ 0#16)
        ∨ (opField w = 0x13#8 ∧ w.extractLsb' 0 20 ≠ 0#20)
        ∨ (opField w ∈ [0x20#8, 0x21#8] ∧ w.extractLsb' 16 4 ≠ 0#4)
        ∨ (opField w ∈ [0x10#8, 0x11#8, 0x12#8, 0x13#8, 0x20#8, 0x21#8] ∧ 8 ≤ (rdField w).toNat)
        ∨ (opField w ∈ [0x10#8, 0x11#8, 0x12#8] ∧ 8 ≤ (raField w).toNat)
        ∨ (opField w = 0x10#8 ∧ 8 ≤ (rbField w).toNat)
        ∨ (hasVec = false ∧ opField w ≠ 0x01#8))) ∧
  (∀ hasVec : Bool, (∃ why, decode hasVec 0x00000000#32 = .illegal why) ∧
    (∃ why, decode hasVec 0xFFFFFFFF#32 = .illegal why)) ∧
  (∀ (s : State) (w : BitVec 32) (why : Illegal), decode s.params.hasVec w = .illegal why →
    runWord w s = .next { s with
      seq := .idle, status := { busy := false, done := true, err := 2#2, kvec := s.status.kvec } })

/-- 30_encoding.md R101's worked examples and 95_test_vectors.md 2.6: words written from the encodings decode to the
commands they stand for. -/
def Obligations.WordsOfTheSpecDecode : Prop :=
  decode true 0x01000000#32 = .instr .shift ∧
  decode true 0x02000000#32 = .instr .tgen ∧
  decode true 0x10645000#32 = .instr (.vnarrow 6 4 5) ∧
  decode true 0x11760000#32 = .instr (.vcmul4s 7 6) ∧
  decode true 0x12740000#32 = .instr (.vcmul2d 7 4) ∧
  decode true 0x13500000#32 = .instr (.vbcmul2d 5) ∧
  decode true 0x20700001#32 = .instr (.vld 7 1) ∧
  decode true 0x2170007F#32 = .instr (.vst 7 127)

/-! The step. -/

/-- 30_encoding.md R97 step 2: when the engine has a latched word and it is its turn, the step is exec of the word's
command. The model's own part (log 5): the turn is taken from the pending inputs, or is the engine's when none is
pending. -/
def Obligations.StepRunsTheDecodedCommand : Prop :=
  ∀ (s : State) (w : BitVec 32) (i : Instr), s.seq = .run w → decode s.params.hasVec w = .instr i →
    (s.inputs = [] → step s = exec i s) ∧
    (∀ rest, s.inputs = .engineTurn :: rest → step s = exec i { s with inputs := rest })

/-- 10_state.md R24, R26 and 30_encoding.md R97 step 1: a CMD write with the engine idle latches bits 31 to 0 of the
value, sets BUSY, clears DONE and ERR, keeps KVEC, and changes no other register and no byte of memory. -/
def Obligations.CmdWriteIssuesTheWord : Prop :=
  ∀ (s : State) (x : Word64) (rest : List Input),
    s.status.busy = false → s.inputs = .windowWrite 0x008#12 8 x :: rest →
    ∃ t, step s = .next t ∧
      t = { s with
        seq := .run (x.extractLsb' 0 32)
        status := { busy := true, done := false, err := 0#2, kvec := s.status.kvec }
        locked := t.locked
        inputs := rest }

/-- 10_state.md R42: while BUSY = 1 a write to the window changes no state, CMD included; a read of STATUS or CAP
returns its value. A read changes nothing but the value returned (and the model's counter of free values). -/
def Obligations.HostAccessWhileBusy : Prop :=
  ∀ (s : State) (offset : BitVec 12) (x : Word64) (rest : List Input),
    s.status.busy = true → offset.toNat % 8 = 0 →
    (s.inputs = .windowWrite offset 8 x :: rest → step s = .next { s with inputs := rest }) ∧
    (s.inputs = .windowRead offset 8 :: rest → ∃ t, step s = .next t ∧
      t = { s with inputs := rest, hostData := t.hostData, freeCtr := t.freeCtr } ∧
      (offset = 0x010#12 → t.hostData = s.status.word) ∧
      (offset = 0x000#12 → t.hostData = if s.params.hasVec then 0x80881#64 else 0x80#64))

/-- 10_state.md R22 to R34, R43: what the host reads from a register of the window after it has written it, the engine
idle throughout: CFG at 0x018 keeps bits 2:0 and 6:4, BASE at 0x020 bits 63:4, SIZE, FREQ, PHASE at 0x028 to 0x038 and,
with HAS_VEC = 1, the halves of STEP and the lanes of V at 0x100 to 0x1FF all 64 bits; CAP at 0x000 its constant, every
other offset, CMD and STATUS apart, is reserved and gives 0. -/
def Obligations.WindowReadsBackWrites : Prop :=
  ∀ (s : State) (offset : BitVec 12) (x : Word64) (rest : List Input),
    s.status.busy = false → offset.toNat % 8 = 0 → offset ≠ 0x008#12 → offset ≠ 0x010#12 →
    s.inputs = .windowWrite offset 8 x :: .windowRead offset 8 :: rest →
    ∃ t u, step s = .next t ∧ step t = .next u ∧ u.inputs = rest ∧
      u.hostData =
        if offset = 0x000#12 then (if s.params.hasVec then 0x80881#64 else 0x80#64)
        else if offset = 0x018#12 then x &&& 0x77#64
        else if offset = 0x020#12 then x &&& 0xFFFFFFFFFFFFFFF0#64
        else if offset = 0x028#12 ∨ offset = 0x030#12 ∨ offset = 0x038#12 then x
        else if s.params.hasVec = true ∧ (offset = 0x040#12 ∨ offset = 0x048#12 ∨
          (0x100 ≤ offset.toNat ∧ offset.toNat < 0x200)) then x
        else 0#64

/-- 10_state.md R22, R27 to R32, R43: with the engine idle, a write at a register's offset writes that register's field
of the state and nothing else: CFG at 0x018, BASE at 0x020, SIZE at 0x028, FREQ at 0x030, PHASE at 0x038, the halves of
STEP at 0x040 and 0x048, which then hold a value; a write to CAP, to STATUS or at a reserved offset is ignored. The lanes
of V are `LaneWriteChangesOneLane`, CMD is `CmdWriteIssuesTheWord`. -/
def Obligations.HostWriteSetsItsRegister : Prop :=
  ∀ (s : State) (x : Word64) (rest : List Input), s.status.busy = false →
    step { s with inputs := .windowWrite 0x018#12 8 x :: rest } =
      .next { s with inputs := rest, cfg := x &&& 0x77#64 } ∧
    step { s with inputs := .windowWrite 0x020#12 8 x :: rest } =
      .next { s with inputs := rest, base := x &&& 0xFFFFFFFFFFFFFFF0#64 } ∧
    step { s with inputs := .windowWrite 0x028#12 8 x :: rest } = .next { s with inputs := rest, size := x } ∧
    step { s with inputs := .windowWrite 0x030#12 8 x :: rest } = .next { s with inputs := rest, freq := x } ∧
    step { s with inputs := .windowWrite 0x038#12 8 x :: rest } = .next { s with inputs := rest, phase := x } ∧
    (s.params.hasVec = true →
      step { s with inputs := .windowWrite 0x040#12 8 x :: rest } =
        .next { s with inputs := rest, step := { s.step with re := x, heldRe := true } } ∧
      step { s with inputs := .windowWrite 0x048#12 8 x :: rest } =
        .next { s with inputs := rest, step := { s.step with im := x, heldIm := true } }) ∧
    (∀ o : BitVec 12, o.toNat % 8 = 0 →
      o ∉ [0x008#12, 0x018#12, 0x020#12, 0x028#12, 0x030#12, 0x038#12] →
      (s.params.hasVec = false ∨ (o ≠ 0x040#12 ∧ o ≠ 0x048#12 ∧ (o.toNat < 0x100 ∨ 0x200 ≤ o.toNat))) →
      step { s with inputs := .windowWrite o 8 x :: rest } = .next { s with inputs := rest })

/-- 10_state.md R22 to R34, R43: with the engine idle, a read at a register's offset returns that register and changes
nothing else: CAP at 0x000, 0 at CMD's 0x008, CFG at 0x018, BASE at 0x020, SIZE at 0x028, FREQ at 0x030, PHASE at 0x038,
and, where they hold a value, the halves of STEP at 0x040 and 0x048 and lane j of V[r] at 0x100 + 32r + 8j; a reserved
offset returns 0. STATUS at 0x010 returns its fields at their bits, and ends the time a command's bytes are closed (the
model's list, log 9). A half or lane that holds no value returns an unspecified one (R45). -/
def Obligations.HostReadReturnsItsRegister : Prop :=
  ∀ (s : State) (rest : List Input), s.status.busy = false →
    step { s with inputs := .windowRead 0x000#12 8 :: rest } =
      .next { s with inputs := rest, hostData := if s.params.hasVec then 0x80881#64 else 0x80#64 } ∧
    step { s with inputs := .windowRead 0x008#12 8 :: rest } = .next { s with inputs := rest, hostData := 0#64 } ∧
    (∃ t, step { s with inputs := .windowRead 0x010#12 8 :: rest } = .next t ∧
      t.hostData.getLsbD 0 = s.status.busy ∧ t.hostData.getLsbD 1 = s.status.done ∧
      t.hostData.extractLsb' 2 2 = s.status.err ∧ t.hostData.getLsbD 4 = s.status.kvec ∧
      t.hostData.extractLsb' 5 59 = 0#59 ∧
      t = { s with inputs := rest, hostData := t.hostData, locked := [] }) ∧
    step { s with inputs := .windowRead 0x018#12 8 :: rest } = .next { s with inputs := rest, hostData := s.cfg } ∧
    step { s with inputs := .windowRead 0x020#12 8 :: rest } = .next { s with inputs := rest, hostData := s.base } ∧
    step { s with inputs := .windowRead 0x028#12 8 :: rest } = .next { s with inputs := rest, hostData := s.size } ∧
    step { s with inputs := .windowRead 0x030#12 8 :: rest } = .next { s with inputs := rest, hostData := s.freq } ∧
    step { s with inputs := .windowRead 0x038#12 8 :: rest } = .next { s with inputs := rest, hostData := s.phase } ∧
    (s.params.hasVec = true →
      (∃ t, step { s with inputs := .windowRead 0x040#12 8 :: rest } = .next t ∧
        (s.step.heldRe = true → t.hostData = s.step.re ∧ t.freeCtr = s.freeCtr) ∧
        t = { s with inputs := rest, hostData := t.hostData, freeCtr := t.freeCtr }) ∧
      (∃ t, step { s with inputs := .windowRead 0x048#12 8 :: rest } = .next t ∧
        (s.step.heldIm = true → t.hostData = s.step.im ∧ t.freeCtr = s.freeCtr) ∧
        t = { s with inputs := rest, hostData := t.hostData, freeCtr := t.freeCtr }) ∧
      (∀ (r : Fin 8) (j : Fin 4),
        ∃ t, step { s with inputs := .windowRead (BitVec.ofNat 12 (0x100 + 32 * r.val + 8 * j.val)) 8 :: rest } = .next t ∧
          (s.v[r].held.getLsbD j = true → t.hostData = dLane s.v[r].bits j ∧ t.freeCtr = s.freeCtr) ∧
          t = { s with inputs := rest, hostData := t.hostData, freeCtr := t.freeCtr })) ∧
    (∀ o : BitVec 12, o.toNat % 8 = 0 →
      o ∉ [0x000#12, 0x008#12, 0x010#12, 0x018#12, 0x020#12, 0x028#12, 0x030#12, 0x038#12] →
      (s.params.hasVec = false ∨ (o ≠ 0x040#12 ∧ o ≠ 0x048#12 ∧ (o.toNat < 0x100 ∨ 0x200 ≤ o.toNat))) →
      step { s with inputs := .windowRead o 8 :: rest } = .next { s with inputs := rest, hostData := 0#64 })

/-- 10_state.md R34: a lane write replaces bits 64j+63 to 64j of V[r] and leaves the other lanes, their marks, and every
other register and byte as they were; the lane then holds a value. -/
def Obligations.LaneWriteChangesOneLane : Prop :=
  ∀ (s : State) (r : Fin 8) (j : Fin 4) (x : Word64) (rest : List Input),
    s.status.busy = false → s.params.hasVec = true →
    s.inputs = .windowWrite (BitVec.ofNat 12 (0x100 + 32 * r.val + 8 * j.val)) 8 x :: rest →
    ∃ t, step s = .next t ∧
      dLane t.v[r].bits j = x ∧ t.v[r].held.getLsbD j = true ∧
      (∀ j' : Fin 4, j' ≠ j →
        dLane t.v[r].bits j' = dLane s.v[r].bits j' ∧ t.v[r].held.getLsbD j' = s.v[r].held.getLsbD j') ∧
      (∀ r' : Fin 8, r' ≠ r → t.v[r'] = s.v[r']) ∧
      t = { s with v := t.v, inputs := rest }

/-- 10_state.md R21: an access to the window that is not an aligned 64-bit access has no meaning. -/
def Obligations.WindowAccessMustBeAligned64 : Prop :=
  ∀ (s : State) (offset : BitVec 12) (bytes : Nat) (x : Word64) (rest : List Input),
    bytes ≠ 8 ∨ offset.toNat % 8 ≠ 0 →
    (s.inputs = .windowWrite offset bytes x :: rest → step s = .refused .windowAccess) ∧
    (s.inputs = .windowRead offset bytes :: rest → step s = .refused .windowAccess)

/-- 20_memory.md R81, R76: from the issue of a SHIFT with a valid frequency, or of a VLD or VST, an access from outside
the engine to a byte of its array, or of its 32 bytes, is refused, and one to another byte of sample memory that no
earlier command keeps goes on; the completion of a command does not change that, and a read of STATUS that shows
BUSY = 0 ends it. The list of ranges, and that a reset keeps it, is the model's choice (log 9). -/
def Obligations.ArrayIsClosedUntilCompletionIsRead : Prop :=
  (∀ (s : State) (a : Word64) (x : Byte) (rest : List Input),
    validFreq s.freq = true → a.toNat < s.params.memBytes.val →
    ((s.base.toNat ≤ a.toNat ∧ a.toNat < s.base.toNat + fmtEsz s.fmtT * s.size.toNat) →
      step { s.issue 0x01000000#32 with inputs := .memWrite a x :: rest } = .refused .concurrentAccess ∧
      step { s.issue 0x01000000#32 with inputs := .memRead a :: rest } = .refused .concurrentAccess) ∧
    (s.outsideArray a.toNat → s.isLocked a.toNat = false →
      step { s.issue 0x01000000#32 with inputs := .memWrite a x :: rest } =
        .next { s.issue 0x01000000#32 with inputs := rest, mem := s.mem.write a.toNat x })) ∧
  (∀ (s : State) (i : Instr) (rd : BitVec 4) (imm : BitVec 16) (a : Word64) (x : Byte) (rest : List Input),
    i = .vld rd imm ∨ i = .vst rd imm → s.params.hasVec = true → rd.toNat < 8 → a.toNat < s.params.memBytes.val →
    ((s.base.toNat + 32 * imm.toNat ≤ a.toNat ∧ a.toNat < s.base.toNat + 32 * imm.toNat + 32) →
      step { s.issue (encode i) with inputs := .memWrite a x :: rest } = .refused .concurrentAccess ∧
      step { s.issue (encode i) with inputs := .memRead a :: rest } = .refused .concurrentAccess) ∧
    ((a.toNat < s.base.toNat + 32 * imm.toNat ∨ s.base.toNat + 32 * imm.toNat + 32 ≤ a.toNat) →
      s.isLocked a.toNat = false →
      step { s.issue (encode i) with inputs := .memWrite a x :: rest } =
        .next { s.issue (encode i) with inputs := rest, mem := s.mem.write a.toNat x })) ∧
  (∀ (i : Instr) (s t : State), exec i s = .next t → t.locked = s.locked) ∧
  (∀ (s : State) (rest : List Input), s.status.busy = false → s.inputs = .windowRead 0x010#12 8 :: rest →
    step s = .next { s with inputs := rest, hostData := s.status.word, locked := [] }) ∧
  (∀ (s t : State) (rest : List Input), s.inputs = .reset :: rest → step s = .next t → t.locked = s.locked)

/-- 20_memory.md R61: a byte written from outside the engine reads back, and every other byte is as it was. -/
def Obligations.OutsideWriteChangesOneByte : Prop :=
  ∀ (s : State) (a : Word64) (x : Byte) (rest : List Input),
    s.mem.wf = true → a.toNat < s.params.memBytes.val → s.isLocked a.toNat = false →
    s.inputs = .memWrite a x :: .memRead a :: rest →
    ∃ t u, step s = .next t ∧ step t = .next u ∧ u.hostData = x.setWidth 64 ∧
      (∀ b, b ≠ a.toNat → t.mem.read b = s.mem.read b) ∧
      u = { s with mem := t.mem, inputs := rest, hostData := u.hostData }

/-! Reset. -/

/-- 10_state.md R46, whole: the value of every piece of state after reset, at power-up and after every reset event; with
the engine idle the event always happens and leaves sample memory as it was (with a command running, R303 says what
becomes of the command's bytes: `ResetAbandonsARunningShift`, `ResetAbandonsOtherCommands`). The registers the spec
gives no value are marked as holding none; nothing is said of the free values they have (log 3). -/
def Obligations.ResetLeavesTheTable : Prop :=
  State.reset.AtReset ∧
  (∀ (s : State) (rest : List Input), s.seq = .idle → s.inputs = .reset :: rest →
    ∃ t, step s = .next t ∧ t.AtReset ∧ t.mem = s.mem ∧ t.params = s.params ∧ t.inputs = rest) ∧
  (∀ (s t : State) (rest : List Input), s.inputs = .reset :: rest → step s = .next t →
    t.AtReset ∧ t.params = s.params)

/-- 70_reset_and_hazards.md R303: a reset while a SHIFT with an array in memory runs abandons it: STATUS reads 0, the
registers are reset, each element of the array holds its value at issue or its final value, and every byte outside the
array is unchanged. Which of the two an element holds is a free choice (log 8). -/
def Obligations.ResetAbandonsARunningShift : Prop :=
  ∀ (s f : State) (rest : List Input),
    s.seq = .run 0x01000000#32 → s.inputs = .reset :: rest → validFreq s.freq = true → s.arrayInMemory = true →
    s.mem.wf = true → exec .shift { s with inputs := rest } = .next f →
    ∃ t, step s = .next t ∧ t.status.word = 0#64 ∧ t.seq = .idle ∧ t.size = 0#64 ∧ t.params = s.params ∧
      (∀ i, i < s.size.toNat →
        elemAt s.fmtT t.mem s.base i = elemAt s.fmtT s.mem s.base i ∨
        elemAt s.fmtT t.mem s.base i = elemAt s.fmtT f.mem s.base i) ∧
      (∀ a, s.outsideArray a → t.mem.read a = s.mem.read a)

/-- 70_reset_and_hazards.md R303: a reset while a VLD or VST runs leaves the registers reset and every byte outside the 32
that the command accesses unchanged (the 32 bytes are free, log 8); a reset while a command runs that accesses no memory,
because it is none of SHIFT, VLD and VST, or its word is illegal, or its frequency is invalid, leaves all of sample
memory unchanged. -/
def Obligations.ResetAbandonsOtherCommands : Prop :=
  (∀ (s : State) (i : Instr) (rd : BitVec 4) (imm : BitVec 16) (rest : List Input),
    i = .vld rd imm ∨ i = .vst rd imm → s.params.hasVec = true → rd.toNat < 8 →
    s.base.toNat + 32 * imm.toNat + 32 ≤ s.params.memBytes.val →
    s.seq = .run (encode i) → s.inputs = .reset :: rest →
    ∃ t, step s = .next t ∧ t.AtReset ∧ t.params = s.params ∧
      ∀ a, a < s.base.toNat + 32 * imm.toNat ∨ s.base.toNat + 32 * imm.toNat + 32 ≤ a → t.mem.read a = s.mem.read a) ∧
  (∀ (s : State) (w : BitVec 32) (rest : List Input),
    s.seq = .run w → s.inputs = .reset :: rest →
    ((∃ why, decode s.params.hasVec w = .illegal why) ∨
      (decode s.params.hasVec w = .instr .shift ∧ validFreq s.freq = false) ∨
      (∃ i, decode s.params.hasVec w = .instr i ∧ i ≠ .shift ∧ ∀ rd imm, i ≠ .vld rd imm ∧ i ≠ .vst rd imm)) →
    ∃ t, step s = .next t ∧ t.AtReset ∧ t.params = s.params ∧ t.mem = s.mem)

/-! Faults. -/

/-- 20_memory.md R82, whole: a SHIFT that completes with ERR ≠ 0 leaves sample memory as it was. And with it, from
60_exceptions.md R276: a command that fails with INVALID_FREQ writes STATUS only; SHIFT clears KVEC, TGEN keeps it. -/
def Obligations.InvalidFrequencyWritesStatusOnly : Prop :=
  (∀ s t : State, exec .shift s = .next t → t.status.err ≠ 0#2 → t.mem = s.mem) ∧
  (∀ s : State, validFreq s.freq = false →
    exec .shift s = .next { s with
      seq := .idle, status := { busy := false, done := true, err := 1#2, kvec := false } } ∧
    (s.params.hasVec = true → exec .tgen s = .next { s with
      seq := .idle, status := { busy := false, done := true, err := 1#2, kvec := s.status.kvec } }))

/-- 42_vector_primitives.md R202 a, 30_encoding.md R94, 60_exceptions.md R275: without the vector datapath every
command but SHIFT, and with it every command with a register field above 7, is ILLEGAL_CMD, whatever FREQ holds. That
exec, and not only the decoder, does so is the model's choice (log 11). -/
def Obligations.AbsentOrIllFormedCommandsAreIllegal : Prop :=
  ∀ (i : Instr) (s : State), i ≠ .shift → (s.params.hasVec = false ∨ ¬ WellFormed i) →
    exec i s = .next { s with
      seq := .idle, status := { busy := false, done := true, err := 2#2, kvec := s.status.kvec } }

/-- 40_numerics.md R136, whole: valid_freq is the two comparisons, and is true exactly for +0.0 to the largest F64 below
1 and for −0.0. -/
def Obligations.ValidFrequencyExactly : Prop :=
  ∀ b : Fp .f64,
    validFreq b = (fge b (0x0000000000000000#64 : Fp .f64) && fltLt b (0x3FF0000000000000#64 : Fp .f64)) ∧
    (validFreq b = true ↔ b.toNat ≤ 0x3FEFFFFFFFFFFFFF ∨ b = (0x8000000000000000#64 : Fp .f64))

/-- 20_memory.md R72: SHIFT with a valid frequency, VLD and VST stop exactly when their bytes are not wholly inside
sample memory, on unbounded integers. That a SHIFT of no elements never stops is the model's reading (log 7). -/
def Obligations.RangeStopsExactly : Prop :=
  (∀ s : State, validFreq s.freq = true →
    (exec .shift s = .fault .outsideSampleMemory ↔
      s.size ≠ 0#64 ∧ s.params.memBytes.val < s.base.toNat + fmtEsz s.fmtT * s.size.toNat)) ∧
  (∀ (s : State) (rd : BitVec 4) (imm : BitVec 16), s.params.hasVec = true → rd.toNat < 8 →
    (exec (.vld rd imm) s = .fault .outsideSampleMemory ↔
      s.params.memBytes.val < s.base.toNat + 32 * imm.toNat + 32) ∧
    (exec (.vst rd imm) s = .fault .outsideSampleMemory ↔
      s.params.memBytes.val < s.base.toNat + 32 * imm.toNat + 32))

/-- 70_reset_and_hazards.md R319: every command that has a meaning completes, with BUSY = 0, DONE = 1 and ERR one of 0, 1,
2, and the engine idle. Two of the commands counted as having a meaning are the model's choice and not the spec's: an
array of no elements that lies past sample memory, which 20_memory.md R72 read literally denies a meaning (log 7), and
a command that no word of this build decodes to, which exec completes with ILLEGAL_CMD (log 11). -/
def Obligations.EveryMeaningfulCommandCompletes : Prop :=
  ∀ (i : Instr) (s : State), hasMeaning i s = true →
    ∃ t, exec i s = .next t ∧ t.seq = .idle ∧ t.status.busy = false ∧ t.status.done = true ∧ t.status.err ≠ 3#2

/-- 44_dispatch.md R242: SHIFT sets KVEC to 1 if the vector kernel ran and to 0 if the generic kernel ran or the SHIFT
failed, and no other command writes it; nor does an action of the host but reset (10_state.md R26). -/
def Obligations.OnlyShiftAndResetWriteKvec : Prop :=
  (∀ s t : State, exec .shift s = .next t → t.status.kvec = (validFreq s.freq && s.useVector)) ∧
  (∀ (i : Instr) (s t : State), i ≠ .shift → exec i s = .next t → t.status.kvec = s.status.kvec) ∧
  (∀ (a : Input) (s t : State), a ≠ .engineTurn → a ≠ .reset → runInput a s = .next t →
    t.status.kvec = s.status.kvec)

/-! TGEN and the packed primitives. -/

/-- 42_vector_primitives.md R190, R191: TGEN with a valid frequency writes the four master tones into V[4] and V[5] and
the step into STEP, and nothing else but STATUS. -/
def Obligations.TgenBuildsTonesAndStep : Prop :=
  ∀ s : State, s.params.hasVec = true → validFreq s.freq = true →
    ∃ t, exec .tgen s = .next t ∧
      dCx t.v[4].bits 0 = phasor .f64 (angle .f64 s.freq s.phase 0) ∧
      dCx t.v[4].bits 1 = phasor .f64 (angle .f64 s.freq s.phase 1) ∧
      dCx t.v[5].bits 0 = phasor .f64 (angle .f64 s.freq s.phase 2) ∧
      dCx t.v[5].bits 1 = phasor .f64 (angle .f64 s.freq s.phase 3) ∧
      t.v[4].held = 0xF#4 ∧ t.v[5].held = 0xF#4 ∧
      t.step = { re := (phasor .f64 (stepAngle .f64 s.freq 4)).re, im := (phasor .f64 (stepAngle .f64 s.freq 4)).im,
                 heldRe := true, heldIm := true } ∧
      (∀ r : Fin 8, r ≠ 4 → r ≠ 5 → t.v[r] = s.v[r]) ∧
      t = { s with
        v := t.v, step := t.step, seq := .idle
        status := { busy := false, done := true, err := 0#2, kvec := s.status.kvec } }

/-- 42_vector_primitives.md R193: `N.s[j] = cvt_64_32(A.d[j])`, `N.s[4+j] = cvt_64_32(B.d[j])`, the result VNARROW leaves in
V[d] (R192), and the only change but STATUS. The sources are read before the destination is written (R202 b); a source
that holds no value is read as the free value it has, which is the model's choice (log 3). -/
def Obligations.VnarrowNarrowsEightLanes : Prop :=
  ∀ (s : State) (rd ra rb : BitVec 4), s.params.hasVec = true → rd.toNat < 8 → ra.toNat < 8 → rb.toNat < 8 →
    ∃ t, exec (.vnarrow rd ra rb) s = .next t ∧ s.OnlyWritesV t (vnum rd) ∧
      ∀ j, j < 4 →
        sLane t.v[vnum rd].bits j = cvt6432 (dLane s.v[vnum ra].bits j) ∧
        sLane t.v[vnum rd].bits (4 + j) = cvt6432 (dLane s.v[vnum rb].bits j)

/-- 42_vector_primitives.md R194, R195: VCMUL4S leaves in complex lane k of V[d] the product of the old complex lanes k of
V[d] and V[a], in F32, and changes nothing else but STATUS (log 3 for registers that hold no value). -/
def Obligations.Vcmul4sMultipliesFourLanes : Prop :=
  ∀ (s : State) (rd ra : BitVec 4), s.params.hasVec = true → rd.toNat < 8 → ra.toNat < 8 →
    ∃ t, exec (.vcmul4s rd ra) s = .next t ∧ s.OnlyWritesV t (vnum rd) ∧
      ∀ k, k < 4 →
        ({ re := sLane t.v[vnum rd].bits (2 * k), im := sLane t.v[vnum rd].bits (2 * k + 1) } : Cx .f32) =
          cmul { re := sLane s.v[vnum rd].bits (2 * k), im := sLane s.v[vnum rd].bits (2 * k + 1) }
            { re := sLane s.v[vnum ra].bits (2 * k), im := sLane s.v[vnum ra].bits (2 * k + 1) }

/-- 42_vector_primitives.md R196, R197: VCMUL2D leaves in complex lane k of V[d] the product of the old complex lanes k of
V[d] and V[a], in F64, and changes nothing else but STATUS (log 3 for registers that hold no value). -/
def Obligations.Vcmul2dMultipliesTwoLanes : Prop :=
  ∀ (s : State) (rd ra : BitVec 4), s.params.hasVec = true → rd.toNat < 8 → ra.toNat < 8 →
    ∃ t, exec (.vcmul2d rd ra) s = .next t ∧ s.OnlyWritesV t (vnum rd) ∧
      ∀ k, k < 2 →
        ({ re := dLane t.v[vnum rd].bits (2 * k), im := dLane t.v[vnum rd].bits (2 * k + 1) } : Cx .f64) =
          cmul { re := dLane s.v[vnum rd].bits (2 * k), im := dLane s.v[vnum rd].bits (2 * k + 1) }
            { re := dLane s.v[vnum ra].bits (2 * k), im := dLane s.v[vnum ra].bits (2 * k + 1) }

/-- 42_vector_primitives.md R198, R199: VBCMUL2D leaves in each complex lane of V[d] the product of the old lane and STEP,
in F64, which is cmul2d with STEP in both complex lanes; STEP and everything else but STATUS is unchanged (log 3 for
registers that hold no value). -/
def Obligations.Vbcmul2dMultipliesByStep : Prop :=
  ∀ (s : State) (rd : BitVec 4), s.params.hasVec = true → rd.toNat < 8 →
    ∃ t, exec (.vbcmul2d rd) s = .next t ∧ s.OnlyWritesV t (vnum rd) ∧
      (∀ k, k < 2 →
        ({ re := dLane t.v[vnum rd].bits (2 * k), im := dLane t.v[vnum rd].bits (2 * k + 1) } : Cx .f64) =
          cmul { re := dLane s.v[vnum rd].bits (2 * k), im := dLane s.v[vnum rd].bits (2 * k + 1) }
            { re := s.step.re, im := s.step.im }) ∧
      t.v[vnum rd].bits =
        cmul2d s.v[vnum rd].bits (packD { re := s.step.re, im := s.step.im } { re := s.step.re, im := s.step.im })

/-- 42_vector_primitives.md R203, 40_numerics.md R135: the product is commutative in every bit pattern, NaNs included, and
has the lane-level shape of the packed multiply, `(fsub(ac, bd), fadd(bc, ad))`. -/
def Obligations.ComplexProductCommutes : Prop :=
  ∀ (f : Fmt) (z x : Cx f),
    cmul z x = cmul x z ∧
    cmul z x = { re := fsub (fmul z.re x.re) (fmul z.im x.im), im := fadd (fmul z.im x.re) (fmul z.re x.im) }

/-! Loads and stores. -/

/-- 42_vector_primitives.md R200, 20_memory.md R62, R67: VLD puts the byte at BASE + 32·imm + j into bits 8j+7 to 8j of
V[d], so that lane d[j] is the 8 bytes at 8j and lane s[j] the 4 bytes at 4j; nothing else but STATUS changes, and no
byte of memory. -/
def Obligations.VldLoadsThirtyTwoBytes : Prop :=
  ∀ (s : State) (rd : BitVec 4) (imm : BitVec 16), s.params.hasVec = true → rd.toNat < 8 →
    s.base.toNat + 32 * imm.toNat + 32 ≤ s.params.memBytes.val →
    ∃ t, exec (.vld rd imm) s = .next t ∧ s.OnlyWritesV t (vnum rd) ∧
      (∀ j, j < 32 → t.v[vnum rd].bits.extractLsb' (8 * j) 8 = s.mem.read (s.base.toNat + 32 * imm.toNat + j)) ∧
      (∀ j, j < 4 → (dLane t.v[vnum rd].bits j).toNat = s.mem.readLE (s.base.toNat + 32 * imm.toNat + 8 * j) 8) ∧
      (∀ j, j < 8 → (sLane t.v[vnum rd].bits j).toNat = s.mem.readLE (s.base.toNat + 32 * imm.toNat + 4 * j) 4)

/-- 42_vector_primitives.md R201, 20_memory.md R63: VST makes the byte at BASE + 32·imm + j bits 8j+7 to 8j of V[d]; every
other byte, and everything else but STATUS, is unchanged. The address is the meaning's own, `vecAddr`, and does not wrap.
A register that holds no value is stored as the free value it has (log 3). -/
def Obligations.VstStoresThirtyTwoBytes : Prop :=
  ∀ (s : State) (rd : BitVec 4) (imm : BitVec 16), s.params.hasVec = true → rd.toNat < 8 → s.mem.wf = true →
    s.base.toNat + 32 * imm.toNat + 32 ≤ s.params.memBytes.val →
    ∃ t, exec (.vst rd imm) s = .next t ∧
      vecAddr s.base imm = s.base.toNat + 32 * imm.toNat ∧
      (∀ j, j < 32 → t.mem.read (vecAddr s.base imm + j) = s.v[vnum rd].bits.extractLsb' (8 * j) 8) ∧
      (∀ a, a < vecAddr s.base imm ∨ vecAddr s.base imm + 32 ≤ a → t.mem.read a = s.mem.read a) ∧
      t = { s with
        mem := t.mem, seq := .idle
        status := { busy := false, done := true, err := 0#2, kvec := s.status.kvec } }

/-- 42_vector_primitives.md R201: a VLD then a VST of the same register to the same index leaves memory as it was. -/
def Obligations.LoadThenStoreKeepsMemory : Prop :=
  ∀ (s : State) (rd : BitVec 4) (imm : BitVec 16), s.params.hasVec = true → rd.toNat < 8 → s.mem.wf = true →
    s.base.toNat + 32 * imm.toNat + 32 ≤ s.params.memBytes.val →
    ∃ t, runCommands [.vld rd imm, .vst rd imm] s = .next t ∧ t.mem = s.mem

/-! SHIFT. -/

/-- 41_shift_generic.md R160, 44_dispatch.md R240, R242: a SHIFT with a valid frequency and its array in memory
completes with ERR = 0 and KVEC = use_vector(), and leaves every argument register, the build and the model's own
fields. That an array of no elements may lie past sample memory is the model's reading (log 7). -/
def Obligations.ShiftCompletesAndKeepsArguments : Prop :=
  ∀ s : State, validFreq s.freq = true →
    (s.size = 0#64 ∨ s.base.toNat + fmtEsz s.fmtT * s.size.toNat ≤ s.params.memBytes.val) →
    ∃ t, exec .shift s = .next t ∧
      t = { s with
        step := t.step, v := t.v, tone := t.tone, gstep := t.gstep, idx := t.idx, mem := t.mem, seq := .idle
        status := { busy := false, done := true, err := 0#2, kvec := !s.cfg.getLsbD 2 && s.params.hasVec } }

/-- 41_shift_generic.md R168: a SHIFT of a zero-length array still checks the frequency; if it is valid the tones and the
step are constructed, no byte of memory changes, and the command completes with ERR = 0 (for the generic kernel, which the
rule is about). That it does so wherever BASE points is the model's reading (log 7). -/
def Obligations.EmptyArrayIsANoOpSuccess : Prop :=
  ∀ s : State, s.size = 0#64 →
    (validFreq s.freq = false → ∃ t, exec .shift s = .next t ∧ t.status.err = 1#2 ∧ t.mem = s.mem) ∧
    (validFreq s.freq = true → s.useVector = false →
      ∃ t, exec .shift s = .next t ∧ t.status.err = 0#2 ∧ t.mem = s.mem ∧ t.idx = 0#64 ∧
        (∀ k : Fin 8, k.val < s.unroll →
          t.tone[k] = ToneReg.of s.fmtU (phasor s.fmtU (angle s.fmtU s.freq s.phase k))) ∧
        (∀ k : Fin 8, s.unroll ≤ k.val → t.tone[k] = s.tone[k]) ∧
        t.gstep = ToneReg.of s.fmtU (phasor s.fmtU (stepAngle s.fmtU s.freq s.unroll)))

/-- 41_shift_generic.md R167, whole: the effect and the final state of the generic kernel, for an array inside sample
memory (20_memory.md R72). -/
def Obligations.GenericKernelEffect : Prop :=
  ∀ s : State, validFreq s.freq = true →
    s.base.toNat + fmtEsz s.fmtT * s.size.toNat ≤ s.params.memBytes.val →
    s.useVector = false → s.mem.wf = true →
    ∃ t, exec .shift s = .next t ∧
      (∀ i, i < s.size.toNat →
        elemAt s.fmtT t.mem s.base i =
          cmul (elemAt s.fmtT s.mem s.base i)
            (cvtTone s.fmtU s.fmtT (toneAt s.fmtU s.freq s.phase s.unroll (i % s.unroll) (i / s.unroll)))) ∧
      (∀ a, s.outsideArray a → t.mem.read a = s.mem.read a) ∧
      t.idx.toNat = s.blocks * s.unroll ∧
      t.gstep = ToneReg.of s.fmtU (phasor s.fmtU (stepAngle s.fmtU s.freq s.unroll)) ∧
      (∀ k : Fin 8, t.tone[k] =
        if k.val < s.unroll then ToneReg.of s.fmtU (toneAt s.fmtU s.freq s.phase s.unroll k (s.blocks - 1))
        else s.tone[k]) ∧
      t = { s with
        tone := t.tone, gstep := t.gstep, idx := t.idx, mem := t.mem, seq := .idle
        status := { busy := false, done := true, err := 0#2, kvec := false } }

/-- 43_vector_kernel.md R227: the effect of the vector kernel on the array, IDX, the master tones and STEP, and that
V[0] to V[3], TONE, GSTEP and every other register are unchanged. That an array of no elements may lie past sample
memory is the model's reading (log 7). -/
def Obligations.VectorKernelEffect : Prop :=
  ∀ s : State, validFreq s.freq = true → s.arrayInMemory = true → s.useVector = true → s.mem.wf = true →
    ∃ t, exec .shift s = .next t ∧
      (∀ i, i < s.size.toNat →
        elemAt s.fmtT t.mem s.base i =
          cmul (elemAt s.fmtT s.mem s.base i)
            (cvtTone .f64 s.fmtT (toneAt .f64 s.freq s.phase 4 (i % 4) (i / 4)))) ∧
      (∀ a, s.outsideArray a → t.mem.read a = s.mem.read a) ∧
      t.idx.toNat = 4 * (s.size.toNat / 4) ∧
      dCx t.v[4].bits 0 = toneAt .f64 s.freq s.phase 4 0 (s.size.toNat / 4) ∧
      dCx t.v[4].bits 1 = toneAt .f64 s.freq s.phase 4 1 (s.size.toNat / 4) ∧
      dCx t.v[5].bits 0 = toneAt .f64 s.freq s.phase 4 2 (s.size.toNat / 4) ∧
      dCx t.v[5].bits 1 = toneAt .f64 s.freq s.phase 4 3 (s.size.toNat / 4) ∧
      t.step = { re := (phasor .f64 (stepAngle .f64 s.freq 4)).re, im := (phasor .f64 (stepAngle .f64 s.freq 4)).im,
                 heldRe := true, heldIm := true } ∧
      (∀ r : Fin 8, r.val < 4 → t.v[r] = s.v[r]) ∧
      t = { s with
        step := t.step, v := t.v, idx := t.idx, mem := t.mem, seq := .idle
        status := { busy := false, done := true, err := 0#2, kvec := true } }

/-- 43_vector_kernel.md R227: what the vector kernel leaves in V[6] and V[7]. That an array of no elements may lie past
sample memory is the model's reading (log 7). -/
def Obligations.VectorKernelScratchRegisters : Prop :=
  ∀ s : State, validFreq s.freq = true → s.arrayInMemory = true → s.useVector = true → s.mem.wf = true →
    ∃ t, exec .shift s = .next t ∧
      (s.fmtT = .f32 → s.size.toNat % 4 ≠ 0 → ∀ k, k < 4 →
        sCx t.v[6].bits k = cvtTone .f64 .f32 (toneAt .f64 s.freq s.phase 4 k (s.size.toNat / 4))) ∧
      (s.fmtT = .f32 → s.size.toNat % 4 = 0 → 4 ≤ s.size.toNat → ∀ k, k < 4 →
        sCx t.v[6].bits k = cvtTone .f64 .f32 (toneAt .f64 s.freq s.phase 4 k (s.size.toNat / 4 - 1))) ∧
      (s.fmtT = .f64 ∨ s.size = 0#64 → t.v[6] = s.v[6]) ∧
      (s.size.toNat < 4 → t.v[7] = s.v[7]) ∧
      (s.fmtT = .f32 → 4 ≤ s.size.toNat →
        t.v[7] = { bits := memReadV t.mem (elemAddr .f32 s.base (4 * (s.size.toNat / 4) - 4)), held := 0xF#4 }) ∧
      (s.fmtT = .f64 → 4 ≤ s.size.toNat →
        t.v[7] = { bits := memReadV t.mem (elemAddr .f64 s.base (4 * (s.size.toNat / 4) - 2)), held := 0xF#4 })

/-- 43_vector_kernel.md R228: the vector kernel and the generic kernel with U = F64 and UNROLL_SIZE = 4 leave the same
sample memory, for either T. That an array of no elements may lie past sample memory is the model's reading (log 7).
-/
def Obligations.KernelsAgreeOnTheArray : Prop :=
  ∀ s s' : State, s.useVector = true → s'.useVector = false → s'.fmtU = .f64 → s'.unroll = 4 →
    s'.fmtT = s.fmtT → s'.base = s.base → s'.size = s.size → s'.freq = s.freq → s'.phase = s.phase →
    s'.mem = s.mem → s.mem.wf = true → validFreq s.freq = true → s.arrayInMemory = true → s'.arrayInMemory = true →
    ∃ t t', exec .shift s = .next t ∧ exec .shift s' = .next t' ∧ t.mem = t'.mem

/-- 20_memory.md R77: a SHIFT, whichever kernel it runs, changes no byte outside its array; TGEN and the register
primitives, and VLD, change no byte at all (R69). -/
def Obligations.NoByteOutsideTheArrayChanges : Prop :=
  (∀ (s t : State), exec .shift s = .next t → ∀ a, s.outsideArray a → t.mem.read a = s.mem.read a) ∧
  (∀ (i : Instr) (s t : State), i ≠ .shift → (∀ rd imm, i ≠ .vst rd imm) → exec i s = .next t → t.mem = s.mem)

/-- 10_state.md R47: no SHIFT uses a tone, a step or a vector register that an earlier command left: two states that
agree on the build, the arguments and sample memory have SHIFTs that leave the same sample memory, IDX and STATUS but
for what is not SHIFT's. That an array of no elements may lie past sample memory is the model's reading (log 7). -/
def Obligations.ShiftUsesNothingLeftBehind : Prop :=
  ∀ s s' : State, s'.params = s.params → s'.cfg = s.cfg → s'.base = s.base → s'.size = s.size → s'.freq = s.freq →
    s'.phase = s.phase → s'.mem = s.mem → validFreq s.freq = true → s.arrayInMemory = true →
    ∃ t t', exec .shift s = .next t ∧ exec .shift s' = .next t' ∧
      t'.mem = t.mem ∧ t'.idx = t.idx ∧ t'.status = t.status ∧
      (s.useVector = true → t'.step = t.step ∧ t'.v[4] = t.v[4] ∧ t'.v[5] = t.v[5]) ∧
      (s.useVector = false → t'.gstep = t.gstep ∧ ∀ k : Fin 8, k.val < s.unroll → t'.tone[k] = t.tone[k])

/-- 10_state.md R38 and R35: a generic SHIFT leaves STEP and every V[r], a vector SHIFT leaves TONE and GSTEP, and neither
SHIFT nor TGEN writes V[0] to V[3]. -/
def Obligations.KernelsKeepEachOthersRegisters : Prop :=
  (∀ s t : State, exec .shift s = .next t → s.useVector = false → t.v = s.v ∧ t.step = s.step) ∧
  (∀ s t : State, exec .shift s = .next t → s.useVector = true → t.tone = s.tone ∧ t.gstep = s.gstep) ∧
  (∀ (i : Instr) (s t : State), i = .shift ∨ i = .tgen → exec i s = .next t →
    ∀ r : Fin 8, r.val < 4 → t.v[r] = s.v[r])

/-- 43_vector_kernel.md R222, 42_vector_primitives.md R190 to R201: one 32-bit block built from the commands is the SHIFT of
four elements, in memory, V[4] to V[7] and STEP. -/
def Obligations.PrimitivesBuildOneBlock32 : Prop :=
  ∀ s : State, s.useVector = true → s.fmtT = .f32 → s.size = 4#64 → validFreq s.freq = true →
    s.base.toNat + 32 ≤ s.params.memBytes.val →
    ∃ t u, exec .shift s = .next t ∧
      runCommands [.tgen, .vld 7 0, .vnarrow 6 4 5, .vcmul4s 7 6, .vst 7 0, .vbcmul2d 4, .vbcmul2d 5] s = .next u ∧
      t.mem = u.mem ∧ t.v = u.v ∧ t.step = u.step

/-- 43_vector_kernel.md R225, 42_vector_primitives.md R190 to R201: one 64-bit block built from the commands is the SHIFT of
four elements, in memory, V[4], V[5], V[7] and STEP, and neither writes V[6]. -/
def Obligations.PrimitivesBuildOneBlock64 : Prop :=
  ∀ s : State, s.useVector = true → s.fmtT = .f64 → s.size = 4#64 → validFreq s.freq = true →
    s.base.toNat + 64 ≤ s.params.memBytes.val →
    ∃ t u, exec .shift s = .next t ∧
      runCommands [.tgen, .vld 7 0, .vcmul2d 7 4, .vst 7 0, .vld 7 1, .vcmul2d 7 5, .vst 7 1, .vbcmul2d 4, .vbcmul2d 5]
        s = .next u ∧
      t.mem = u.mem ∧ t.v = u.v ∧ t.step = u.step

/-- 45_contract_properties.md R254: with FREQ = +0 and PHASE = +0 every element is multiplied by (1, +0), in both
kernels and for every T, U and UNROLL_SIZE. That an array of no elements may lie past sample memory is the model's
reading (log 7). -/
def Obligations.ZeroShiftMultipliesByOne : Prop :=
  ∀ s : State, s.freq = 0#64 → s.phase = 0#64 → s.arrayInMemory = true → s.mem.wf = true →
    ∃ t, exec .shift s = .next t ∧ t.status.err = 0#2 ∧
      ∀ i, i < s.size.toNat →
        elemAt s.fmtT t.mem s.base i =
          cmul (elemAt s.fmtT s.mem s.base i) { re := fpOne s.fmtT, im := fpPack s.fmtT false 0 }

/-! Numerics. -/

/-- 40_numerics.md R142, 45_contract_properties.md R254: multiplying by the tone (1, +0) leaves a value whose parts are
finite and nonzero as it is, bit for bit; a -0 real part with a negative imaginary part becomes +0. -/
def Obligations.UnitToneKeepsFiniteValues : Prop :=
  (∀ (f : Fmt) (a b : Fp f), fpMag a < fmtInfMag f → fpMag b < fmtInfMag f → fpMag a ≠ 0 → fpMag b ≠ 0 →
    cmul { re := a, im := b } { re := fpOne f, im := fpPack f false 0 } = { re := a, im := b }) ∧
  (∀ (f : Fmt) (b : Fp f), fpMag b < fmtInfMag f → fpMag b ≠ 0 → fpNeg b = true →
    cmul { re := fpPack f true 0, im := b } { re := fpOne f, im := fpPack f false 0 } =
      { re := fpPack f false 0, im := b })

/-- 40_numerics.md R124: the rounding that every operation ends in gives the nearest magnitude of the format, ties to
even, and infinity exactly where the rounded magnitude would reach the format's end. -/
def Obligations.RoundingIsNearestTiesToEven : Prop :=
  ∀ (f : Fmt) (m q : Nat), NearestEven f m q (fpRound f m q)

/-- 40_numerics.md R124, R127: sums, differences and products of finite patterns and the narrowing conversion are the
exact result rounded once: the sign of a nonzero sum or difference is the exact one's, of a product the exclusive-or,
the magnitude the nearest, ties to even. Exact zeros are in `SpecialValuesOfArithmetic`. -/
def Obligations.ArithmeticIsCorrectlyRounded : Prop :=
  (∀ (f : Fmt) (a b : Fp f), fpMag a < fmtInfMag f → fpMag b < fmtInfMag f →
    (fpInt a + fpInt b ≠ 0 → fpNeg (fadd a b) = decide (fpInt a + fpInt b < 0)) ∧
    NearestEven f (fpInt a + fpInt b).natAbs 0 (fpMag (fadd a b)) ∧
    (fpInt a - fpInt b ≠ 0 → fpNeg (fsub a b) = decide (fpInt a - fpInt b < 0)) ∧
    NearestEven f (fpInt a - fpInt b).natAbs 0 (fpMag (fsub a b)) ∧
    fpNeg (fmul a b) = (fpNeg a ^^ fpNeg b) ∧
    NearestEven f (fpUnits a * fpUnits b) (fmtUnitExp f) (fpMag (fmul a b))) ∧
  (∀ a : Fp .f64, fpMag a < fmtInfMag .f64 →
    fpNeg (f := .f32) (cvt6432 a) = fpNeg a ∧
    NearestEven .f32 (fpUnits a) 925 (fpMag (f := .f32) (cvt6432 a)))

/-- 40_numerics.md R124 c to g: fsub as fadd of the operand with its sign bit changed, zero sums, differences and
products, infinities, and NaNs; every NaN an operation returns is the one quiet pattern of its format. The quiet bit is
40_numerics.md R122's. -/
def Obligations.SpecialValuesOfArithmetic : Prop :=
  (∀ f : Fmt, fpIsNaN (qnan f) = true ∧ fmtInfMag f + 2 ^ (fmtFrac f - 1) ≤ fpMag (qnan f)) ∧
  (∀ (f : Fmt) (a b : Fp f), fsub a b = fadd a (b ^^^ BitVec.ofNat f.width (2 ^ (f.width - 1)))) ∧
  (∀ (f : Fmt) (a b : Fp f), fpIsNaN a = true ∨ fpIsNaN b = true →
    fadd a b = qnan f ∧ fsub a b = qnan f ∧ fmul a b = qnan f) ∧
  (∀ (f : Fmt) (a b : Fp f), fpIsInf a = true → fpIsInf b = true →
    fadd a b = (if fpNeg a = fpNeg b then a else qnan f) ∧
    fsub a b = (if fpNeg a = fpNeg b then qnan f else a) ∧
    fmul a b = fpPack f (fpNeg a ^^ fpNeg b) (fmtInfMag f)) ∧
  (∀ (f : Fmt) (a b : Fp f), fpIsInf a = true → fpMag b < fmtInfMag f →
    fadd a b = a ∧ fadd b a = a ∧ fsub a b = a ∧ fsub b a = fpPack f (!fpNeg a) (fmtInfMag f) ∧
    fmul a b = (if fpIsZero b then qnan f else fpPack f (fpNeg a ^^ fpNeg b) (fmtInfMag f)) ∧ fmul b a = fmul a b) ∧
  (∀ (f : Fmt) (a b : Fp f), fpMag a < fmtInfMag f → fpMag b < fmtInfMag f →
    (fpInt a + fpInt b = 0 → fadd a b = fpPack f (fpNeg a && fpNeg b) 0) ∧
    (fpInt a - fpInt b = 0 → fsub a b = fpPack f (fpNeg a && !fpNeg b) 0)) ∧
  (∀ (f : Fmt) (a b : Fp f), fpIsZero a = true → fpMag b < fmtInfMag f →
    fmul a b = fpPack f (fpNeg a ^^ fpNeg b) 0)

/-- 40_numerics.md R127: the ends of the narrowing conversion. From 2^128 − 2^103 up it gives infinity, just below that
the largest finite F32, up to 2^−150 a zero, each with the operand's sign, and for a NaN QNAN32. -/
def Obligations.NarrowingEnds : Prop :=
  ∀ a : Fp .f64,
    (0x7FF0000000000000 < fpMag a → cvt6432 a = qnan .f32) ∧
    (0x47EFFFFFF0000000 ≤ fpMag a → fpMag a ≤ 0x7FF0000000000000 → cvt6432 a = fpPack .f32 (fpNeg a) 0x7F800000) ∧
    (fpMag a = 0x47EFFFFFEFFFFFFF → cvt6432 a = fpPack .f32 (fpNeg a) 0x7F7FFFFF) ∧
    (fpMag a ≤ 0x3690000000000000 → cvt6432 a = fpPack .f32 (fpNeg a) 0)

/-- 40_numerics.md R128: the widening conversion keeps every value exactly, subnormals and the sign of a zero included,
so that narrowing gives the pattern back; infinities keep their sign, a NaN gives QNAN64. -/
def Obligations.WideningIsExact : Prop :=
  ∀ a : Fp .f32,
    (fpIsNaN a = true → cvt3264 a = qnan .f64) ∧
    (fpIsNaN a = false → cvt6432 (cvt3264 a) = a ∧ fpNeg (f := .f64) (cvt3264 a) = fpNeg a) ∧
    (fpIsInf a = true → cvt3264 a = fpPack .f64 (fpNeg a) 0x7FF0000000000000) ∧
    (fpMag a < 0x7F800000 → fpInt (f := .f64) (cvt3264 a) = fpInt a * 2 ^ 925)

/-! Accuracy. -/

/-- 45_contract_properties.md R250, with R256 a: under TrigCR for the angles the SHIFT uses, every element ends as the
initial element turned by `2π·freq·i + startPhase`, within a relative tolerance that grows with the block advances
(`shiftTolerance`) and the smallest values of the format; an element of at most a quarter of the format's end stays
finite. In double precision the tolerance is at most 1e-9 for arrays of 1e5 elements, the spec's example, and 2.5e-7 for
1e8, where the spec's example, unaudited, says about 1e-7. The model's choices in it: the tolerance's figures (log 18),
the complex magnitude as the norm of the error (log 20), and for the two double-precision figures a start phase of at most
10^6 in magnitude, a bound that the spec's examples do not name (log 21). -/
def Obligations.ShiftTurnsEveryElement : Prop :=
  (∀ s : State, s.InContract →
    ∃ t, exec .shift s = .next t ∧ t.status.err = 0#2 ∧
      ∀ i, i < s.size.toNat →
        (cxModerate (elemAt s.fmtT s.mem s.base i) → cxFinite (elemAt s.fmtT t.mem s.base i)) ∧
        (cxFinite (elemAt s.fmtT t.mem s.base i) →
          cxNear (elemAt s.fmtT t.mem s.base i) (cxVal (elemAt s.fmtT s.mem s.base i)) (s.exactAngle i)
            (s.tolerance i : ℚ) (underflowTolerance s.fmtT : ℚ))) ∧
  (∀ (s : State) (i : Nat), s.kernelU = .f64 → s.fmtT = .f64 → |fpVal (f := .f64) s.phase| ≤ 10 ^ 6 → i < s.size.toNat →
    (s.size.toNat ≤ 10 ^ 5 → s.tolerance i ≤ 1 / 10 ^ 9) ∧ (s.size.toNat ≤ 10 ^ 8 → s.tolerance i ≤ 25 / 10 ^ 8))

/-- 45_contract_properties.md R251: every element of a SHIFT, the tail's included, agrees with what a generic SHIFT with
UNROLL_SIZE = 1 gives for the same arguments, within the two tolerances (log 18) in the norm of log 20; TrigCR for the angles of both. -/
def Obligations.TailMatchesBlockSizeOne : Prop :=
  ∀ s s' : State, s.InContract → s'.InContract → s'.useVector = false → s'.unroll = 1 →
    s'.fmtT = s.fmtT → s'.base = s.base → s'.size = s.size → s'.freq = s.freq → s'.phase = s.phase → s'.mem = s.mem →
    ∃ t t', exec .shift s = .next t ∧ exec .shift s' = .next t' ∧
      ∀ i, i < s.size.toNat →
        (cxModerate (elemAt s.fmtT s.mem s.base i) →
          cxFinite (elemAt s.fmtT t.mem s.base i) ∧ cxFinite (elemAt s.fmtT t'.mem s.base i)) ∧
        (cxFinite (elemAt s.fmtT t.mem s.base i) → cxFinite (elemAt s.fmtT t'.mem s.base i) →
          ‖cxVal (elemAt s.fmtT t.mem s.base i) - cxVal (elemAt s.fmtT t'.mem s.base i)‖ ≤
            ((s.tolerance i + s'.tolerance i : ℚ) : ℝ) * ‖cxVal (elemAt s.fmtT s.mem s.base i)‖ +
              ((2 * underflowTolerance s.fmtT : ℚ) : ℝ))

/-- 45_contract_properties.md R255: two SHIFTs in sequence with (f₁, φ₁) and (f₂, φ₂) leave what one SHIFT with (f₃, φ₃)
leaves, within the accumulated tolerances (log 18, in the norm of log 20), and the distance of f₃ from (f₁ + f₂) mod 1, turned over i elements,
and of φ₃ from φ₁ + φ₂, which a host that rounds them in F64 brings in; TrigCR for the angles of all three. -/
def Obligations.ShiftsCompose : Prop :=
  ∀ (s₁ t₁ s₂ s₃ : State) (f₂ φ₂ f₃ φ₃ : Word64),
    s₁.InContract → exec .shift s₁ = .next t₁ →
    s₂ = { t₁ with freq := f₂, phase := φ₂ } → s₂.InContract →
    s₃ = { s₁ with freq := f₃, phase := φ₃ } → s₃.InContract →
    ∃ t₂ t₃, exec .shift s₂ = .next t₂ ∧ exec .shift s₃ = .next t₃ ∧
      ∀ i, i < s₁.size.toNat →
        cxFinite (elemAt s₁.fmtT t₂.mem s₁.base i) → cxFinite (elemAt s₁.fmtT t₃.mem s₁.base i) →
        ‖cxVal (elemAt s₁.fmtT t₂.mem s₁.base i) - cxVal (elemAt s₁.fmtT t₃.mem s₁.base i)‖ ≤
          (((s₁.tolerance i + s₂.tolerance i + s₁.tolerance i * s₂.tolerance i + s₃.tolerance i : ℚ) : ℝ) +
            2 * Real.pi * i * ((|Int.fract (fpVal (f := .f64) s₁.freq + fpVal (f := .f64) f₂) - fpVal (f := .f64) f₃| : ℚ) : ℝ) +
            ((|fpVal (f := .f64) s₁.phase + fpVal (f := .f64) φ₂ - fpVal (f := .f64) φ₃| : ℚ) : ℝ)) *
              ‖cxVal (elemAt s₁.fmtT s₁.mem s₁.base i)‖ +
            (((3 + s₂.tolerance i) * underflowTolerance s₁.fmtT : ℚ) : ℝ)

/-! Invariants of every step. -/

/-- 10_state.md R25, R26, R41: every step keeps STATUS and SEQ in agreement. -/
def Obligations.StepKeepsStatusAndSeqAgreeing : Prop :=
  ∀ s t : State, s.StatusInv → step s = .next t → t.StatusInv

/-- 10_state.md R27, R28, R43: every step keeps the reserved bits of CFG and BASE at 0. -/
def Obligations.StepKeepsReservedBitsZero : Prop :=
  ∀ s t : State, s.ReservedInv → step s = .next t → t.ReservedInv

/-- 20_memory.md R61: every step keeps sample memory in its canonical form and inside MEM_BYTES. -/
def Obligations.StepKeepsMemoryCanonical : Prop :=
  ∀ s t : State, s.MemoryInv → step s = .next t → t.MemoryInv

/-- The state after reset meets the three invariants (10_state.md R46). The build of State.reset is
the model's choice (log 1); its sample memory has the free content of power-up (log 4). -/
def Obligations.ResetMeetsTheInvariants : Prop :=
  State.reset.StatusInv ∧ State.reset.ReservedInv ∧ State.reset.MemoryInv

/-- 10_state.md R44: the build parameters are fixed: no step changes them. -/
def Obligations.NoStepChangesTheBuild : Prop :=
  ∀ s t : State, step s = .next t → t.params = s.params

/-- 60_exceptions.md R285, 10_state.md R41: an idle engine does nothing: with no pending action of the outside world
the state stays as it is. The list of pending actions is the model's (log 5). -/
def Obligations.IdleEngineDoesNothing : Prop :=
  ∀ s : State, s.seq = .idle →
    (s.inputs = [] → step s = .next s) ∧
    (∀ rest, s.inputs = .engineTurn :: rest → step s = .next { s with inputs := rest })
end

