-- ==== Sys2Proof/Laws/Float.lean ====
section
/-! SUPPORT. The laws of the floating-point formats: patterns as sign and magnitude, the values of magnitudes in units, and
the rounding of 40_numerics.md R124 as the nearest magnitude, ties to even. -/

namespace Sys2Proof.Machine

/-! Sign and magnitude. -/

theorem fpMag_lt {f : Fmt} (b : Fp f) : fpMag b < 2 ^ (f.width - 1) := Nat.mod_lt _ (Nat.two_pow_pos _)

theorem two_pow_width (f : Fmt) : 2 ^ f.width = 2 * 2 ^ (f.width - 1) := by cases f <;> decide

theorem fpNeg_eq {f : Fmt} (b : Fp f) : fpNeg b = decide (2 ^ (f.width - 1) ≤ b.toNat) := by
  cases f <;> exact BitVec.msb_eq_decide _

theorem toNat_eq {f : Fmt} (b : Fp f) : b.toNat = (if fpNeg b then 2 ^ (f.width - 1) else 0) + fpMag b := by
  have h1 := b.isLt
  have h2 := two_pow_width f
  rw [fpNeg_eq, fpMag]
  by_cases h : 2 ^ (f.width - 1) ≤ b.toNat
  · rw [if_pos (by simpa using h), Nat.mod_eq_sub_mod h, Nat.mod_eq_of_lt (by omega)]; omega
  · rw [if_neg (by simpa using h), Nat.mod_eq_of_lt (by omega)]; omega

theorem toNat_fpPack {f : Fmt} {n : Bool} {x : Nat} (h : x < 2 ^ (f.width - 1)) :
    (fpPack f n x).toNat = (if n then 2 ^ (f.width - 1) else 0) + x := by
  have h2 := two_pow_width f
  rw [fpPack, BitVec.toNat_ofNat]
  cases n
  · rw [Nat.mod_eq_of_lt (by simp; omega)]; simp
  · rw [Nat.mod_eq_of_lt (by simp; omega)]; simp

theorem fpMag_fpPack {f : Fmt} {n : Bool} {x : Nat} (h : x < 2 ^ (f.width - 1)) : fpMag (fpPack f n x) = x := by
  rw [fpMag, toNat_fpPack h]
  cases n
  · simp [Nat.mod_eq_of_lt h]
  · simp [Nat.mod_eq_of_lt h]

theorem fpNeg_fpPack {f : Fmt} {n : Bool} {x : Nat} (h : x < 2 ^ (f.width - 1)) : fpNeg (fpPack f n x) = n := by
  rw [fpNeg_eq, toNat_fpPack h]
  cases n
  · simp; omega
  · simp

theorem fp_ext {f : Fmt} {a b : Fp f} (hn : fpNeg a = fpNeg b) (hm : fpMag a = fpMag b) : a = b :=
  BitVec.eq_of_toNat_eq (by rw [toNat_eq a, toNat_eq b, hn, hm])

/-- A pattern is its sign and its magnitude. -/
theorem fpPack_self {f : Fmt} (b : Fp f) : fpPack f (fpNeg b) (fpMag b) = b :=
  fp_ext (fpNeg_fpPack (fpMag_lt b)) (fpMag_fpPack (fpMag_lt b))

theorem fmtInfMag_lt (f : Fmt) : fmtInfMag f < 2 ^ (f.width - 1) := by cases f <;> decide

theorem fpRound_le (f : Fmt) (m q : Nat) : fpRound f m q ≤ fmtInfMag f := Nat.min_le_left _ _

theorem fpRound_lt (f : Fmt) (m q : Nat) : fpRound f m q < 2 ^ (f.width - 1) :=
  Nat.lt_of_le_of_lt (fpRound_le f m q) (fmtInfMag_lt f)

/-! The values of magnitudes. -/

theorem fpUnitsOf_small {f : Fmt} {x : Nat} (h : x < 2 ^ fmtFrac f) : fpUnitsOf f x = x := by
  rw [fpUnitsOf, if_pos (Nat.div_eq_of_lt h)]

/-- The value of the magnitude d·2^(p−1) + s, for a significand s of p bits that is normal when d is not 0. -/
theorem fpUnitsOf_scaled {f : Fmt} {d s : Nat} (h1 : s ≤ 2 * 2 ^ fmtFrac f) (h2 : d = 0 ∨ 2 ^ fmtFrac f ≤ s) :
    fpUnitsOf f (d * 2 ^ fmtFrac f + s) = s * 2 ^ d := by
  have hP : 0 < 2 ^ fmtFrac f := Nat.two_pow_pos _
  generalize hPd : 2 ^ fmtFrac f = P at *
  rw [fpUnitsOf, hPd]
  by_cases hs : s < P
  · have hd : d = 0 := by omega
    subst hd
    simp [Nat.div_eq_of_lt hs]
  · by_cases hs2 : s = 2 * P
    · subst hs2
      have e : d * P + 2 * P = (d + 2) * P := by rw [Nat.add_mul]
      rw [e, Nat.mul_div_cancel _ hP, Nat.mul_mod_left, if_neg (by omega), Nat.add_zero,
        show d + 2 - 1 = d + 1 by omega, Nat.pow_succ, ← Nat.mul_assoc, Nat.mul_right_comm, Nat.mul_comm P 2]
    · obtain ⟨t, rfl⟩ : ∃ t, s = P + t := ⟨s - P, by omega⟩
      have e : d * P + (P + t) = P * (d + 1) + t := by rw [Nat.mul_add, Nat.mul_comm]; omega
      rw [e, Nat.mul_add_div hP, Nat.div_eq_of_lt (by omega), Nat.mul_add_mod, Nat.mod_eq_of_lt (by omega),
        if_neg (by omega)]
      simp

/-- The value of the next magnitude. -/
theorem fpUnitsOf_succ (f : Fmt) (x : Nat) : fpUnitsOf f (x + 1) = fpUnitsOf f x + 2 ^ (x / 2 ^ fmtFrac f - 1) := by
  have hP : 0 < 2 ^ fmtFrac f := Nat.two_pow_pos _
  have hdm := Nat.div_add_mod x (2 ^ fmtFrac f)
  have hlt := Nat.mod_lt x hP
  by_cases h : x < 2 ^ fmtFrac f
  · have h0 : x / 2 ^ fmtFrac f = 0 := Nat.div_eq_of_lt h
    have := fpUnitsOf_scaled (f := f) (d := 0) (s := x + 1) (by omega) (.inl rfl)
    rw [Nat.zero_mul, Nat.zero_add, Nat.pow_zero, Nat.mul_one] at this
    rw [this, fpUnitsOf_small h, h0]; simp
  · have hx : 1 ≤ x / 2 ^ fmtFrac f := Nat.div_pos (by omega) hP
    obtain ⟨d, hd⟩ : ∃ d, x / 2 ^ fmtFrac f = d + 1 := ⟨x / 2 ^ fmtFrac f - 1, by omega⟩
    generalize x % 2 ^ fmtFrac f = t at *
    rw [hd, Nat.mul_add, Nat.mul_one, Nat.mul_comm] at hdm
    have e1 : x = d * 2 ^ fmtFrac f + (2 ^ fmtFrac f + t) := by omega
    have e2 : x + 1 = d * 2 ^ fmtFrac f + (2 ^ fmtFrac f + t + 1) := by omega
    rw [hd, e2, fpUnitsOf_scaled (by omega) (.inr (by omega)), Nat.add_sub_cancel]
    conv_rhs => rw [e1]
    rw [fpUnitsOf_scaled (by omega) (.inr (by omega)), Nat.add_mul (2 ^ fmtFrac f + t) 1, Nat.one_mul]

theorem fpUnitsOf_lt_succ (f : Fmt) (x : Nat) : fpUnitsOf f x < fpUnitsOf f (x + 1) := by
  rw [fpUnitsOf_succ]; exact Nat.lt_add_of_pos_right (Nat.two_pow_pos _)

theorem fpUnitsOf_strictMono (f : Fmt) : StrictMono (fpUnitsOf f) := strictMono_nat_of_lt_succ (fpUnitsOf_lt_succ f)

theorem fpUnitsOf_lt_iff {f : Fmt} {x y : Nat} : fpUnitsOf f x < fpUnitsOf f y ↔ x < y := (fpUnitsOf_strictMono f).lt_iff_lt
theorem fpUnitsOf_le_iff {f : Fmt} {x y : Nat} : fpUnitsOf f x ≤ fpUnitsOf f y ↔ x ≤ y := (fpUnitsOf_strictMono f).le_iff_le
theorem fpUnitsOf_inj {f : Fmt} {x y : Nat} : fpUnitsOf f x = fpUnitsOf f y ↔ x = y := (fpUnitsOf_strictMono f).injective.eq_iff

@[simp] theorem fpUnitsOf_zero (f : Fmt) : fpUnitsOf f 0 = 0 := fpUnitsOf_small (Nat.two_pow_pos _)

theorem fpUnitsOf_eq_zero {f : Fmt} {x : Nat} : fpUnitsOf f x = 0 ↔ x = 0 := by
  conv_lhs => rw [← fpUnitsOf_zero f]
  exact fpUnitsOf_inj

/-! Rounding. -/

/-- The quotient rounded to nearest: within half a unit, and even on a tie. -/
theorem rneShift_spec (m d : Nat) :
    (2 * m ≤ 2 * (rneShift m d * 2 ^ d) + 2 ^ d ∧ 2 * (rneShift m d * 2 ^ d) ≤ 2 * m + 2 ^ d) ∧
      (2 * m = 2 * (rneShift m d * 2 ^ d) + 2 ^ d ∨ 2 * (rneShift m d * 2 ^ d) = 2 * m + 2 ^ d → rneShift m d % 2 = 0) ∧
      (rneShift m d = m / 2 ^ d ∨ rneShift m d = m / 2 ^ d + 1) := by
  have hP : 0 < 2 ^ d := Nat.two_pow_pos d
  have hdm := Nat.div_add_mod m (2 ^ d)
  have hlt := Nat.mod_lt m hP
  rw [Nat.mul_comm] at hdm
  unfold rneShift
  generalize m % 2 ^ d = t at *
  generalize m / 2 ^ d = k at *
  generalize 2 ^ d = P at *
  split
  · have e : (k + 1) * P = k * P + P := by rw [Nat.add_mul, Nat.one_mul]
    rw [e]; omega
  · omega

/-- The magnitude before the format's end is looked at. -/
def fpRoundRaw (f : Fmt) (m q : Nat) : Nat :=
  (max q (Nat.log2 m - fmtFrac f) - q) * 2 ^ fmtFrac f + rneShift m (max q (Nat.log2 m - fmtFrac f))

theorem fpRound_eq_min (f : Fmt) (m q : Nat) : fpRound f m q = min (fmtInfMag f) (fpRoundRaw f m q) := rfl

/-- The grid around a rounded value: `D` is the spacing in 2^−q units. -/
theorem fpRoundRaw_spec (f : Fmt) (m q : Nat) : ∃ D V : Nat,
    V = 2 ^ q * fpUnitsOf f (fpRoundRaw f m q) ∧ 2 * m ≤ 2 * V + D ∧ 2 * V ≤ 2 * m + D ∧ 0 < D ∧
    (2 * m = 2 * V + D ∨ 2 * V = 2 * m + D → fpRoundRaw f m q % 2 = 0) ∧
    V + D ≤ 2 ^ q * fpUnitsOf f (fpRoundRaw f m q + 1) ∧
    (∀ y, y < fpRoundRaw f m q → V ≤ m ∨ 2 ^ q * fpUnitsOf f y + D ≤ V) ∧
    D = 2 ^ max q (Nat.log2 m - fmtFrac f) ∧ D ∣ V := by
  have hP : 0 < 2 ^ fmtFrac f := Nat.two_pow_pos _
  have hf : 1 ≤ fmtFrac f := by cases f <;> decide
  obtain ⟨⟨h1, h2⟩, h3, h4⟩ := rneShift_spec m (max q (Nat.log2 m - fmtFrac f))
  -- the significand fits, and is normal when the exponent is above the subnormal grid
  have hlog : m < 2 ^ (Nat.log2 m + 1) := Nat.lt_log2_self
  have hup : m / 2 ^ max q (Nat.log2 m - fmtFrac f) < 2 * 2 ^ fmtFrac f := by
    rw [Nat.div_lt_iff_lt_mul (Nat.two_pow_pos _), ← Nat.pow_succ', ← Nat.pow_add]
    exact Nat.lt_of_lt_of_le hlog (Nat.pow_le_pow_right (by decide) (by omega))
  have hlow : max q (Nat.log2 m - fmtFrac f) - q = 0 ∨
      2 ^ fmtFrac f ≤ m / 2 ^ max q (Nat.log2 m - fmtFrac f) := by
    by_cases hc : Nat.log2 m - fmtFrac f ≤ q
    · left; omega
    · right
      have hm : m ≠ 0 := by rintro rfl; simp at hc
      rw [Nat.le_div_iff_mul_le (Nat.two_pow_pos _), ← Nat.pow_add]
      exact Nat.le_trans (Nat.pow_le_pow_right (by decide) (by omega)) (Nat.log2_self_le hm)
  generalize hd : max q (Nat.log2 m - fmtFrac f) = d at *
  have h2d : 2 ^ d = 2 ^ q * 2 ^ (d - q) := by rw [← Nat.pow_add]; congr 1; omega
  have hV : 2 ^ q * fpUnitsOf f (fpRoundRaw f m q) = rneShift m d * 2 ^ d := by
    rw [fpRoundRaw, hd, fpUnitsOf_scaled (by omega) (by omega)]
    rw [h2d, Nat.mul_left_comm]
  refine ⟨2 ^ d, rneShift m d * 2 ^ d, hV.symm, ?_, ?_, Nat.two_pow_pos _, ?_, ?_, ?_, rfl, Nat.dvd_mul_left _ _⟩
  · exact h1
  · exact h2
  · intro ht
    have := h3 ht
    rw [fpRoundRaw, hd]
    obtain ⟨k, hk⟩ : ∃ k, fmtFrac f = k + 1 := ⟨fmtFrac f - 1, by omega⟩
    rw [hk, Nat.pow_succ, ← Nat.mul_assoc]
    omega
  · rw [fpUnitsOf_succ, Nat.mul_add, hV, ← Nat.pow_add]
    refine Nat.add_le_add_left (Nat.pow_le_pow_right (by decide) ?_) _
    have : d - q ≤ fpRoundRaw f m q / 2 ^ fmtFrac f - 1 ∨ d - q = 0 := by
      rcases hlow with h | h
      · right; exact h
      · left
        have : d - q + 1 ≤ fpRoundRaw f m q / 2 ^ fmtFrac f := by
          rw [Nat.le_div_iff_mul_le hP, fpRoundRaw, hd, Nat.add_mul, Nat.one_mul]; omega
        omega
    omega
  · intro y hy
    by_cases hs : d - q = 0 ∨ 2 ^ fmtFrac f < rneShift m d
    · right
      obtain ⟨x, hx⟩ : ∃ x, fpRoundRaw f m q = x + 1 := ⟨fpRoundRaw f m q - 1, by omega⟩
      have hyx : fpUnitsOf f y ≤ fpUnitsOf f x := fpUnitsOf_le_iff.2 (by omega)
      rw [← hV, hx, fpUnitsOf_succ, Nat.mul_add, ← Nat.pow_add]
      refine Nat.add_le_add (Nat.mul_le_mul_left _ hyx) (Nat.pow_le_pow_right (by decide) ?_)
      rcases hs with hs | hs
      · omega
      · have : d - q + 1 ≤ x / 2 ^ fmtFrac f := by
          have hr : fpRoundRaw f m q = (d - q) * 2 ^ fmtFrac f + rneShift m d := by rw [fpRoundRaw, hd]
          rw [Nat.le_div_iff_mul_le hP, Nat.add_mul, Nat.one_mul]; omega
        omega
    · left
      have hle : rneShift m d ≤ m / 2 ^ d := by omega
      calc rneShift m d * 2 ^ d ≤ m / 2 ^ d * 2 ^ d := Nat.mul_le_mul_right _ hle
        _ ≤ m := Nat.div_mul_le_self _ _

/-- A rounded value that is exact: m is a significand of at most p bits times a power of two on the grid. -/
theorem fpRoundRaw_exact {f : Fmt} {m q : Nat} (h : 2 ^ max q (Nat.log2 m - fmtFrac f) ∣ m) :
    2 ^ q * fpUnitsOf f (fpRoundRaw f m q) = m := by
  obtain ⟨D, V, hV, h1, h2, hD, -, -, -, hDd, hDV⟩ := fpRoundRaw_spec f m q
  rw [← hDd] at h
  rw [← hV]
  obtain ⟨a, rfl⟩ := h
  obtain ⟨b, rfl⟩ := hDV
  rcases Nat.lt_trichotomy a b with hl | he | hl
  · have := Nat.mul_le_mul_left D (show a + 1 ≤ b from hl)
    rw [Nat.mul_add, Nat.mul_one] at this; omega
  · rw [he]
  · have := Nat.mul_le_mul_left D (show b + 1 ≤ a from hl)
    rw [Nat.mul_add, Nat.mul_one] at this; omega

/-- A value of the format is a significand of at most p bits times a power of two. -/
theorem fpUnitsOf_dvd (f : Fmt) (x : Nat) : 2 ^ (Nat.log2 (fpUnitsOf f x) - fmtFrac f) ∣ fpUnitsOf f x := by
  have hP : 0 < 2 ^ fmtFrac f := Nat.two_pow_pos _
  by_cases hx0 : x < 2 ^ fmtFrac f
  · rw [fpUnitsOf_small hx0]
    by_cases h0 : x = 0
    · simp [h0]
    · have : Nat.log2 x < fmtFrac f := (Nat.log2_lt h0).2 hx0
      simp [show Nat.log2 x - fmtFrac f = 0 by omega]
  · have h1 : 1 ≤ x / 2 ^ fmtFrac f := Nat.div_pos (by omega) hP
    have hlt := Nat.mod_lt x hP
    rw [fpUnitsOf, if_neg (by omega)]
    generalize x / 2 ^ fmtFrac f - 1 = e at *
    generalize x % 2 ^ fmtFrac f = t at *
    have hlog : Nat.log2 ((2 ^ fmtFrac f + t) * 2 ^ e) < 1 + fmtFrac f + e :=
      (Nat.log2_lt (by positivity)).2 (by
        rw [Nat.pow_add, Nat.pow_add]
        exact Nat.mul_lt_mul_of_pos_right (by omega) (Nat.two_pow_pos _))
    exact Nat.dvd_trans (pow_dvd_pow 2 (by omega)) (Nat.dvd_mul_left _ _)

theorem log2_mul_two_pow {m : Nat} (hm : m ≠ 0) (q : Nat) : Nat.log2 (2 ^ q * m) = q + Nat.log2 m := by
  have h1 := Nat.log2_self_le hm
  have h2 : m < 2 ^ (Nat.log2 m + 1) := Nat.lt_log2_self
  have h3 : 2 ^ q * m ≠ 0 := Nat.mul_ne_zero (Nat.two_pow_pos _).ne' hm
  apply Nat.le_antisymm
  · apply Nat.le_of_lt_succ
    rw [Nat.log2_lt h3, Nat.succ_eq_add_one, Nat.add_assoc, Nat.pow_add]
    exact Nat.mul_lt_mul_of_pos_left h2 (Nat.two_pow_pos _)
  · rw [Nat.le_log2 h3, Nat.pow_add]
    exact Nat.mul_le_mul_left _ h1

/-- A value of the format, and any such value times 2^q, rounds to itself. -/
theorem fpRound_units {f : Fmt} {x q : Nat} (hx : x ≤ fmtInfMag f) : fpRound f (2 ^ q * fpUnitsOf f x) q = x := by
  suffices h : fpRoundRaw f (2 ^ q * fpUnitsOf f x) q = x by rw [fpRound_eq_min, h, Nat.min_eq_right hx]
  have hd : 2 ^ max q (Nat.log2 (2 ^ q * fpUnitsOf f x) - fmtFrac f) ∣ 2 ^ q * fpUnitsOf f x := by
    by_cases h0 : fpUnitsOf f x = 0
    · simp [h0]
    · rw [log2_mul_two_pow h0]
      refine Nat.dvd_trans (pow_dvd_pow 2 (show _ ≤ q + (Nat.log2 (fpUnitsOf f x) - fmtFrac f) by omega)) ?_
      rw [Nat.pow_add]
      exact Nat.mul_dvd_mul_left _ (fpUnitsOf_dvd f x)
  exact fpUnitsOf_inj.1 (Nat.eq_of_mul_eq_mul_left (Nat.two_pow_pos q) (fpRoundRaw_exact hd))

/-- A value whose significand has at most p bits rounds exactly when it does not leave the format. -/
theorem fpRound_value {f : Fmt} {m q : Nat} (hd : 2 ^ max q (Nat.log2 m - fmtFrac f) ∣ m)
    (hm : m ≤ 2 ^ q * fpUnitsOf f (fmtInfMag f)) : 2 ^ q * fpUnitsOf f (fpRound f m q) = m := by
  have h := fpRoundRaw_exact hd
  have : fpRoundRaw f m q ≤ fmtInfMag f := by
    rw [← fpUnitsOf_le_iff (f := f)]
    exact Nat.le_of_mul_le_mul_left (by rw [h]; exact hm) (Nat.two_pow_pos q)
  rw [fpRound_eq_min, Nat.min_eq_right this, h]

theorem fpRound_zero (f : Fmt) (q : Nat) : fpRound f 0 q = 0 := by
  have := fpRound_units (f := f) (x := 0) (q := q) (Nat.zero_le _)
  simpa using this

/-! Finite patterns. -/

theorem fpInt_neg_iff {f : Fmt} (a : Fp f) (h : fpMag a ≠ 0) : fpInt a < 0 ↔ fpNeg a = true := by
  have : 0 < fpUnits a := Nat.pos_of_ne_zero fun h' => h (fpUnitsOf_eq_zero.1 h')
  rw [fpInt]
  split <;> simp_all

theorem natAbs_fpInt {f : Fmt} (a : Fp f) : (fpInt a).natAbs = fpUnits a := by
  rw [fpInt]; split <;> simp

/-- The pattern of a finite nonzero pattern's own value is the pattern. -/
theorem fpOfInt_fpInt {f : Fmt} (a : Fp f) (n : Bool) (h0 : fpMag a ≠ 0) (hf : fpMag a ≤ fmtInfMag f) :
    fpOfInt f n (fpInt a) = a := by
  have hu : fpUnits a ≠ 0 := fun h => h0 (fpUnitsOf_eq_zero.1 h)
  have hne : fpInt a ≠ 0 := by rw [← Int.natAbs_ne_zero, natAbs_fpInt]; exact hu
  have hr := fpRound_units (f := f) (x := fpMag a) (q := 0) hf
  rw [Nat.pow_zero, Nat.one_mul] at hr
  have hs : decide (fpInt a < 0) = fpNeg a := by
    rw [Bool.eq_iff_iff, decide_eq_true_iff]; exact fpInt_neg_iff a h0
  rw [fpOfInt, if_neg hne, natAbs_fpInt, fpUnits, hr, hs, fpPack_self]

theorem fpNeg_fneg {f : Fmt} (b : Fp f) : fpNeg (fneg b) = !fpNeg b := fpNeg_fpPack (fpMag_lt b)
theorem fpMag_fneg {f : Fmt} (b : Fp f) : fpMag (fneg b) = fpMag b := fpMag_fpPack (fpMag_lt b)

theorem fpInt_fneg {f : Fmt} (b : Fp f) : fpInt (fneg b) = -fpInt b := by
  rw [fpInt, fpInt, fpUnits, fpUnits, fpNeg_fneg, fpMag_fneg]
  cases fpNeg b <;> simp

theorem fpIsNaN_eq_false {f : Fmt} {a : Fp f} (h : fpMag a ≤ fmtInfMag f) : fpIsNaN a = false := by
  simp [fpIsNaN, h]

theorem fpIsInf_eq_false {f : Fmt} {a : Fp f} (h : fpMag a ≠ fmtInfMag f) : fpIsInf a = false := by
  simp [fpIsInf, h]

/-- A sum of finite patterns is the exact sum, rounded once. -/
theorem fadd_finite {f : Fmt} {a b : Fp f} (ha : fpMag a < fmtInfMag f) (hb : fpMag b < fmtInfMag f) :
    fadd a b = fpOfInt f (fpNeg a && fpNeg b) (fpInt a + fpInt b) := by
  simp [fadd, fpIsNaN_eq_false ha.le, fpIsNaN_eq_false hb.le, fpIsInf_eq_false ha.ne, fpIsInf_eq_false hb.ne]

/-- A difference of finite patterns is the exact difference, rounded once. -/
theorem fsub_finite {f : Fmt} {a b : Fp f} (ha : fpMag a < fmtInfMag f) (hb : fpMag b < fmtInfMag f) :
    fsub a b = fpOfInt f (fpNeg a && !fpNeg b) (fpInt a - fpInt b) := by
  rw [fsub, fadd_finite ha (by rw [fpMag_fneg]; exact hb), fpInt_fneg, fpNeg_fneg, Int.sub_eq_add_neg]

/-- A product of finite patterns is the exact product, rounded once. -/
theorem fmul_finite {f : Fmt} {a b : Fp f} (ha : fpMag a < fmtInfMag f) (hb : fpMag b < fmtInfMag f) :
    fmul a b = fpPack f (fpNeg a ^^ fpNeg b) (fpRound f (fpUnits a * fpUnits b) (fmtUnitExp f)) := by
  simp [fmul, fpIsNaN_eq_false ha.le, fpIsNaN_eq_false hb.le, fpIsInf_eq_false ha.ne, fpIsInf_eq_false hb.ne]

/-- Narrowing a finite pattern rounds its value once. -/
theorem cvt6432_finite {a : Fp .f64} (h : fpMag a < fmtInfMag .f64) :
    cvt6432 a = fpPack .f32 (fpNeg a) (fpRound .f32 (fpUnits a) 925) := by
  simp only [cvt6432, fpIsNaN_eq_false (f := .f64) h.le, fpIsInf_eq_false (f := .f64) h.ne]; rfl

/-- Widening a finite pattern: its value in the smaller unit. -/
theorem cvt3264_finite {a : Fp .f32} (h : fpMag a < fmtInfMag .f32) :
    cvt3264 a = fpPack .f64 (fpNeg a) (fpRound .f64 (fpUnits a * 2 ^ 925) 0) := by
  simp only [cvt3264, fpIsNaN_eq_false (f := .f32) h.le, fpIsInf_eq_false (f := .f32) h.ne]; rfl

theorem fadd_comm {f : Fmt} (a b : Fp f) : fadd a b = fadd b a := by
  have hi : fpIsInf a = true → fpIsInf b = true → fpNeg a = fpNeg b → a = b := fun h1 h2 h3 => by
    simp only [fpIsInf, decide_eq_true_eq] at h1 h2
    exact fp_ext h3 (h1.trans h2.symm)
  have h0 : fpOfInt f (fpNeg a && fpNeg b) (fpInt a + fpInt b) = fpOfInt f (fpNeg b && fpNeg a) (fpInt b + fpInt a) := by
    rw [Bool.and_comm, Int.add_comm]
  simp only [fadd, Bool.or_comm (fpIsNaN b), Bool.and_comm (fpIsInf b), h0, eq_comm (a := fpNeg b)]
  grind

theorem fmul_comm {f : Fmt} (a b : Fp f) : fmul a b = fmul b a := by
  simp only [fmul, Bool.or_comm (fpIsNaN b), Bool.or_comm (fpIsInf b), Bool.or_comm (fpIsZero b), Bool.xor_comm (fpNeg b),
    Nat.mul_comm (fpUnits b)]

end Sys2Proof.Machine
end

