-- ==== Sys2Proof/Laws/Accuracy.lean ====
section
/-! SUPPORT. The laws of accuracy: every operation of 40_numerics.md against the exact one, the angles and the tones
against the exact ones under TrigCR, and an element times its tone against the element turned by the exact angle
(45_contract_properties.md R250). TrigCR can be met by some build, and holds of every build at a zero angle. -/

namespace Sys2Proof.Machine

/-- The unit roundoff as a real number. -/
noncomputable def uOf (f : Fmt) : ℝ := (unitRoundoff f : ℚ)
/-- Half of the smallest value of the format. -/
noncomputable def etaOf (f : Fmt) : ℝ := 1 / 2 ^ (fmtUnitExp f + 1)

theorem uOf_eq (f : Fmt) : uOf f = 1 / 2 ^ (fmtFrac f + 1) := by simp [uOf, unitRoundoff]
theorem uOf_pos (f : Fmt) : 0 < uOf f := by rw [uOf_eq]; positivity
theorem uOf_le (f : Fmt) : uOf f ≤ 1 / 2 ^ 24 := by cases f <;> simp only [uOf_eq, fmtFrac] <;> norm_num
theorem etaOf_pos (f : Fmt) : 0 < etaOf f := by rw [etaOf]; positivity
theorem etaOf_le (f : Fmt) : etaOf f ≤ uOf f / 2 ^ 100 := by
  cases f <;> simp only [uOf_eq, etaOf, fmtFrac, fmtUnitExp] <;> rw [div_div, ← pow_add] <;>
    exact one_div_le_one_div_of_le (by positivity) (pow_le_pow_right₀ (by norm_num) (by norm_num))

/-- The value as a real number. -/
noncomputable def fpReal {f : Fmt} (b : Fp f) : ℝ := (fpVal b : ℚ)

theorem fpReal_eq {f : Fmt} (b : Fp f) : fpReal b = (fpInt b : ℝ) / 2 ^ fmtUnitExp f := by
  simp [fpReal, fpVal]

theorem fpReal_fpPack {f : Fmt} {n : Bool} {x : Nat} (h : x < 2 ^ (f.width - 1)) :
    fpReal (fpPack f n x) = (if n then -1 else 1) * (fpUnitsOf f x : ℝ) / 2 ^ fmtUnitExp f := by
  rw [fpReal_eq, fpInt, fpNeg_fpPack h, fpUnits, fpMag_fpPack h]
  cases n <;> simp

theorem abs_fpReal {f : Fmt} (b : Fp f) : |fpReal b| = (fpUnits b : ℝ) / 2 ^ fmtUnitExp f := by
  rw [fpReal_eq, abs_div, abs_of_pos (show (0:ℝ) < 2 ^ fmtUnitExp f by positivity)]
  congr 1
  rw [← natAbs_fpInt, ← Int.cast_abs, Int.abs_eq_natAbs]; simp

/-- The error of the rounding, in 2^−q units, where the result stays in the format. -/
theorem fpRound_error {f : Fmt} {m q : Nat} (h : fpRound f m q < fmtInfMag f) :
    |(2 ^ q * fpUnitsOf f (fpRound f m q) : ℝ) - m| ≤ uOf f * m + 2 ^ q / 2 := by
  obtain ⟨D, V, hV, h1, h2, -, -, -, -, hD, -⟩ := fpRoundRaw_spec f m q
  have hr : fpRound f m q = fpRoundRaw f m q := by
    rw [fpRound_eq_min] at h ⊢; omega
  have hV' : (2 ^ q * fpUnitsOf f (fpRound f m q) : ℝ) = (V : ℝ) := by rw [hr, hV]; push_cast; rfl
  rw [hV']
  have hDle : (D : ℝ) ≤ 2 * (uOf f * m + 2 ^ q / 2) := by
    have hu := uOf_pos f
    rcases Nat.le_total (Nat.log2 m - fmtFrac f) q with hc | hc
    · rw [hD, Nat.max_eq_left hc]; push_cast
      have : 0 ≤ uOf f * m := by positivity
      linarith
    · rw [hD, Nat.max_eq_right hc]
      by_cases hm : m = 0
      · subst hm
        have hq : q = 0 := by simpa using hc
        subst hq; simp
      by_cases hl : Nat.log2 m ≤ fmtFrac f
      · have hq : q = 0 := by omega
        subst hq
        rw [show Nat.log2 m - fmtFrac f = 0 by omega]
        have : 0 ≤ uOf f * m := by positivity
        push_cast; linarith
      have hle : 2 ^ Nat.log2 m ≤ m := Nat.log2_self_le hm
      have e : (2 : ℝ) ^ Nat.log2 m = 2 ^ (Nat.log2 m - fmtFrac f) * 2 ^ fmtFrac f := by
        rw [← pow_add]; congr 1; omega
      have hle' : (2 : ℝ) ^ Nat.log2 m ≤ m := by exact_mod_cast hle
      rw [e] at hle'
      push_cast
      have : (2 : ℝ) ^ (Nat.log2 m - fmtFrac f) ≤ 2 * (uOf f * m) := by
        rw [uOf_eq, pow_succ]
        have hp : (0 : ℝ) < 2 ^ fmtFrac f := by positivity
        rw [show 2 * (1 / (2 ^ fmtFrac f * 2) * (m : ℝ)) = m / 2 ^ fmtFrac f by field_simp]
        rw [le_div_iff₀ hp]; exact hle'
      have : (0 : ℝ) < 2 ^ q := by positivity
      linarith
  have g1 : (2 * m : ℝ) ≤ 2 * V + D := by exact_mod_cast h1
  have g2 : (2 * V : ℝ) ≤ 2 * m + D := by exact_mod_cast h2
  rw [abs_le]; constructor <;> linarith

/-- A magnitude below the middle of the largest finite one and the format's end does not round out of the format. -/
theorem fpRound_stays {f : Fmt} {m q : Nat}
    (h : 2 * m < 2 ^ q * (fpUnitsOf f (fmtInfMag f - 1) + fpUnitsOf f (fmtInfMag f))) :
    fpRound f m q < fmtInfMag f := by
  rw [fpRound_eq_min]
  by_contra hc
  have hpos : 0 < fmtInfMag f := by cases f <;> decide
  have hge : fmtInfMag f ≤ fpRoundRaw f m q := by omega
  obtain ⟨D, V, hV, h1, h2, -, -, -, hdn, -, -⟩ := fpRoundRaw_spec f m q
  have hle := Nat.mul_le_mul_left (2 ^ q) (fpUnitsOf_le_iff (f := f).2 hge)
  have hlt := Nat.mul_le_mul_left (2 ^ q) (fpUnitsOf_le_iff (f := f).2 (Nat.sub_le (fmtInfMag f) 1))
  rw [← hV] at hle
  rw [Nat.mul_add] at h
  rcases hdn (fmtInfMag f - 1) (by omega) with hc | hc <;> omega

/-- The middle of the largest finite value and 2^128 (F32) or 2^1024 (F64), from which on a result is infinite. -/
noncomputable def formatEnd (f : Fmt) : ℝ :=
  ((fpUnitsOf f (fmtInfMag f - 1) + fpUnitsOf f (fmtInfMag f) : ℕ) : ℝ) / 2 ^ (fmtUnitExp f + 1)

theorem formatEnd_big (f : Fmt) : (2 : ℝ) ^ 100 ≤ formatEnd f := by
  rw [formatEnd, le_div_iff₀ (by positivity)]
  have : 2 ^ 100 * 2 ^ (fmtUnitExp f + 1) ≤ fpUnitsOf f (fmtInfMag f - 1) + fpUnitsOf f (fmtInfMag f) := by
    cases f <;> decide +kernel
  exact_mod_cast this

/-- A finite value lies well below the format's end. -/
theorem abs_fpReal_lt_formatEnd {f : Fmt} {a : Fp f} (ha : fpMag a < fmtInfMag f) :
    |fpReal a| + 2 ^ 100 < formatEnd f := by
  have h1 : fpUnits a ≤ fpUnitsOf f (fmtInfMag f - 1) := fpUnitsOf_le_iff.2 (by omega)
  have h2 : 2 * (fpUnitsOf f (fmtInfMag f - 1) + 2 ^ 100 * 2 ^ fmtUnitExp f) <
      fpUnitsOf f (fmtInfMag f - 1) + fpUnitsOf f (fmtInfMag f) := by cases f <;> decide +kernel
  have h3 : 2 * (fpUnits a + 2 ^ 100 * 2 ^ fmtUnitExp f) <
      fpUnitsOf f (fmtInfMag f - 1) + fpUnitsOf f (fmtInfMag f) := by omega
  have h4 : (2 * ((fpUnits a : ℝ) + 2 ^ 100 * 2 ^ fmtUnitExp f)) <
      ((fpUnitsOf f (fmtInfMag f - 1) + fpUnitsOf f (fmtInfMag f) : ℕ) : ℝ) := by exact_mod_cast h3
  have hE : (0 : ℝ) < 2 ^ fmtUnitExp f := by positivity
  rw [formatEnd, abs_fpReal, pow_succ, lt_div_iff₀ (by positivity)]
  refine lt_of_eq_of_lt ?_ h4
  field_simp
  rw [pow_succ]

theorem fpOfInt_error {f : Fmt} {z : Bool} {n : Int} (h : fpMag (fpOfInt f z n) < fmtInfMag f) :
    |fpReal (fpOfInt f z n) - n / 2 ^ fmtUnitExp f| ≤ uOf f * |(n : ℝ) / 2 ^ fmtUnitExp f| + etaOf f := by
  have hE : (0 : ℝ) < 2 ^ fmtUnitExp f := by positivity
  by_cases h0 : n = 0
  · subst h0
    have : fpReal (fpOfInt f z 0) = 0 := by
      rw [fpOfInt, if_pos rfl, fpReal_fpPack (Nat.two_pow_pos _), fpUnitsOf_zero]; simp
    rw [this]; simp [(etaOf_pos f).le]
  rw [fpOfInt, if_neg h0] at h ⊢
  rw [fpMag_fpPack (fpRound_lt _ _ _)] at h
  rw [fpReal_fpPack (fpRound_lt _ _ _)]
  have he := fpRound_error h
  rw [pow_zero, one_mul] at he
  have habs : ((n.natAbs : ℕ) : ℝ) = |(n : ℝ)| := by rw [← Int.cast_abs, Int.abs_eq_natAbs]; simp
  rw [habs] at he
  have hs : (n : ℝ) = (if decide (n < 0) = true then (-1 : ℝ) else 1) * |(n : ℝ)| := by
    by_cases hn : n < 0
    · rw [if_pos (by simpa using hn), abs_of_neg (by exact_mod_cast hn)]; ring
    · rw [if_neg (by simpa using hn), abs_of_nonneg (by exact_mod_cast (not_lt.1 hn))]; ring
  rw [abs_div, abs_of_pos hE]
  conv_lhs => rw [hs]
  rw [← sub_div, ← mul_sub, abs_div, abs_mul, abs_of_pos hE]
  have h1 : |(if decide (n < 0) = true then (-1 : ℝ) else 1)| = 1 := by split <;> simp
  rw [h1, one_mul, div_le_iff₀ hE]
  calc _ ≤ _ := he
    _ = _ := by rw [etaOf, pow_succ]; field_simp

theorem fpOfInt_stays {f : Fmt} {z : Bool} {n : Int} (h : |(n : ℝ) / 2 ^ fmtUnitExp f| < formatEnd f) :
    fpMag (fpOfInt f z n) < fmtInfMag f := by
  by_cases h0 : n = 0
  · subst h0; rw [fpOfInt, if_pos rfl, fpMag_fpPack (Nat.two_pow_pos _)]; cases f <;> decide
  rw [fpOfInt, if_neg h0, fpMag_fpPack (fpRound_lt _ _ _)]
  apply fpRound_stays
  rw [formatEnd, pow_succ, abs_div, abs_of_pos (show (0 : ℝ) < 2 ^ fmtUnitExp f by positivity),
    div_lt_div_iff₀ (by positivity) (by positivity)] at h
  have hp : (0 : ℝ) < 2 ^ fmtUnitExp f := by positivity
  have h2 : |(n : ℝ)| * 2 < ((fpUnitsOf f (fmtInfMag f - 1) + fpUnitsOf f (fmtInfMag f) : ℕ) : ℝ) := by nlinarith
  have habs : ((n.natAbs : ℕ) : ℝ) = |(n : ℝ)| := by rw [← Int.cast_abs, Int.abs_eq_natAbs]; simp
  rw [← habs] at h2
  rw [pow_zero, one_mul, Nat.mul_comm]
  exact_mod_cast h2


theorem toNat_append {a b : Nat} (x : BitVec a) (y : BitVec b) : (x ++ y).toNat = x.toNat * 2 ^ b + y.toNat := by
  rw [BitVec.toNat_append, ← Nat.shiftLeft_add_eq_or_of_lt y.isLt, Nat.shiftLeft_eq]

theorem nan32_beyond (s : BitVec 1) (p : BitVec 22) : fmtInfMag .f32 < fpMag (f := .f32) (s ++ 0xFF#8 ++ 1#1 ++ p) := by
  have h1 := s.isLt
  have h2 := p.isLt
  have : (s ++ 0xFF#8 ++ 1#1 ++ p).toNat = ((s.toNat * 2 ^ 8 + 255) * 2 ^ 1 + 1) * 2 ^ 22 + p.toNat := by
    rw [toNat_append, toNat_append, toNat_append]; rfl
  simp only [fpMag, this, fmtInfMag, Fmt.width]
  omega

theorem nan64_beyond (s : BitVec 1) (p : BitVec 51) : fmtInfMag .f64 < fpMag (f := .f64) (s ++ 0x7FF#11 ++ 1#1 ++ p) := by
  have h1 := s.isLt
  have h2 := p.isLt
  have : (s ++ 0x7FF#11 ++ 1#1 ++ p).toNat = ((s.toNat * 2 ^ 11 + 2047) * 2 ^ 1 + 1) * 2 ^ 51 + p.toNat := by
    rw [toNat_append, toNat_append, toNat_append]; rfl
  simp only [fpMag, this, fmtInfMag, Fmt.width]
  omega

/-- The NaN pattern lies beyond the infinity, whatever its open sign and fraction are. -/
theorem fmtInfMag_lt_qnan : (f : Fmt) → fmtInfMag f < fpMag (qnan f)
  | .f32 => nan32_beyond _ _
  | .f64 => nan64_beyond _ _

theorem qnan_not_finite {f : Fmt} : ¬ fpMag (qnan f) < fmtInfMag f := by
  have := fmtInfMag_lt_qnan f; omega

theorem finite_iff {f : Fmt} {a : Fp f} : fpMag a < fmtInfMag f ↔ fpIsNaN a = false ∧ fpIsInf a = false := by
  simp only [fpIsNaN, fpIsInf, decide_eq_false_iff_not]; omega

/-- Only finite operands have a finite sum. -/
theorem finite_of_fadd {f : Fmt} {a b : Fp f} (h : fpMag (fadd a b) < fmtInfMag f) :
    fpMag a < fmtInfMag f ∧ fpMag b < fmtInfMag f := by
  rw [finite_iff, finite_iff]
  rw [fadd] at h
  split_ifs at h with h1 h2 h3 h4 h5
  · exact absurd h qnan_not_finite
  · rw [finite_iff] at h; simp_all
  · exact absurd h qnan_not_finite
  · rw [finite_iff] at h; simp_all
  · rw [finite_iff] at h; simp_all
  · simp_all

theorem finite_of_fsub {f : Fmt} {a b : Fp f} (h : fpMag (fsub a b) < fmtInfMag f) :
    fpMag a < fmtInfMag f ∧ fpMag b < fmtInfMag f := by
  have := finite_of_fadd h
  rwa [fpMag_fneg] at this

/-- Only finite operands have a finite product. -/
theorem finite_of_fmul {f : Fmt} {a b : Fp f} (h : fpMag (fmul a b) < fmtInfMag f) :
    fpMag a < fmtInfMag f ∧ fpMag b < fmtInfMag f := by
  rw [finite_iff, finite_iff]
  rw [fmul] at h
  split_ifs at h with h1 h2 h3
  · exact absurd h qnan_not_finite
  · exact absurd h qnan_not_finite
  · rw [fpMag_fpPack (fmtInfMag_lt f)] at h; omega
  · simp_all

/-- A sum is the exact sum within the rounding's error. -/
theorem fadd_error {f : Fmt} {a b : Fp f} (h : fpMag (fadd a b) < fmtInfMag f) :
    |fpReal (fadd a b) - (fpReal a + fpReal b)| ≤ uOf f * |fpReal a + fpReal b| + etaOf f := by
  obtain ⟨ha, hb⟩ := finite_of_fadd h
  rw [fadd_finite ha hb] at h ⊢
  have e : fpReal a + fpReal b = ((fpInt a + fpInt b : Int) : ℝ) / 2 ^ fmtUnitExp f := by
    rw [fpReal_eq, fpReal_eq]; push_cast; ring
  rw [e]; exact fpOfInt_error h

theorem fadd_stays {f : Fmt} {a b : Fp f} (ha : fpMag a < fmtInfMag f) (hb : fpMag b < fmtInfMag f)
    (h : |fpReal a + fpReal b| < formatEnd f) : fpMag (fadd a b) < fmtInfMag f := by
  rw [fadd_finite ha hb]
  apply fpOfInt_stays
  have e : fpReal a + fpReal b = ((fpInt a + fpInt b : Int) : ℝ) / 2 ^ fmtUnitExp f := by
    rw [fpReal_eq, fpReal_eq]; push_cast; ring
  rwa [← e]

theorem fpReal_fneg {f : Fmt} (b : Fp f) : fpReal (fneg b) = -fpReal b := by
  rw [fpReal_eq, fpReal_eq, fpInt_fneg]; push_cast; ring

theorem fsub_error {f : Fmt} {a b : Fp f} (h : fpMag (fsub a b) < fmtInfMag f) :
    |fpReal (fsub a b) - (fpReal a - fpReal b)| ≤ uOf f * |fpReal a - fpReal b| + etaOf f := by
  have := fadd_error h
  rwa [fpReal_fneg, ← sub_eq_add_neg] at this

theorem fsub_stays {f : Fmt} {a b : Fp f} (ha : fpMag a < fmtInfMag f) (hb : fpMag b < fmtInfMag f)
    (h : |fpReal a - fpReal b| < formatEnd f) : fpMag (fsub a b) < fmtInfMag f := by
  apply fadd_stays ha (by rwa [fpMag_fneg])
  rwa [fpReal_fneg, ← sub_eq_add_neg]

theorem fpReal_sign {f : Fmt} (a : Fp f) :
    fpReal a = (if fpNeg a then -1 else 1) * ((fpUnits a : ℝ) / 2 ^ fmtUnitExp f) := by
  rw [fpReal_eq, fpInt]; cases fpNeg a <;> simp [neg_div]

/-- A product is the exact product within the rounding's error. -/
theorem fmul_error {f : Fmt} {a b : Fp f} (h : fpMag (fmul a b) < fmtInfMag f) :
    |fpReal (fmul a b) - fpReal a * fpReal b| ≤ uOf f * |fpReal a * fpReal b| + etaOf f := by
  obtain ⟨ha, hb⟩ := finite_of_fmul h
  rw [fmul_finite ha hb] at h ⊢
  rw [fpMag_fpPack (fpRound_lt _ _ _)] at h
  have he := fpRound_error h
  have hE : (0 : ℝ) < 2 ^ fmtUnitExp f := by positivity
  rw [fpReal_fpPack (fpRound_lt _ _ _), abs_mul, abs_fpReal, abs_fpReal, fpReal_sign a, fpReal_sign b]
  generalize (fpUnitsOf f (fpRound f (fpUnits a * fpUnits b) (fmtUnitExp f)) : ℝ) = V at *
  push_cast at he
  generalize (fpUnits a : ℝ) = x at *
  generalize (fpUnits b : ℝ) = y at *
  rw [etaOf, pow_succ]
  generalize (2 : ℝ) ^ fmtUnitExp f = P at *
  have key : |V / P - x / P * (y / P)| ≤ uOf f * (x / P * (y / P)) + 1 / (P * 2) := by
    rw [show V / P - x / P * (y / P) = (P * V - x * y) / (P * P) by field_simp, abs_div,
      abs_of_pos (mul_pos hE hE), div_le_iff₀ (mul_pos hE hE)]
    calc _ ≤ _ := he
      _ = _ := by field_simp
  refine le_trans (le_of_eq ?_) key
  cases fpNeg a <;> cases fpNeg b <;> simp
  · rw [← abs_neg]; congr 1; ring
  · rw [← abs_neg]; congr 1; ring

theorem fmul_stays {f : Fmt} {a b : Fp f} (ha : fpMag a < fmtInfMag f) (hb : fpMag b < fmtInfMag f)
    (h : |fpReal a * fpReal b| < formatEnd f) : fpMag (fmul a b) < fmtInfMag f := by
  rw [fmul_finite ha hb, fpMag_fpPack (fpRound_lt _ _ _)]
  apply fpRound_stays
  rw [abs_mul, abs_fpReal, abs_fpReal, formatEnd, pow_succ] at h
  have hE : (0 : ℝ) < 2 ^ fmtUnitExp f := by positivity
  have : ((2 * (fpUnits a * fpUnits b) : ℕ) : ℝ) < ((2 ^ fmtUnitExp f * (fpUnitsOf f (fmtInfMag f - 1) + fpUnitsOf f (fmtInfMag f)) : ℕ) : ℝ) := by
    rw [Nat.cast_mul, Nat.cast_mul, Nat.cast_mul, Nat.cast_pow, Nat.cast_ofNat]
    generalize ((fpUnitsOf f (fmtInfMag f - 1) + fpUnitsOf f (fmtInfMag f) : ℕ) : ℝ) = W at *
    generalize (2 : ℝ) ^ fmtUnitExp f = P at *
    rw [div_mul_div_comm, div_lt_div_iff₀ (by positivity) (by positivity)] at h
    have : (fpUnits a : ℝ) * fpUnits b * 2 * P < P * W * P := by linarith
    have := lt_of_mul_lt_mul_right this hE.le
    linarith
  exact_mod_cast this

theorem finite_of_cvt6432 {a : Fp .f64} (h : fpMag (f := .f32) (cvt6432 a) < fmtInfMag .f32) :
    fpMag a < fmtInfMag .f64 := by
  rw [finite_iff]
  rw [cvt6432] at h
  split_ifs at h with h1 h2
  · exact absurd h qnan_not_finite
  · rw [fpMag_fpPack (fmtInfMag_lt .f32)] at h; omega
  · simp_all

/-- The narrowing conversion is the value within the rounding's error. -/
theorem cvt6432_error {a : Fp .f64} (h : fpMag (f := .f32) (cvt6432 a) < fmtInfMag .f32) :
    |fpReal (f := .f32) (cvt6432 a) - fpReal a| ≤ uOf .f32 * |fpReal a| + etaOf .f32 := by
  have ha := finite_of_cvt6432 h
  rw [cvt6432_finite ha] at h ⊢
  rw [fpMag_fpPack (fpRound_lt _ _ _)] at h
  have he := fpRound_error h
  rw [fpReal_fpPack (fpRound_lt _ _ _), abs_fpReal, fpReal_sign a]
  generalize (fpUnitsOf .f32 (fpRound .f32 (fpUnits a) 925) : ℝ) = V at *
  generalize (fpUnits a : ℝ) = x at *
  rw [etaOf, show fmtUnitExp .f32 = 149 from rfl, show fmtUnitExp .f64 = 1074 from rfl,
    show (2 : ℝ) ^ 1074 = 2 ^ 149 * 2 ^ 925 by rw [← pow_add],
    show (2 : ℝ) ^ (149 + 1) = 2 ^ 149 * 2 from pow_succ _ _]
  have h1 : (0 : ℝ) < 2 ^ 925 := by positivity
  have h2 : (0 : ℝ) < 2 ^ 149 := by positivity
  generalize (2 : ℝ) ^ 925 = Q at *
  generalize (2 : ℝ) ^ 149 = P at *
  have key : |V / P - x / (P * Q)| ≤ uOf .f32 * (x / (P * Q)) + 1 / (P * 2) := by
    rw [show V / P - x / (P * Q) = (Q * V - x) / (P * Q) by field_simp, abs_div,
      abs_of_pos (mul_pos h2 h1), div_le_iff₀ (mul_pos h2 h1)]
    calc _ ≤ _ := he
      _ = _ := by field_simp
  refine le_trans (le_of_eq ?_) key
  cases fpNeg a <;> simp
  · rw [← abs_neg]; congr 1; ring

theorem cvt6432_stays {a : Fp .f64} (ha : fpMag a < fmtInfMag .f64) (h : |fpReal a| < formatEnd .f32) :
    fpMag (f := .f32) (cvt6432 a) < fmtInfMag .f32 := by
  rw [cvt6432_finite ha, fpMag_fpPack (fpRound_lt _ _ _)]
  apply fpRound_stays
  rw [abs_fpReal, formatEnd, show fmtUnitExp .f32 = 149 from rfl, show fmtUnitExp .f64 = 1074 from rfl,
    show (2 : ℝ) ^ 1074 = 2 ^ 149 * 2 ^ 925 by rw [← pow_add],
    show (2 : ℝ) ^ (149 + 1) = 2 ^ 149 * 2 from pow_succ _ _] at h
  have h1 : (0 : ℝ) < 2 ^ 925 := by positivity
  have h2 : (0 : ℝ) < 2 ^ 149 := by positivity
  have : ((2 * fpUnits a : ℕ) : ℝ) < ((2 ^ 925 * (fpUnitsOf .f32 (fmtInfMag .f32 - 1) + fpUnitsOf .f32 (fmtInfMag .f32)) : ℕ) : ℝ) := by
    rw [Nat.cast_mul, Nat.cast_mul, Nat.cast_pow, Nat.cast_ofNat]
    generalize ((fpUnitsOf .f32 (fmtInfMag .f32 - 1) + fpUnitsOf .f32 (fmtInfMag .f32) : ℕ) : ℝ) = W at *
    generalize (2 : ℝ) ^ 925 = Q at *
    generalize (2 : ℝ) ^ 149 = P at *
    rw [div_lt_div_iff₀ (by positivity) (by positivity)] at h
    have : (2 * (fpUnits a : ℝ)) * P < Q * W * P := by linarith
    exact lt_of_mul_lt_mul_right this h2.le
  exact_mod_cast this



/-- Every F32 value is an F64 value. -/
theorem widen_dvd (x : Nat) : 2 ^ max 0 (Nat.log2 (fpUnitsOf .f32 x * 2 ^ 925) - fmtFrac .f64) ∣ fpUnitsOf .f32 x * 2 ^ 925 := by
  by_cases h0 : fpUnitsOf .f32 x = 0
  · simp [h0]
  rw [Nat.mul_comm, log2_mul_two_pow h0, Nat.zero_max]
  refine Nat.dvd_trans (pow_dvd_pow 2 (show _ ≤ 925 + (Nat.log2 (fpUnitsOf .f32 x) - fmtFrac .f32) by
    simp only [fmtFrac]; omega)) ?_
  rw [Nat.pow_add]
  exact Nat.mul_dvd_mul_left _ (fpUnitsOf_dvd .f32 x)

theorem widen_units {x : Nat} (h : x < fmtInfMag .f32) :
    fpUnitsOf .f64 (fpRound .f64 (fpUnitsOf .f32 x * 2 ^ 925) 0) = fpUnitsOf .f32 x * 2 ^ 925 := by
  have := fpRound_value (f := .f64) (q := 0) (widen_dvd x) (by
    have h1 := fpUnitsOf_lt_iff (f := .f32).2 h
    have h2 : fpUnitsOf .f32 (fmtInfMag .f32) * 2 ^ 925 ≤ fpUnitsOf .f64 (fmtInfMag .f64) := by decide +kernel
    rw [Nat.pow_zero, Nat.one_mul]
    exact Nat.le_trans (Nat.mul_le_mul_right _ h1.le) h2)
  rwa [Nat.pow_zero, Nat.one_mul] at this

/-- The widening conversion keeps a finite value. -/
theorem cvt3264_value {a : Fp .f32} (h : fpMag a < fmtInfMag .f32) :
    fpMag (f := .f64) (cvt3264 a) < fmtInfMag .f64 ∧ fpReal (f := .f64) (cvt3264 a) = fpReal a := by
  have hw : fpUnitsOf .f64 (fpRound .f64 (fpUnits a * 2 ^ 925) 0) = fpUnits a * 2 ^ 925 := widen_units h
  rw [cvt3264_finite h, fpMag_fpPack (fpRound_lt _ _ _), fpReal_fpPack (fpRound_lt _ _ _), hw]
  constructor
  · rw [← fpUnitsOf_lt_iff (f := .f64), hw]
    exact Nat.lt_of_le_of_lt (Nat.mul_le_mul_right _ (fpUnitsOf_lt_iff (f := .f32).2 h).le) (by decide +kernel)
  · rw [fpReal_sign a, show fmtUnitExp .f32 = 149 from rfl, show fmtUnitExp .f64 = 1074 from rfl,
      show (2 : ℝ) ^ 1074 = 2 ^ 149 * 2 ^ 925 by rw [← pow_add], Nat.cast_mul, Nat.cast_pow, Nat.cast_ofNat,
      mul_div_assoc]
    have h1 : (0 : ℝ) < 2 ^ 925 := by positivity
    generalize (2 : ℝ) ^ 925 = Q at *
    congr 1
    field_simp

/-! Complex products. -/

theorem cxVal_eq {f : Fmt} (z : Cx f) : cxVal z = { re := fpReal z.re, im := fpReal z.im } := rfl

theorem norm_le_sqrt2 {z : ℂ} {e : ℝ} (hr : |z.re| ≤ e) (hi : |z.im| ≤ e) : ‖z‖ ≤ 3 / 2 * e := by
  have he : 0 ≤ e := (abs_nonneg _).trans hr
  rw [Complex.norm_def, Real.sqrt_le_iff]
  refine ⟨by positivity, ?_⟩
  rw [Complex.normSq_apply]
  have h1 := sq_le_sq' (abs_le.1 hr).1 (abs_le.1 hr).2
  have h2 := sq_le_sq' (abs_le.1 hi).1 (abs_le.1 hi).2
  nlinarith

theorem cross_le (a b c d : ℝ) : |a * c| + |b * d| ≤ ‖(⟨a, b⟩ : ℂ)‖ * ‖(⟨c, d⟩ : ℂ)‖ := by
  rw [Complex.norm_def, Complex.norm_def, ← Real.sqrt_mul (Complex.normSq_nonneg _)]
  apply Real.le_sqrt_of_sq_le
  rw [Complex.normSq_apply, Complex.normSq_apply, abs_mul, abs_mul]
  have h1 := sq_abs a
  have h2 := sq_abs b
  have h3 := sq_abs c
  have h4 := sq_abs d
  nlinarith [sq_nonneg (|a| * |d| - |b| * |c|)]

/-- Two rounded products, then their rounded sum or difference. -/
theorem two_products {u e x y x' y' z P : ℝ} (hu : 0 ≤ u) (hu' : u ≤ 1 / 2 ^ 24) (he : 0 ≤ e) (hP : |x| + |y| ≤ P)
    (hx : |x' - x| ≤ u * |x| + e) (hy : |y' - y| ≤ u * |y| + e) :
    |x' + y'| ≤ P * (1 + u) + 2 * e ∧
      (|z - (x' + y')| ≤ u * |x' + y'| + e → |z - (x + y)| ≤ 33 / 16 * u * P + 4 * e) := by
  have hx0 := abs_nonneg x
  have hy0 := abs_nonneg y
  have h1 : |x' + y' - (x + y)| ≤ u * P + 2 * e := by
    have := abs_add_le (x' - x) (y' - y)
    rw [show x' - x + (y' - y) = x' + y' - (x + y) by ring] at this
    nlinarith
  have h2 : |x' + y'| ≤ P * (1 + u) + 2 * e := by
    have := abs_add_le (x' + y' - (x + y)) (x + y)
    rw [sub_add_cancel] at this
    have := abs_add_le x y
    linarith
  refine ⟨h2, fun hz => ?_⟩
  have := abs_add_le (z - (x' + y')) (x' + y' - (x + y))
  rw [sub_add_sub_cancel] at this
  have hP0 : 0 ≤ P := by linarith
  nlinarith [mul_nonneg hu hP0, mul_nonneg hu he]

/-- Only finite operands have a finite complex product, and it is the exact product within three roundings a part. -/
theorem cmul_error {f : Fmt} {z x : Cx f} (h : cxFinite (cmul z x)) :
    cxFinite z ∧ cxFinite x ∧
      ‖cxVal (cmul z x) - cxVal z * cxVal x‖ ≤ 13 / 4 * uOf f * (‖cxVal z‖ * ‖cxVal x‖) + 6 * etaOf f := by
  obtain ⟨hre, him⟩ := h
  obtain ⟨a1, a2⟩ := finite_of_fsub hre
  obtain ⟨b1, b2⟩ := finite_of_fadd him
  obtain ⟨zr, xr⟩ := finite_of_fmul a1
  obtain ⟨zi, xi⟩ := finite_of_fmul a2
  refine ⟨⟨zr, zi⟩, ⟨xr, xi⟩, ?_⟩
  have hu := (uOf_pos f).le
  have hu' := uOf_le f
  have he := (etaOf_pos f).le
  set P := ‖cxVal z‖ * ‖cxVal x‖ with hPdef
  have c1 : |fpReal z.re * fpReal x.re| + |-(fpReal z.im * fpReal x.im)| ≤ P := by
    rw [abs_neg]; exact cross_le _ _ _ _
  have c2 : |fpReal z.re * fpReal x.im| + |fpReal z.im * fpReal x.re| ≤ P := by
    have := cross_le (fpReal z.re) (fpReal z.im) (fpReal x.im) (fpReal x.re)
    refine this.trans (le_of_eq ?_)
    rw [hPdef, cxVal_eq, cxVal_eq]; congr 1
    rw [Complex.norm_def, Complex.norm_def, Complex.normSq_apply, Complex.normSq_apply, add_comm]
  have e1 : |(cxVal (cmul z x) - cxVal z * cxVal x).re| ≤ 33 / 16 * uOf f * P + 4 * etaOf f := by
    have := (two_products (z := fpReal (cmul z x).re) hu hu' he c1 (fmul_error a1)
      (y' := -fpReal (fmul z.im x.im)) (by
        have := fmul_error a2
        rw [abs_neg, ← abs_neg]; convert this using 2; ring)).2 (by
        have := fsub_error hre
        rwa [← sub_eq_add_neg])
    simpa [cxVal_eq, sub_eq_add_neg] using this
  have e2 : |(cxVal (cmul z x) - cxVal z * cxVal x).im| ≤ 33 / 16 * uOf f * P + 4 * etaOf f := by
    have := (two_products (z := fpReal (cmul z x).im) hu hu' he c2 (fmul_error b1) (fmul_error b2)).2 (fadd_error him)
    simpa [cxVal_eq, sub_eq_add_neg] using this
  have hP0 : 0 ≤ uOf f * P := by positivity
  refine (norm_le_sqrt2 e1 e2).trans ?_
  linarith

/-- A complex product whose exact value is well below the format's end is finite. -/
theorem cmul_stays {f : Fmt} {z x : Cx f} (hz : cxFinite z) (hx : cxFinite x)
    (h : 2 * (‖cxVal z‖ * ‖cxVal x‖) ≤ formatEnd f) : cxFinite (cmul z x) := by
  have hu := (uOf_pos f).le
  have hu' := uOf_le f
  have he := (etaOf_pos f).le
  have he' := etaOf_le f
  have hb := formatEnd_big f
  set P := ‖cxVal z‖ * ‖cxVal x‖ with hPdef
  have hP0 : 0 ≤ P := by positivity
  have c1 : |fpReal z.re * fpReal x.re| + |-(fpReal z.im * fpReal x.im)| ≤ P := by
    rw [abs_neg]; exact cross_le _ _ _ _
  have c2 : |fpReal z.re * fpReal x.im| + |fpReal z.im * fpReal x.re| ≤ P := by
    have := cross_le (fpReal z.re) (fpReal z.im) (fpReal x.im) (fpReal x.re)
    refine this.trans (le_of_eq ?_)
    rw [hPdef, cxVal_eq, cxVal_eq]; congr 1
    rw [Complex.norm_def, Complex.norm_def, Complex.normSq_apply, Complex.normSq_apply, add_comm]
  have hlt : P < formatEnd f := by nlinarith
  rw [abs_neg] at c1
  have a1 := fmul_stays hz.1 hx.1 (by have := abs_nonneg (fpReal z.im * fpReal x.im); linarith)
  have a2 := fmul_stays hz.2 hx.2 (by have := abs_nonneg (fpReal z.re * fpReal x.re); linarith)
  have b1 := fmul_stays hz.1 hx.2 (by have := abs_nonneg (fpReal z.im * fpReal x.re); linarith)
  have b2 := fmul_stays hz.2 hx.1 (by have := abs_nonneg (fpReal z.re * fpReal x.im); linarith)
  have hbound : P * (1 + uOf f) + 2 * etaOf f < formatEnd f := by nlinarith
  constructor
  · apply fsub_stays a1 a2
    have := (two_products (z := 0) (P := P) hu hu' he (by rw [abs_neg]; exact c1) (fmul_error a1)
      (y' := -fpReal (fmul z.im x.im)) (y := -(fpReal z.im * fpReal x.im)) (by
        have := fmul_error a2
        rw [abs_neg, ← abs_neg]; convert this using 2; ring)).1
    rw [← sub_eq_add_neg] at this
    exact this.trans_lt hbound
  · exact fadd_stays b1 b2 ((two_products (z := 0) hu hu' he c2 (fmul_error b1) (fmul_error b2)).1.trans_lt hbound)



/-! Trigonometry. -/

/-- A pattern has a value within 2^−p of any real number of at most 1. -/
theorem exists_near {f : Fmt} {x : ℝ} (hx : |x| ≤ 1) : ∃ c : Fp f, fpMag c < fmtInfMag f ∧ |fpReal c - x| ≤ uOf f := by
  set m := ⌊|x| * 2 ^ (fmtFrac f + 1)⌋₊ with hm
  have hp : (0 : ℝ) < 2 ^ (fmtFrac f + 1) := by positivity
  have h1 : (m : ℝ) ≤ |x| * 2 ^ (fmtFrac f + 1) := Nat.floor_le (by positivity)
  have h2 : |x| * 2 ^ (fmtFrac f + 1) < m + 1 := Nat.lt_floor_add_one _
  have hm1 : m ≤ 2 ^ (fmtFrac f + 1) := by
    have : (m : ℝ) ≤ 2 ^ (fmtFrac f + 1) := h1.trans (by nlinarith)
    exact_mod_cast this
  have hE : fmtFrac f + 1 ≤ fmtUnitExp f := by cases f <;> decide
  obtain ⟨e, he⟩ : ∃ e, fmtUnitExp f = fmtFrac f + 1 + e := ⟨_, (Nat.add_sub_cancel' hE).symm⟩
  have hd : 2 ^ max 0 (Nat.log2 (m * 2 ^ e) - fmtFrac f) ∣ m * 2 ^ e := by
    rw [Nat.zero_max]
    by_cases h0 : m = 0
    · rw [h0]; simp
    rcases hm1.lt_or_eq with hl | hl
    · refine Nat.dvd_trans (pow_dvd_pow 2 ?_) (Nat.dvd_mul_left _ _)
      rw [Nat.mul_comm, log2_mul_two_pow h0]
      have : Nat.log2 m < fmtFrac f + 1 := (Nat.log2_lt h0).2 hl
      omega
    · rw [hl, ← Nat.pow_add]
      refine pow_dvd_pow 2 ?_
      rw [Nat.log2_two_pow]; omega
  have hv := fpRound_value (f := f) (q := 0) hd (by
    rw [Nat.pow_zero, Nat.one_mul]
    refine (Nat.mul_le_mul_right _ hm1).trans ?_
    rw [← Nat.pow_add, ← he]
    cases f <;> decide +kernel)
  rw [Nat.pow_zero, Nat.one_mul] at hv
  refine ⟨fpPack f (decide (x < 0)) (fpRound f (m * 2 ^ e) 0), ?_, ?_⟩
  · rw [fpMag_fpPack (fpRound_lt _ _ _), ← fpUnitsOf_lt_iff (f := f), hv]
    refine Nat.lt_of_le_of_lt (Nat.mul_le_mul_right _ hm1) ?_
    rw [← Nat.pow_add, ← he]
    cases f <;> decide +kernel
  · rw [fpReal_fpPack (fpRound_lt _ _ _), hv, he, pow_add _ (fmtFrac f + 1) e, uOf_eq]
    push_cast
    have hQ : (0 : ℝ) < 2 ^ e := by positivity
    generalize (2 : ℝ) ^ e = Q at *
    generalize (2 : ℝ) ^ (fmtFrac f + 1) = P at *
    have hval : (m : ℝ) * Q / (P * Q) = m / P := by field_simp
    have key : |(|x|) - m / P| ≤ 1 / P := by
      rw [abs_le]
      have : (m : ℝ) / P ≤ |x| := by rw [div_le_iff₀ hp]; exact h1
      have : |x| < m / P + 1 / P := by rw [← add_div, lt_div_iff₀ hp]; exact h2
      constructor <;> linarith [one_div_pos.2 hp]
    by_cases hn : x < 0
    · rw [if_pos (by simpa using hn)]
      rw [abs_of_neg hn] at key
      rw [mul_div_assoc, hval, show -1 * ((m : ℝ) / P) - x = -x - m / P by ring]; exact key
    · rw [if_neg (by simpa using hn)]
      rw [abs_of_nonneg (not_lt.1 hn)] at key
      rw [mul_div_assoc, hval, one_mul, abs_sub_comm]; exact key

/-- A correctly rounded value of at most 1 has an error of at most 2^−p. -/
theorem RoundsTo.error {f : Fmt} {x : ℝ} {b : Fp f} (h : RoundsTo f x b) (hx : |x| ≤ 1) :
    |fpReal b - x| ≤ uOf f := by
  obtain ⟨c, hc, hcx⟩ := exists_near (f := f) hx
  exact ((h.2 c hc).1).trans hcx

/-- A correctly rounded phasor lies within three halves of the unit roundoff of the unit circle's point. -/
theorem phasor_error {f : Fmt} {x : Fp f} (h : TrigCRAt f x) :
    cxFinite (phasor f x) ∧ ‖cxVal (phasor f x) - Complex.exp (fpReal x * Complex.I)‖ ≤ 3 / 2 * uOf f := by
  refine ⟨⟨h.1.1, h.2.1⟩, norm_le_sqrt2 ?_ ?_⟩
  · rw [Complex.sub_re, Complex.exp_ofReal_mul_I_re]; exact h.1.error (Real.abs_cos_le_one _)
  · rw [Complex.sub_im, Complex.exp_ofReal_mul_I_im]; exact h.2.error (Real.abs_sin_le_one _)

/-! Angles. -/

/-- The error of 2π·freq in unit roundoffs. -/
noncomputable def stepError : Fmt → ℝ
  | .f32 => 156 / 10
  | .f64 => 86 / 10

theorem twoPi_int64 : fpInt (f := .f64) (twoPi .f64) = 7074237752028440 * 2 ^ 1024 := by decide +kernel
theorem twoPi_int32 : fpInt (f := .f32) (twoPi .f32) = 13176795 * 2 ^ 128 := by decide +kernel

theorem twoPi_real64 : fpReal (twoPi .f64) = 7074237752028440 / 2 ^ 50 := by
  rw [fpReal_eq, twoPi_int64, show fmtUnitExp .f64 = 1024 + 50 from rfl, pow_add]
  push_cast
  have h : (0 : ℝ) < 2 ^ 1024 := by positivity
  generalize (2 : ℝ) ^ 1024 = P at *
  field_simp

theorem twoPi_real32 : fpReal (twoPi .f32) = 13176795 / 2 ^ 21 := by
  rw [fpReal_eq, twoPi_int32, show fmtUnitExp .f32 = 128 + 21 from rfl, pow_add]
  norm_num

theorem twoPi_error64 : |fpReal (twoPi .f64) - 2 * Real.pi| ≤ 23 / 10 * uOf .f64 := by
  have h1 := Real.pi_gt_d20
  have h2 := Real.pi_lt_d20
  rw [twoPi_real64, uOf_eq, show fmtFrac .f64 = 52 from rfl, abs_le]
  constructor <;> norm_num at * <;> linarith

theorem twoPi_error32 : |fpReal (twoPi .f32) - 2 * Real.pi| ≤ 3 * uOf .f32 := by
  have h1 := Real.pi_gt_d20
  have h2 := Real.pi_lt_d20
  rw [twoPi_real32, uOf_eq, show fmtFrac .f32 = 23 from rfl, abs_le]
  constructor <;> norm_num at * <;> linarith

theorem twoPi_finite (f : Fmt) : fpMag (twoPi f) < fmtInfMag f := by cases f <;> decide +kernel

/-- A valid frequency is finite and in [0, 1). -/
theorem validFreq_range {b : Fp .f64} (h : validFreq b = true) :
    fpMag b < fmtInfMag .f64 ∧ 0 ≤ fpReal b ∧ fpReal b < 1 := by
  have h1 : fpInt (f := .f64) (fpOne .f64) = 2 ^ 1074 := by decide +kernel
  have hz : fpInt (f := .f64) (0#64) = 0 := by decide
  simp only [validFreq, fge, fltLt, Bool.and_eq_true, Bool.not_eq_true', decide_eq_true_eq, hz, h1] at h
  obtain ⟨⟨⟨hn, -⟩, h0⟩, -, hlt⟩ := h
  refine ⟨?_, ?_, ?_⟩
  · by_contra hc
    have hge : fpMag b = fmtInfMag .f64 := by rw [fpIsNaN, decide_eq_false_iff_not] at hn; omega
    have hu : (2 : Int) ^ 1074 ≤ fpUnits (f := .f64) b := by
      rw [fpUnits, hge]; decide +kernel
    rw [fpInt] at h0 hlt
    split at h0
    · have : (0 : Int) < 2 ^ 1074 := by positivity
      omega
    · rename_i hneg
      rw [if_neg hneg] at hlt; omega
  · rw [fpReal_eq]; positivity
  · rw [fpReal_eq, div_lt_one (by positivity)]
    exact_mod_cast hlt

theorem flt_facts (f : Fmt) : ∀ n, n ≤ 8 → fpMag (flt f n) < fmtInfMag f ∧ fpInt (flt f n) = n * 2 ^ fmtUnitExp f := by
  cases f <;> decide +kernel

theorem flt_real {f : Fmt} {n : Nat} (h : n ≤ 8) : fpReal (flt f n) = n := by
  rw [fpReal_eq, (flt_facts f n h).2]
  push_cast
  have : (0 : ℝ) < 2 ^ fmtUnitExp f := by positivity
  field_simp

/-- An argument converted to the tones' format (40_numerics.md R137). -/
theorem toFmt_error {U : Fmt} {b : Fp .f64} (h : fpMag (toFmt U b) < fmtInfMag U) :
    |fpReal (toFmt U b) - fpReal b| ≤ uOf U * |fpReal b| + etaOf U := by
  cases U with
  | f32 => exact cvt6432_error h
  | f64 =>
    have h1 := (uOf_pos .f64).le
    have h2 := (etaOf_pos .f64).le
    have h3 := mul_nonneg h1 (abs_nonneg (fpReal b))
    simp only [toFmt, sub_self, abs_zero]; linarith

/-- The rounded 2π·freq (40_numerics.md R139). -/
theorem angularStep_error {U : Fmt} {freq : Fp .f64} (h : validFreq freq = true) :
    fpMag (angularStep U freq) < fmtInfMag U ∧
      |fpReal (angularStep U freq) - 2 * Real.pi * fpReal freq| ≤ stepError U * uOf U := by
  obtain ⟨hf, h0, h1⟩ := validFreq_range h
  have hu := uOf_pos U
  have hu' := uOf_le U
  have he := etaOf_pos U
  have he' := etaOf_le U
  have hb := formatEnd_big U
  have hpi := Real.pi_gt_d20
  have hpi' := Real.pi_lt_d20
  have hb2 : (16 : ℝ) < formatEnd U := lt_of_lt_of_le (by norm_num) hb
  have hconv : fpMag (toFmt U freq) < fmtInfMag U := by
    cases U with
    | f32 => exact cvt6432_stays hf (by rw [abs_of_nonneg h0]; linarith)
    | f64 => exact hf
  have hcv := toFmt_error hconv
  rw [abs_of_nonneg h0] at hcv
  set F := fpReal (toFmt U freq) with hF
  set g := fpReal freq with hg
  set p := fpReal (twoPi U) with hp
  -- the converted frequency
  have hF2 : |F| ≤ 1 + 2 * uOf U := by
    have := abs_le.1 hcv
    rw [abs_le]; constructor <;> nlinarith
  have hpp : |p - 2 * Real.pi| ≤ 3 * uOf U := by
    cases U with
    | f32 => exact twoPi_error32
    | f64 => exact twoPi_error64.trans (by linarith)
  have hp2 : 0 ≤ p ∧ p ≤ 6.2832 := by
    have := abs_le.1 hpp
    constructor <;> norm_num at * <;> linarith
  have hprod : |p * F| ≤ 6.2832 * (1 + 2 * uOf U) := by
    rw [abs_mul, abs_of_nonneg hp2.1]
    exact mul_le_mul hp2.2 hF2 (abs_nonneg _) (by norm_num)
  have hst := fmul_stays (twoPi_finite U) hconv (lt_of_le_of_lt hprod (by norm_num at *; linarith))
  refine ⟨hst, ?_⟩
  have herr := fmul_error hst
  rw [← hp, ← hF] at herr
  have e1 : |fpReal (angularStep U freq) - 2 * Real.pi * g| ≤
      (uOf U * |p * F| + etaOf U) + |p - 2 * Real.pi| * |F| + 2 * Real.pi * |F - g| := by
    have : fpReal (angularStep U freq) - 2 * Real.pi * g =
        (fpReal (angularStep U freq) - p * F) + (p - 2 * Real.pi) * F + 2 * Real.pi * (F - g) := by ring
    rw [this]
    refine (abs_add_le _ _).trans (add_le_add ((abs_add_le _ _).trans (add_le_add herr (abs_mul _ _).le)) ?_)
    rw [abs_mul, abs_of_nonneg (by positivity : (0 : ℝ) ≤ 2 * Real.pi)]
  have huu : uOf U * uOf U ≤ uOf U / 2 ^ 24 := by nlinarith
  have hm1 : uOf U * |p * F| ≤ uOf U * (6.2832 * (1 + 2 * uOf U)) := mul_le_mul_of_nonneg_left hprod hu.le
  have hm3 : 2 * Real.pi * |F - g| ≤ 6.2832 * |F - g| := by
    apply mul_le_mul_of_nonneg_right _ (abs_nonneg _); norm_num at *; linarith
  cases U with
  | f64 =>
    have hz : F - g = 0 := by simp [hF, hg, toFmt]
    have hm2 : |p - 2 * Real.pi| * |F| ≤ 23 / 10 * uOf .f64 * (1 + 2 * uOf .f64) :=
      mul_le_mul twoPi_error64 hF2 (abs_nonneg _) (by positivity)
    rw [hz, abs_zero, mul_zero] at e1
    simp only [stepError]
    norm_num at *
    linarith
  | f32 =>
    have hm2 : |p - 2 * Real.pi| * |F| ≤ 3 * uOf .f32 * (1 + 2 * uOf .f32) :=
      mul_le_mul twoPi_error32 hF2 (abs_nonneg _) (by positivity)
    have hm4 : |F - g| ≤ uOf .f32 + etaOf .f32 := hcv.trans (by nlinarith)
    simp only [stepError]
    norm_num at *
    linarith

/-- A multiple of 2π·freq (40_numerics.md R139). -/
theorem multiple_error {U : Fmt} {freq : Fp .f64} {n : Nat} (h : validFreq freq = true) (hn : n ≤ 8) :
    fpMag (fmul (flt U n) (angularStep U freq)) < fmtInfMag U ∧
      |fpReal (fmul (flt U n) (angularStep U freq)) - 2 * Real.pi * fpReal freq * n| ≤
        (angleError U : ℝ) * n * uOf U + etaOf U := by
  obtain ⟨hf, h0, h1⟩ := validFreq_range h
  obtain ⟨hw, hwe⟩ := angularStep_error (U := U) h
  have hu := uOf_pos U
  have hu' := uOf_le U
  have hb2 : (64 : ℝ) < formatEnd U := lt_of_lt_of_le (by norm_num) (formatEnd_big U)
  have hpi' := Real.pi_lt_d20
  have hpi := Real.pi_pos
  have hnr : (n : ℝ) ≤ 8 := by exact_mod_cast hn
  have hn0 : (0 : ℝ) ≤ n := by positivity
  set w := fpReal (angularStep U freq) with hwd
  have hse : stepError U ≤ 16 := by cases U <;> norm_num [stepError]
  have hw2 : |w| ≤ 6.2833 := by
    have h2 : |2 * Real.pi * fpReal freq| ≤ 6.2832 := by
      rw [abs_of_nonneg (by positivity)]; norm_num at *; nlinarith
    have := abs_add_le (w - 2 * Real.pi * fpReal freq) (2 * Real.pi * fpReal freq)
    rw [sub_add_cancel] at this
    norm_num at *
    nlinarith
  have hprod : |fpReal (flt U n) * w| ≤ n * 6.2833 := by
    rw [flt_real hn, abs_mul, abs_of_nonneg hn0]
    exact mul_le_mul_of_nonneg_left hw2 hn0
  have hst := fmul_stays (flt_facts U n hn).1 hw
    (lt_of_le_of_lt hprod (lt_of_le_of_lt (mul_le_mul_of_nonneg_right hnr (by norm_num)) (by norm_num at hb2 ⊢; linarith)))
  refine ⟨hst, ?_⟩
  have herr := fmul_error hst
  rw [← hwd] at herr
  have : fpReal (fmul (flt U n) (angularStep U freq)) - 2 * Real.pi * fpReal freq * n =
      (fpReal (fmul (flt U n) (angularStep U freq)) - fpReal (flt U n) * w) + n * (w - 2 * Real.pi * fpReal freq) := by
    rw [flt_real hn]; ring
  rw [this]
  refine (abs_add_le _ _).trans ?_
  rw [abs_mul, abs_of_nonneg hn0]
  have h3 := mul_le_mul_of_nonneg_left hwe hn0
  have h4 := mul_le_mul_of_nonneg_left hprod hu.le
  have hA : stepError U + 6.2833 ≤ (angleError U : ℝ) := by cases U <;> norm_num [stepError, angleError]
  have h5 := mul_le_mul_of_nonneg_right hA (mul_nonneg hn0 hu.le)
  linarith

/-- The step's angle (40_numerics.md R139). -/
theorem stepAngle_error {U : Fmt} {freq : Fp .f64} {n : Nat} (h : validFreq freq = true) (hn : n ≤ 8) :
    |fpReal (stepAngle U freq n) - 2 * Real.pi * fpReal freq * n| ≤ (angleError U : ℝ) * n * uOf U + etaOf U := by
  rw [stepAngle, fmul_comm]; exact (multiple_error h hn).2

/-- A tone's angle (40_numerics.md R139), for a start phase that is finite in the tones' format. -/
theorem angle_error {U : Fmt} {freq phase : Fp .f64} {k : Nat} (h : validFreq freq = true) (hk : k < 8)
    (hp : fpMag (toFmt U phase) < fmtInfMag U) :
    fpMag (angle U freq phase k) < fmtInfMag U ∧
      |fpReal (angle U freq phase k) - (fpReal phase + 2 * Real.pi * fpReal freq * k)| ≤
        uOf U * (3 * |fpReal phase| + 200) := by
  obtain ⟨hx, hxe⟩ := multiple_error (U := U) h (show k ≤ 8 by omega)
  obtain ⟨hf, h0, h1⟩ := validFreq_range h
  have hpe := toFmt_error hp
  have hu := uOf_pos U
  have hu' := uOf_le U
  have he := etaOf_pos U
  have he' := etaOf_le U
  have hk7 : (k : ℝ) ≤ 7 := by exact_mod_cast (show k ≤ 7 by omega)
  have hk0 : (0 : ℝ) ≤ k := by positivity
  have hA : (angleError U : ℝ) ≤ 22 := by cases U <;> norm_num [angleError]
  have hA0 : (0 : ℝ) ≤ angleError U := by cases U <;> norm_num [angleError]
  have hAk : (angleError U : ℝ) * k ≤ 154 := by nlinarith
  have hAku := mul_le_mul_of_nonneg_right hAk hu.le
  have hpi := Real.pi_pos
  have hpi' : Real.pi ≤ 3.1416 := by have := Real.pi_lt_d20; norm_num at *; linarith
  set x := fpReal (fmul (flt U k) (angularStep U freq)) with hxd
  set p := fpReal (toFmt U phase) with hpd
  set φ := fpReal phase with hφ
  have hexact : |2 * Real.pi * fpReal freq * k| ≤ 43.9824 := by
    rw [abs_of_nonneg (by positivity)]
    have a1 : 2 * Real.pi * fpReal freq ≤ 6.2832 := by nlinarith
    have a2 : 0 ≤ 2 * Real.pi * fpReal freq := by positivity
    nlinarith
  have hx2 : |x| ≤ 44 := by
    have := abs_add_le (x - 2 * Real.pi * fpReal freq * k) (2 * Real.pi * fpReal freq * k)
    rw [sub_add_cancel] at this
    norm_num at *
    linarith
  have hst : fpMag (angle U freq phase k) < fmtInfMag U := by
    apply fadd_stays hp hx
    have := abs_fpReal_lt_formatEnd hp
    rw [← hpd] at this
    refine lt_of_le_of_lt (abs_add_le _ _) ?_
    norm_num at *
    linarith
  refine ⟨hst, ?_⟩
  have herr : |fpReal (angle U freq phase k) - (p + x)| ≤ uOf U * |p + x| + etaOf U := fadd_error hst
  have hp2 : |p| ≤ |φ| * (1 + uOf U) + etaOf U := by
    have := abs_add_le (p - φ) φ
    rw [sub_add_cancel] at this
    linarith
  have hφ0 := abs_nonneg φ
  have hsum : |p + x| ≤ 2 * |φ| + 45 := by
    refine (abs_add_le _ _).trans ?_
    have : |φ| * uOf U ≤ |φ| * 1 := mul_le_mul_of_nonneg_left (by norm_num at *; linarith) hφ0
    norm_num at *
    linarith
  have h2 := mul_le_mul_of_nonneg_left hsum hu.le
  have e : fpReal (angle U freq phase k) - (φ + 2 * Real.pi * fpReal freq * k) =
      (fpReal (angle U freq phase k) - (p + x)) + ((p - φ) + (x - 2 * Real.pi * fpReal freq * k)) := by ring
  rw [e]
  refine (abs_add_le _ _).trans ?_
  have h3 := abs_add_le (p - φ) (x - 2 * Real.pi * fpReal freq * k)
  have hηu : 3 * etaOf U ≤ uOf U := by norm_num at *; linarith
  linarith



/-! The recurrence of the tones. -/

theorem norm_exp_mul_I (a : ℝ) : ‖Complex.exp (a * Complex.I)‖ = 1 := Complex.norm_exp_ofReal_mul_I a

/-- Two points of the unit circle are no further apart than their angles. -/
theorem norm_exp_sub_le (a b : ℝ) : ‖Complex.exp (a * Complex.I) - Complex.exp (b * Complex.I)‖ ≤ |a - b| := by
  have e : Complex.exp (a * Complex.I) - Complex.exp (b * Complex.I) =
      Complex.exp (b * Complex.I) * (Complex.exp (Complex.I * (a - b : ℝ)) - 1) := by
    rw [mul_sub, mul_one, ← Complex.exp_add]; congr 2; push_cast; ring
  rw [e, norm_mul, norm_exp_mul_I, one_mul]
  exact Real.norm_exp_I_mul_ofReal_sub_one_le

/-- The k-th tone after q advances, against the point that its own rounded angle and step angle give: every advance costs
at most six unit roundoffs (40_numerics.md R141, 45_contract_properties.md R256 a). -/
theorem toneAt_drift {U : Fmt} {freq phase : Word64} {n k : Nat} (hk : TrigCRAt U (angle U freq phase k))
    (hs : TrigCRAt U (stepAngle U freq n)) : ∀ q : Nat, 64 * uOf U * (q + 1) ≤ 1 →
    cxFinite (toneAt U freq phase n k q) ∧
      ‖cxVal (toneAt U freq phase n k q) -
        Complex.exp ((fpReal (angle U freq phase k) + q * fpReal (stepAngle U freq n) : ℝ) * Complex.I)‖ ≤
        6 * uOf U * (q + 1) := by
  have hu := uOf_pos U
  have hu' := uOf_le U
  have he := etaOf_pos U
  have he' := etaOf_le U
  intro q
  induction q with
  | zero =>
    intro _
    obtain ⟨h1, h2⟩ := phasor_error hk
    refine ⟨h1, ?_⟩
    simp only [Nat.cast_zero, zero_mul, add_zero, zero_add, mul_one]
    exact h2.trans (by linarith)
  | succ q ih =>
    intro hq
    push_cast at hq
    obtain ⟨hf, hd⟩ := ih (by nlinarith)
    obtain ⟨hsf, hsd⟩ := phasor_error hs
    set t := cxVal (toneAt U freq phase n k q) with ht
    set θ := fpReal (angle U freq phase k)
    set α := fpReal (stepAngle U freq n)
    set r := Complex.exp ((θ + q * α : ℝ) * Complex.I) with hr
    set s := cxVal (phasor U (stepAngle U freq n)) with hsv
    have hr1 : ‖r‖ = 1 := norm_exp_mul_I _
    have hs1 : ‖s‖ ≤ 1 + 3 / 2 * uOf U := by
      have := norm_add_le (s - Complex.exp (α * Complex.I)) (Complex.exp (α * Complex.I))
      rw [sub_add_cancel, norm_exp_mul_I] at this
      linarith
    have hD : 6 * uOf U * (q + 1) ≤ 6 / 64 := by linarith
    have ht1 : ‖t‖ ≤ 1 + 6 / 64 := by
      have := norm_add_le (t - r) r
      rw [sub_add_cancel, hr1] at this
      linarith
    have hts : ‖t‖ * ‖s‖ ≤ (1 + 6 / 64) * (1 + 3 / 2 * uOf U) := mul_le_mul ht1 hs1 (norm_nonneg _) (by norm_num)
    have hfin : cxFinite (toneAt U freq phase n k (q + 1)) := by
      apply cmul_stays hf hsf
      have := formatEnd_big U
      norm_num at *
      linarith
    refine ⟨hfin, ?_⟩
    have herr := (cmul_error hfin).2.2
    have e : cxVal (toneAt U freq phase n k (q + 1)) -
        Complex.exp ((θ + ((q + 1 : ℕ) : ℝ) * α : ℝ) * Complex.I) =
        (cxVal (toneAt U freq phase n k (q + 1)) - t * s) + ((t - r) * s + r * (s - Complex.exp (α * Complex.I))) := by
      have : Complex.exp ((θ + ((q + 1 : ℕ) : ℝ) * α : ℝ) * Complex.I) = r * Complex.exp (α * Complex.I) := by
        rw [hr, ← Complex.exp_add]; congr 1; push_cast; ring
      rw [this]; ring
    rw [e]
    refine (norm_add_le _ _).trans ?_
    have h2 : ‖(t - r) * s + r * (s - Complex.exp (α * Complex.I))‖ ≤
        6 * uOf U * (q + 1) * (1 + 3 / 2 * uOf U) + 3 / 2 * uOf U := by
      refine (norm_add_le _ _).trans (add_le_add ?_ ?_)
      · rw [norm_mul]; exact mul_le_mul hd hs1 (norm_nonneg _) (by positivity)
      · rw [norm_mul, hr1, one_mul]; exact hsd
    have h3 : 13 / 4 * uOf U * (‖t‖ * ‖s‖) ≤ 13 / 4 * uOf U * ((1 + 6 / 64) * (1 + 3 / 2 * uOf U)) :=
      mul_le_mul_of_nonneg_left hts (by positivity)
    have h4 : 6 * uOf U * (q + 1) * (3 / 2 * uOf U) ≤ 6 / 64 * (3 / 2 * uOf U) :=
      mul_le_mul_of_nonneg_right hD (by positivity)
    have huu : uOf U * uOf U ≤ uOf U / 2 ^ 24 := by nlinarith
    push_cast
    have h5 : ‖cxVal (toneAt U freq phase n k (q + 1)) - t * s‖ ≤
        13 / 4 * uOf U * ((1 + 6 / 64) * (1 + 3 / 2 * uOf U)) + 6 * etaOf U := by
      refine le_trans herr ?_
      exact add_le_add_left h3 _
    norm_num at *
    nlinarith

/-- The k-th tone after q advances, against the exact one, `e^(j(2π·freq·(q·n + k) + startPhase))`. -/
theorem toneAt_error {U : Fmt} {freq phase : Word64} {n k q : Nat} (hf : validFreq freq = true)
    (hp : fpMag (toFmt U phase) < fmtInfMag U) (hk8 : k < 8) (hn : n ≤ 8)
    (hk : TrigCRAt U (angle U freq phase k)) (hs : TrigCRAt U (stepAngle U freq n))
    (hq : 64 * uOf U * (q + 1) ≤ 1) :
    cxFinite (toneAt U freq phase n k q) ∧
      ‖cxVal (toneAt U freq phase n k q) -
        Complex.exp ((2 * Real.pi * fpReal (f := .f64) freq * (q * n + k : ℕ) + fpReal (f := .f64) phase : ℝ) * Complex.I)‖ ≤
        uOf U * (q * ((angleError U : ℝ) * n + 6) + 3 * |fpReal (f := .f64) phase| + 210) ∧
      ‖cxVal (toneAt U freq phase n k q)‖ ≤ 1 + 6 / 64 := by
  obtain ⟨h1, h2⟩ := toneAt_drift hk hs q hq
  have hu := uOf_pos U
  have hu' := uOf_le U
  have he := etaOf_pos U
  have he' := etaOf_le U
  have ha := (angle_error hf hk8 hp).2
  have hst := stepAngle_error (U := U) hf hn
  have hq0 : (0 : ℝ) ≤ q := by positivity
  refine ⟨h1, ?_, ?_⟩
  · set θ := fpReal (angle U freq phase k)
    set α := fpReal (stepAngle U freq n)
    set x := 2 * Real.pi * fpReal (f := .f64) freq * (q * n + k : ℕ) + fpReal (f := .f64) phase with hx
    have h3 := norm_exp_sub_le (θ + q * α) x
    have e : θ + q * α - x = (θ - (fpReal (f := .f64) phase + 2 * Real.pi * fpReal (f := .f64) freq * k)) +
        q * (α - 2 * Real.pi * fpReal (f := .f64) freq * n) := by rw [hx]; push_cast; ring
    have h4 : |θ + q * α - x| ≤ uOf U * (3 * |fpReal (f := .f64) phase| + 200) +
        q * ((angleError U : ℝ) * n * uOf U + etaOf U) := by
      rw [e]
      refine (abs_add_le _ _).trans (add_le_add ha ?_)
      rw [abs_mul, abs_of_nonneg hq0]
      exact mul_le_mul_of_nonneg_left hst hq0
    have h5 := norm_add_le (cxVal (toneAt U freq phase n k q) - Complex.exp ((θ + q * α : ℝ) * Complex.I))
      (Complex.exp ((θ + q * α : ℝ) * Complex.I) - Complex.exp (x * Complex.I))
    rw [sub_add_sub_cancel] at h5
    have h6 : q * etaOf U ≤ uOf U := by
      have : q * etaOf U ≤ q * (uOf U / 2 ^ 100) := mul_le_mul_of_nonneg_left he' hq0
      have : q * uOf U ≤ 1 := by nlinarith
      have hp53 : 1 / 2 ^ 53 ≤ uOf U := by cases U <;> simp only [uOf_eq, fmtFrac] <;> norm_num
      norm_num at *
      linarith
    linarith
  · have := norm_add_le (cxVal (toneAt U freq phase n k q) -
      Complex.exp ((fpReal (angle U freq phase k) + q * fpReal (stepAngle U freq n) : ℝ) * Complex.I))
      (Complex.exp ((fpReal (angle U freq phase k) + q * fpReal (stepAngle U freq n) : ℝ) * Complex.I))
    rw [sub_add_cancel, norm_exp_mul_I] at this
    linarith

/-- A tone converted to the sample format (40_numerics.md R138): one rounding when it narrows. -/
theorem cvtTone_error {U T : Fmt} {z : Cx U} (hz : cxFinite z) (h1 : ‖cxVal z‖ ≤ 1 + 6 / 64) :
    cxFinite (cvtTone U T z) ∧ ‖cxVal (cvtTone U T z) - cxVal z‖ ≤ 7 / 4 * uOf T := by
  have hu := uOf_pos T
  have hre : |fpReal z.re| ≤ 1 + 6 / 64 := (Complex.abs_re_le_norm (cxVal z)).trans h1
  have him : |fpReal z.im| ≤ 1 + 6 / 64 := (Complex.abs_im_le_norm (cxVal z)).trans h1
  cases U with
  | f32 =>
    cases T with
    | f32 => exact ⟨hz, by rw [cvtTone, sub_self, norm_zero]; positivity⟩
    | f64 =>
      obtain ⟨a1, a2⟩ := cvt3264_value hz.1
      obtain ⟨b1, b2⟩ := cvt3264_value hz.2
      refine ⟨⟨a1, b1⟩, ?_⟩
      have : cxVal (cvtTone .f32 .f64 z) = cxVal z := by rw [cxVal_eq, cxVal_eq]; simp only [cvtTone, a2, b2]
      rw [this, sub_self, norm_zero]; positivity
  | f64 =>
    cases T with
    | f64 => exact ⟨hz, by rw [cvtTone, sub_self, norm_zero]; positivity⟩
    | f32 =>
      have hb : (2 : ℝ) < formatEnd .f32 := lt_of_lt_of_le (by norm_num) (formatEnd_big .f32)
      have a1 := cvt6432_stays hz.1 (by linarith)
      have b1 := cvt6432_stays hz.2 (by linarith)
      refine ⟨⟨a1, b1⟩, ?_⟩
      have he' := etaOf_le .f32
      have key : ∀ {x y : ℝ}, |x| ≤ 1 + 6 / 64 → |y - x| ≤ uOf .f32 * |x| + etaOf .f32 → |y - x| ≤ 7 / 6 * uOf .f32 := by
        intro x y hx hy
        have := mul_le_mul_of_nonneg_left hx hu.le
        norm_num at *
        linarith
      have := norm_le_sqrt2 (z := cxVal (cvtTone .f64 .f32 z) - cxVal z) (key hre (cvt6432_error a1))
        (key him (cvt6432_error b1))
      linarith

/-- An element times a converted tone, against the element turned by the exact angle: the relative and the absolute
tolerance of `State.tolerance`. -/
theorem cmul_cvtTone_near {U T : Fmt} {freq phase : Word64} {n k q : Nat} {a : Cx T} (hf : validFreq freq = true)
    (hp : fpMag (toFmt U phase) < fmtInfMag U) (hk8 : k < 8) (hn : n ≤ 8)
    (hk : TrigCRAt U (angle U freq phase k)) (hs : TrigCRAt U (stepAngle U freq n))
    (hq : 64 * uOf U * (q + 1) ≤ 1) :
    (cxModerate a → cxFinite (cmul a (cvtTone U T (toneAt U freq phase n k q)))) ∧
    (cxFinite (cmul a (cvtTone U T (toneAt U freq phase n k q))) →
      cxNear (cmul a (cvtTone U T (toneAt U freq phase n k q))) (cxVal a)
        (2 * Real.pi * fpReal (f := .f64) freq * (q * n + k : ℕ) + fpReal (f := .f64) phase)
        (shiftTolerance U T n q (fpVal (f := .f64) phase) : ℚ) (underflowTolerance T : ℚ)) := by
  obtain ⟨h1, h2, h3⟩ := toneAt_error hf hp hk8 hn hk hs hq
  obtain ⟨c1, c2⟩ := cvtTone_error (T := T) h1 h3
  have hu := uOf_pos T
  have hu' := uOf_le T
  set t := cxVal (toneAt U freq phase n k q)
  set t' := cxVal (cvtTone U T (toneAt U freq phase n k q)) with ht'
  have h4 : ‖t'‖ ≤ 1 + 7 / 64 := by
    have := norm_add_le (t' - t) t
    rw [sub_add_cancel] at this
    norm_num at *
    linarith
  constructor
  · intro hm
    have hfin : ∀ {x : Fp T}, fpMag x + 2 * 2 ^ fmtFrac T ≤ fmtInfMag T →
        fpMag x < fmtInfMag T ∧ |fpReal x| ≤ 5 / 18 * formatEnd T := by
      intro x hx
      have hpos : 0 < 2 ^ fmtFrac T := Nat.two_pow_pos _
      refine ⟨by omega, ?_⟩
      have g1 : fpUnits x ≤ fpUnitsOf T (fmtInfMag T - 2 * 2 ^ fmtFrac T) := fpUnitsOf_le_iff.2 (by omega)
      have g2 : 36 * fpUnitsOf T (fmtInfMag T - 2 * 2 ^ fmtFrac T) ≤
          5 * (fpUnitsOf T (fmtInfMag T - 1) + fpUnitsOf T (fmtInfMag T)) := by cases T <;> decide +kernel
      have g3 : 36 * fpUnits x ≤ 5 * (fpUnitsOf T (fmtInfMag T - 1) + fpUnitsOf T (fmtInfMag T)) := by omega
      have g4 : (36 * fpUnits x : ℝ) ≤ 5 * ((fpUnitsOf T (fmtInfMag T - 1) + fpUnitsOf T (fmtInfMag T) : ℕ) : ℝ) := by
        exact_mod_cast g3
      have hE : (0 : ℝ) < 2 ^ fmtUnitExp T := by positivity
      rw [abs_fpReal, formatEnd, pow_succ, div_le_iff₀ hE]
      generalize ((fpUnitsOf T (fmtInfMag T - 1) + fpUnitsOf T (fmtInfMag T) : ℕ) : ℝ) = W at *
      rw [show 5 / 18 * (W / (2 ^ fmtUnitExp T * 2)) * 2 ^ fmtUnitExp T = 5 / 36 * W by field_simp; ring]
      linarith
    obtain ⟨r1, r2⟩ := hfin hm.1
    obtain ⟨i1, i2⟩ := hfin hm.2
    apply cmul_stays ⟨r1, i1⟩ c1
    have hn := norm_le_sqrt2 (z := cxVal a) r2 i2
    have hend : 0 < formatEnd T := lt_of_lt_of_le (by norm_num) (formatEnd_big T)
    have := mul_le_mul hn h4 (norm_nonneg _) (by positivity)
    nlinarith
  · intro hfin
    obtain ⟨-, -, herr⟩ := cmul_error hfin
    set x := 2 * Real.pi * fpReal (f := .f64) freq * (q * n + k : ℕ) + fpReal (f := .f64) phase
    set A := cxVal a
    have hA := norm_nonneg A
    have e : cxVal (cmul a (cvtTone U T (toneAt U freq phase n k q))) - A * Complex.exp (x * Complex.I) =
        (cxVal (cmul a (cvtTone U T (toneAt U freq phase n k q))) - A * t') +
          A * ((t' - t) + (t - Complex.exp (x * Complex.I))) := by ring
    have h5 : ‖A * ((t' - t) + (t - Complex.exp (x * Complex.I)))‖ ≤ ‖A‖ * (7 / 4 * uOf T +
        uOf U * (q * ((angleError U : ℝ) * n + 6) + 3 * |fpReal (f := .f64) phase| + 210)) := by
      rw [norm_mul]
      exact mul_le_mul_of_nonneg_left ((norm_add_le _ _).trans (add_le_add c2 h2)) hA
    have h6 : 13 / 4 * uOf T * (‖A‖ * ‖t'‖) ≤ 13 / 4 * uOf T * (‖A‖ * (1 + 7 / 64)) :=
      mul_le_mul_of_nonneg_left (mul_le_mul_of_nonneg_left h4 hA) (by positivity)
    have htol : ((shiftTolerance U T n q (fpVal (f := .f64) phase) : ℚ) : ℝ) =
        uOf U * (q * ((angleError U : ℝ) * n + 6) + 3 * |fpReal (f := .f64) phase| + 210) + 6 * uOf T := by
      simp only [shiftTolerance, uOf, fpReal]; push_cast; rfl
    have habs : ((underflowTolerance T : ℚ) : ℝ) = 8 * etaOf T := by
      simp only [underflowTolerance, etaOf, pow_succ]; push_cast
      have hE : (0 : ℝ) < 2 ^ fmtUnitExp T := by positivity
      field_simp; norm_num
    rw [cxNear, htol, habs, e]
    refine (norm_add_le _ _).trans ?_
    have he := etaOf_pos T
    have h7 := mul_nonneg hu.le hA
    nlinarith



/-! TrigCR can be met: every real number rounds to some pattern. -/

/-- The value of a signed magnitude in units. -/
def signedUnits (f : Fmt) (k : ℤ) : ℤ := if k < 0 then -(fpUnitsOf f k.natAbs : ℤ) else fpUnitsOf f k.natAbs

theorem signedUnits_lt {f : Fmt} {k l : ℤ} (h : k < l) : signedUnits f k < signedUnits f l := by
  unfold signedUnits
  split_ifs with h1 h2 h2
  · have : fpUnitsOf f l.natAbs < fpUnitsOf f k.natAbs := fpUnitsOf_lt_iff.2 (by omega)
    omega
  · have : 0 < fpUnitsOf f k.natAbs := Nat.pos_of_ne_zero fun h => by rw [fpUnitsOf_eq_zero] at h; omega
    omega
  · omega
  · have : fpUnitsOf f k.natAbs < fpUnitsOf f l.natAbs := fpUnitsOf_lt_iff.2 (by omega)
    omega

/-- The signed magnitude of a pattern. -/
def signedMag {f : Fmt} (b : Fp f) : ℤ := if fpNeg b then -(fpMag b : ℤ) else fpMag b

theorem fpInt_signedMag {f : Fmt} (b : Fp f) : fpInt b = signedUnits f (signedMag b) := by
  rw [fpInt, signedUnits, signedMag, fpUnits]
  cases hn : fpNeg b <;> simp
  intro h; rw [h]; simp

theorem exists_signedMag {f : Fmt} {k : ℤ} (h : k.natAbs < fmtInfMag f) : ∃ c : Fp f, fpMag c = k.natAbs ∧ signedMag c = k := by
  have hlt : k.natAbs < 2 ^ (f.width - 1) := h.trans (fmtInfMag_lt f)
  refine ⟨fpPack f (decide (k < 0)) k.natAbs, fpMag_fpPack hlt, ?_⟩
  rw [signedMag, fpNeg_fpPack hlt, fpMag_fpPack hlt]
  by_cases hk : k < 0
  · rw [if_pos (by simpa using hk)]; omega
  · rw [if_neg (by simpa using hk)]; omega

/-- Every real number has a finite pattern it rounds to, to nearest, ties to even. -/
theorem exists_roundsTo (f : Fmt) (x : ℝ) : ∃ b : Fp f, RoundsTo f x b := by
  have hfin : {b : Fp f | fpMag b < fmtInfMag f}.Finite :=
    Set.Finite.subset ((Set.finite_lt_nat (2 ^ f.width)).preimage (f := BitVec.toNat)
      fun a _ b _ h => BitVec.eq_of_toNat_eq h) fun b _ => b.isLt
  have hne : {b : Fp f | fpMag b < fmtInfMag f}.Nonempty :=
    ⟨fpPack f false 0, show fpMag _ < _ by rw [fpMag_fpPack (Nat.two_pow_pos _)]; cases f <;> decide⟩
  obtain ⟨b, hb, hmin⟩ := Set.exists_min_image _ (fun b : Fp f => toLex (|fpReal b - x|, fpMag b % 2)) hfin hne
  have hle : ∀ c : Fp f, fpMag c < fmtInfMag f → |fpReal b - x| ≤ |fpReal c - x| := fun c hc => by
    have := (Prod.Lex.toLex_le_toLex.1 (hmin c hc))
    rcases this with h | h
    · exact h.le
    · exact h.1.le
  refine ⟨b, hb, fun c hc => ⟨hle c hc, fun he => ?_⟩⟩
  by_contra hcon
  rw [not_or] at hcon
  have hpar : fpMag b % 2 ≤ fpMag c % 2 := by
    have := (Prod.Lex.toLex_le_toLex.1 (hmin c hc))
    rcases this with h | h
    · exact absurd he h.ne
    · exact h.2
  have hmag : ∀ d : Fp f, (signedMag d).natAbs = fpMag d := fun d => by unfold signedMag; split <;> simp
  have hne' : signedMag b ≠ signedMag c := fun h => hcon.1 (by rw [fpVal, fpVal, fpInt_signedMag, fpInt_signedMag, h])
  have hval : ∀ d e : Fp f, signedMag d < signedMag e → fpReal d < fpReal e := fun d e h => by
    rw [fpReal_eq, fpReal_eq, fpInt_signedMag, fpInt_signedMag]
    have := signedUnits_lt (f := f) h
    exact div_lt_div_of_pos_right (by exact_mod_cast this) (by positivity)
  have hb' : fpMag b < fmtInfMag f := hb
  have mb := hmag b
  have mc := hmag c
  -- a pattern strictly between the two would be nearer
  have key : ∀ k : ℤ, (signedMag b < k ∧ k < signedMag c) ∨ (signedMag c < k ∧ k < signedMag b) → False := by
    intro k hk
    obtain ⟨d, hd, hdk⟩ := exists_signedMag (f := f) (k := k) (by omega)
    have hdf := hle d (by omega)
    rcases hk with ⟨h1, h2⟩ | ⟨h1, h2⟩
    · have v1 := hval b d (by omega)
      have v2 := hval d c (by omega)
      change |fpReal b - x| = |fpReal c - x| at he
      rcases abs_cases (fpReal b - x) with g | g <;> rcases abs_cases (fpReal c - x) with g' | g' <;>
        rcases abs_cases (fpReal d - x) with g'' | g'' <;> linarith
    · have v1 := hval c d (by omega)
      have v2 := hval d b (by omega)
      change |fpReal b - x| = |fpReal c - x| at he
      rcases abs_cases (fpReal b - x) with g | g <;> rcases abs_cases (fpReal c - x) with g' | g' <;>
        rcases abs_cases (fpReal d - x) with g'' | g'' <;> linarith
  rcases lt_or_gt_of_ne hne' with h | h
  · exact key (signedMag b + 1) (.inl ⟨by omega, by omega⟩)
  · exact key (signedMag c + 1) (.inr ⟨by omega, by omega⟩)

/-- A pattern with the value itself is what the value rounds to. -/
theorem RoundsTo.of_eq {f : Fmt} {b : Fp f} {x : ℝ} (hb : fpMag b < fmtInfMag f) (h : fpReal b = x) : RoundsTo f x b := by
  refine ⟨hb, fun c _ => ?_⟩
  have e : ((fpVal b : ℚ) : ℝ) - x = 0 := sub_eq_zero.2 h
  rw [e, abs_zero]
  refine ⟨abs_nonneg _, fun he => .inl ?_⟩
  have : ((fpVal c : ℚ) : ℝ) = ((fpVal b : ℚ) : ℝ) := by
    have h2 := abs_eq_zero.1 he.symm
    exact (sub_eq_zero.1 h2).trans h.symm
  exact_mod_cast this

/-- At a zero angle TrigCR holds of every build (40_numerics.md R133 a). -/
theorem trigCRAt_zero {f : Fmt} {x : Fp f} (h : fpMag x = 0) : TrigCRAt f x := by
  have hz : fpIsZero x = true := by simp [fpIsZero, h]
  have hx : fpReal x = 0 := by rw [fpReal_eq, fpInt, fpUnits, h, fpUnitsOf_zero]; simp
  have hx' : ((fpVal x : ℚ) : ℝ) = 0 := hx
  have h1 : fpMag (fpOne f) < fmtInfMag f ∧ fpInt (fpOne f) = 2 ^ fmtUnitExp f := by cases f <;> decide +kernel
  have ec : fcos f x = fpOne f := by cases f <;> exact if_pos hz
  have es : fsin f x = x := by cases f <;> exact if_pos hz
  refine ⟨?_, ?_⟩
  · rw [ec, hx', Real.cos_zero]
    refine RoundsTo.of_eq h1.1 ?_
    rw [fpReal_eq, h1.2]
    push_cast
    exact div_self (by positivity)
  · rw [es, hx', Real.sin_zero]
    exact RoundsTo.of_eq (by rw [h]; cases f <;> decide) hx

/-- TrigCR gives a SHIFT's own premise wherever the frequency is valid and PHASE is finite in the tones' format. -/
theorem TrigCR.state (h : TrigCR) {s : State} (hv : validFreq s.freq = true)
    (hp : fpMag (toFmt s.kernelU s.phase) < fmtInfMag s.kernelU) (hn : s.kernelN ≤ 8) : s.TrigCR := by
  refine ⟨fun k hk => h _ _ ?_, h _ _ ?_⟩
  · exact (angle_error hv (by omega) hp).1
  · rw [stepAngle, fmul_comm]; exact (multiple_error hv hn).1

end Sys2Proof.Machine
end

