-- ==== Sys2Proof/Laws/Memory.lean ====
section
/-! SUPPORT. The laws of sample memory: a read after a write, what a write leaves alone, the canonical form, the power-up content, and their
lifting to the little-endian accesses and to complex samples. -/

namespace Sys2Proof.Machine

/-! One byte. -/

theorem Memory.read_write_ne (m : Memory) {a b : Nat} (v : Byte) (h : b ≠ a) :
    (m.write a v).read b = m.read b := by
  induction m with
  | nil => unfold Memory.write; split <;> simp [Memory.read, Ne.symm h]
  | cons c rest ih =>
    obtain ⟨k, x⟩ := c
    simp only [Memory.write]
    split_ifs with h1 h2 h3 h4
    · rfl
    · simp [Memory.read, Ne.symm h]
    · subst h3; simp [Memory.read, Ne.symm h]
    · subst h3; simp [Memory.read, Ne.symm h]
    · simp only [Memory.read, ih]

/-- An address below every listed one reads as an unlisted byte. -/
theorem Memory.read_of_all_lt {m : Memory} {a : Nat} (h : ∀ c ∈ m, a < c.1) : m.read a = Config.unlistedByte := by
  induction m with
  | nil => rfl
  | cons c rest ih =>
    have hc := h c (by simp)
    simp only [Memory.read]
    rw [if_neg (by omega)]
    exact ih fun d hd => h d (by simp [hd])

theorem Memory.wf_cons {a : Nat} {v : Byte} {rest : Memory} :
    Memory.wf ((a, v) :: rest) = true ↔ v ≠ Config.unlistedByte ∧ (∀ c ∈ rest, a < c.1) ∧ Memory.wf rest = true := by
  simp [Memory.wf, and_assoc]

theorem Memory.read_write_eq {m : Memory} (hm : m.wf = true) (a : Nat) (v : Byte) : (m.write a v).read a = v := by
  induction m with
  | nil => unfold Memory.write; split <;> simp_all [Memory.read]
  | cons c rest ih =>
    obtain ⟨k, x⟩ := c
    obtain ⟨-, hlt, hrest⟩ := Memory.wf_cons.1 hm
    simp only [Memory.write]
    split_ifs with h1 h2 h3 h4
    · rw [h2]
      exact Memory.read_of_all_lt fun d hd => by
        rcases List.mem_cons.1 hd with rfl | hd
        · exact h1
        · exact h1.trans (hlt d hd)
    · simp [Memory.read]
    · subst h3; rw [h4]; exact Memory.read_of_all_lt hlt
    · simp [Memory.read]
    · simp only [Memory.read]; rw [if_neg (by omega)]; exact ih hrest

/-- Every cell of a memory after a write is a cell of before or the one written. -/
theorem Memory.mem_write {m : Memory} {a : Nat} {v : Byte} {c : Host.Cell} (hc : c ∈ m.write a v) :
    c ∈ m ∨ (c = (a, v) ∧ v ≠ Config.unlistedByte) := by
  induction m with
  | nil => unfold Memory.write at hc; split at hc <;> simp_all
  | cons d rest ih =>
    obtain ⟨k, x⟩ := d
    simp only [Memory.write] at hc
    split_ifs at hc with h1 h2 h3 h4
    · exact .inl hc
    · rcases List.mem_cons.1 hc with rfl | hc
      · exact .inr ⟨rfl, h2⟩
      · exact .inl hc
    · exact .inl (List.mem_cons_of_mem _ hc)
    · rcases List.mem_cons.1 hc with rfl | hc
      · exact .inr ⟨rfl, h4⟩
      · exact .inl (List.mem_cons_of_mem _ hc)
    · rcases List.mem_cons.1 hc with rfl | hc
      · exact .inl (by simp)
      · rcases ih hc with h | h
        · exact .inl (List.mem_cons_of_mem _ h)
        · exact .inr h

theorem Memory.wf_write {m : Memory} (hm : m.wf = true) (a : Nat) (v : Byte) : (m.write a v).wf = true := by
  induction m with
  | nil => unfold Memory.write; split <;> simp_all [Memory.wf]
  | cons c rest ih =>
    obtain ⟨k, x⟩ := c
    have hm' := hm
    obtain ⟨hx, hlt, hrest⟩ := Memory.wf_cons.1 hm
    simp only [Memory.write]
    split_ifs with h1 h2 h3 h4
    · exact hm'
    · refine Memory.wf_cons.2 ⟨h2, fun d hd => ?_, hm'⟩
      rcases List.mem_cons.1 hd with rfl | hd
      · exact h1
      · exact h1.trans (hlt d hd)
    · exact hrest
    · subst h3; exact Memory.wf_cons.2 ⟨h4, hlt, hrest⟩
    · refine Memory.wf_cons.2 ⟨hx, fun d hd => ?_, ih hrest⟩
      rcases Memory.mem_write hd with h | ⟨rfl, -⟩
      · exact hlt d h
      · show k < a; omega

/-- Writing below every listed address puts the byte first. -/
theorem Memory.write_of_all_lt {m : Memory} {a : Nat} {v : Byte} (hv : v ≠ Config.unlistedByte) (h : ∀ c ∈ m, a < c.1) :
    m.write a v = (a, v) :: m := by
  cases m with
  | nil => simp [Memory.write, hv]
  | cons c rest => simp [Memory.write, hv, h c (by simp)]

/-! Power-up. -/

theorem Memory.wf_ofCells : ∀ cs : List Host.Cell, (Memory.ofCells cs).wf = true
  | [] => rfl
  | _ :: cs => Memory.wf_write (Memory.wf_ofCells cs) _ _

theorem Memory.mem_ofCells {c : Host.Cell} : ∀ {cs : List Host.Cell}, c ∈ Memory.ofCells cs → c ∈ cs
  | d :: _, h => by
    rcases Memory.mem_write h with h | ⟨rfl, -⟩
    · exact List.mem_cons_of_mem d (Memory.mem_ofCells h)
    · exact List.mem_cons_self

/-- A canonical memory is the one its own cells write. -/
theorem Memory.ofCells_self : ∀ {m : Memory}, m.wf = true → Memory.ofCells m = m
  | [], _ => rfl
  | (a, v) :: rest, h => by
    obtain ⟨hv, hlt, hrest⟩ := Memory.wf_cons.1 h
    rw [Memory.ofCells, Memory.ofCells_self hrest, Memory.write_of_all_lt hv hlt]

/-- The power-up content is in the canonical form. -/
theorem wf_powerUpMemory (p : Config.Params) : (powerUpMemory p).wf = true := Memory.wf_ofCells _

/-- The power-up content lists bytes of sample memory only. -/
theorem inside_powerUpMemory {p : Config.Params} {c : Host.Cell} (h : c ∈ powerUpMemory p) : c.1 < p.memBytes.val := by
  simpa using (List.mem_filter.1 (Memory.mem_ofCells h)).2

/-- No content is shut out at power-up: the cells of a canonical memory inside MEM_BYTES give that memory. -/
theorem Memory.inBuild_self {p : Config.Params} {m : Memory} (hm : m.wf = true) (hi : ∀ c ∈ m, c.1 < p.memBytes.val) :
    Memory.inBuild p m = m := by
  rw [Memory.inBuild, List.filter_eq_self.2 fun c hc => decide_eq_true (hi c hc), Memory.ofCells_self hm]

/-! The canonical form. -/

/-- Equal reads, equal memories: the canonical form is one list for each content. -/
theorem Memory.ext_of_wf : ∀ {m n : Memory}, m.wf = true → n.wf = true → (∀ a, m.read a = n.read a) → m = n
  | [], [], _, _, _ => rfl
  | [], (b, y) :: ns, _, hn, h => by
    obtain ⟨hy, -, -⟩ := Memory.wf_cons.1 hn
    exact absurd (by simpa [Memory.read] using (h b).symm) hy
  | (a, x) :: ms, [], hm, _, h => by
    obtain ⟨hx, -, -⟩ := Memory.wf_cons.1 hm
    exact absurd (by simpa [Memory.read] using h a) hx
  | (a, x) :: ms, (b, y) :: ns, hm, hn, h => by
    obtain ⟨hx, hltm, hms⟩ := Memory.wf_cons.1 hm
    obtain ⟨hy, hltn, hns⟩ := Memory.wf_cons.1 hn
    have hab : a = b := by
      rcases Nat.lt_trichotomy a b with hl | he | hl
      · have := h a
        rw [Memory.read_of_all_lt (m := (b, y) :: ns) fun d hd => by
          rcases List.mem_cons.1 hd with rfl | hd
          · exact hl
          · exact hl.trans (hltn d hd)] at this
        exact absurd (by simpa [Memory.read] using this) hx
      · exact he
      · have := h b
        rw [Memory.read_of_all_lt (m := (a, x) :: ms) fun d hd => by
          rcases List.mem_cons.1 hd with rfl | hd
          · exact hl
          · exact hl.trans (hltm d hd)] at this
        exact absurd (by simpa [Memory.read] using this.symm) hy
    subst hab
    have hxy : x = y := by simpa [Memory.read] using h a
    subst hxy
    have htail : ms = ns := Memory.ext_of_wf hms hns fun c => by
      by_cases hc : a = c
      · subst hc; rw [Memory.read_of_all_lt hltm, Memory.read_of_all_lt hltn]
      · simpa [Memory.read, hc] using h c
    rw [htail]

/-- Writing what an address reads as leaves the memory as it is. -/
theorem Memory.write_read_self {m : Memory} (hm : m.wf = true) (a : Nat) : m.write a (m.read a) = m :=
  Memory.ext_of_wf (Memory.wf_write hm _ _) hm fun b => by
    by_cases h : b = a
    · subst h; exact Memory.read_write_eq hm _ _
    · exact Memory.read_write_ne m _ h

/-! Little-endian accesses. -/

theorem Memory.wf_writeLE {m : Memory} (hm : m.wf = true) (a n v : Nat) : (m.writeLE a n v).wf = true := by
  induction n generalizing m a v with
  | zero => exact hm
  | succ n ih => exact ih (Memory.wf_write hm _ _) _ _

theorem Memory.read_writeLE_outside (m : Memory) (a n v : Nat) {b : Nat} (h : b < a ∨ a + n ≤ b) :
    (m.writeLE a n v).read b = m.read b := by
  induction n generalizing m a v with
  | zero => rfl
  | succ n ih =>
    rw [Memory.writeLE, ih _ _ _ (by omega)]
    exact Memory.read_write_ne _ _ (by omega)

theorem Memory.read_writeLE_inside {m : Memory} (hm : m.wf = true) (a n v : Nat) {j : Nat} (h : j < n) :
    (m.writeLE a n v).read (a + j) = BitVec.ofNat 8 (v / 256 ^ j) := by
  induction n generalizing m a v j with
  | zero => omega
  | succ n ih =>
    rw [Memory.writeLE]
    cases j with
    | zero =>
      rw [Memory.read_writeLE_outside _ _ _ _ (by omega)]
      simpa using Memory.read_write_eq hm a (BitVec.ofNat 8 v)
    | succ j =>
      have := ih (Memory.wf_write hm a (BitVec.ofNat 8 v)) (a + 1) (v / 256) (j := j) (by omega)
      rw [show a + (j + 1) = a + 1 + j by omega, this, Nat.div_div_eq_div_mul, Nat.pow_succ, Nat.mul_comm]

theorem Memory.readLE_lt (m : Memory) (a n : Nat) : m.readLE a n < 256 ^ n := by
  induction n generalizing a with
  | zero => simp [Memory.readLE]
  | succ n ih =>
    have h1 := (m.read a).isLt
    have h2 := ih (a + 1)
    rw [Memory.readLE, Nat.pow_succ]
    omega

theorem Memory.readLE_congr {m m' : Memory} {a n : Nat} (h : ∀ j, j < n → m.read (a + j) = m'.read (a + j)) :
    m.readLE a n = m'.readLE a n := by
  induction n generalizing a with
  | zero => rfl
  | succ n ih =>
    rw [Memory.readLE, Memory.readLE, ih fun j hj => by
      have := h (j + 1) (by omega)
      rwa [show a + (j + 1) = a + 1 + j by omega] at this]
    have := h 0 (by omega)
    simp only [Nat.add_zero] at this
    rw [this]

theorem Memory.readLE_writeLE_disjoint (m : Memory) {a n v b k : Nat} (h : b + k ≤ a ∨ a + n ≤ b) :
    (m.writeLE a n v).readLE b k = m.readLE b k :=
  Memory.readLE_congr fun j hj => Memory.read_writeLE_outside _ _ _ _ (by omega)

theorem Memory.readLE_writeLE_same {m : Memory} (hm : m.wf = true) (a n v : Nat) :
    (m.writeLE a n v).readLE a n = v % 256 ^ n := by
  induction n generalizing m a v with
  | zero => simp [Memory.readLE, Nat.mod_one]
  | succ n ih =>
    rw [Memory.readLE, Memory.writeLE, ih (Memory.wf_write hm _ _),
      Memory.read_writeLE_outside _ _ _ _ (by omega), Memory.read_write_eq hm, BitVec.toNat_ofNat]
    rw [show 2 ^ 8 = 256 by decide, Nat.pow_succ 256 n, Nat.mul_comm (256 ^ n), Nat.mod_mul]

/-- Byte j of a little-endian number is the byte at address a + j. -/
theorem Memory.readLE_byte (m : Memory) (a n : Nat) {j : Nat} (h : j < n) :
    m.readLE a n / 256 ^ j % 256 = (m.read (a + j)).toNat := by
  induction n generalizing a j with
  | zero => omega
  | succ n ih =>
    have hb := (m.read a).isLt
    rw [Memory.readLE]
    cases j with
    | zero => simp; omega
    | succ j =>
      rw [Nat.pow_succ, Nat.mul_comm (256 ^ j), ← Nat.div_div_eq_div_mul,
        show ((m.read a).toNat + 256 * m.readLE (a + 1) n) / 256 = m.readLE (a + 1) n by omega, ih _ (by omega),
        show a + 1 + j = a + (j + 1) by omega]

/-- A part of a little-endian number is the little-endian number of that part of the bytes. -/
theorem Memory.readLE_part (m : Memory) (a n : Nat) {j k : Nat} (h : j + k ≤ n) :
    m.readLE a n / 256 ^ j % 256 ^ k = m.readLE (a + j) k := by
  induction j generalizing a n with
  | zero =>
    simp only [Nat.pow_zero, Nat.div_one, Nat.add_zero]
    induction k generalizing a n with
    | zero => simp [Memory.readLE, Nat.mod_one]
    | succ k ih =>
      obtain ⟨n, rfl⟩ : ∃ n', n = n' + 1 := ⟨n - 1, by omega⟩
      have hb := (m.read a).isLt
      rw [Memory.readLE, Memory.readLE, ← ih (a + 1) n (by omega), Nat.pow_succ, Nat.mul_comm (256 ^ k), Nat.mod_mul,
        show ((m.read a).toNat + 256 * m.readLE (a + 1) n) / 256 = m.readLE (a + 1) n by omega]
      omega
  | succ j ih =>
    obtain ⟨n, rfl⟩ : ∃ n', n = n' + 1 := ⟨n - 1, by omega⟩
    have hb := (m.read a).isLt
    rw [Memory.readLE, Nat.pow_succ, Nat.mul_comm (256 ^ j), ← Nat.div_div_eq_div_mul,
      show ((m.read a).toNat + 256 * m.readLE (a + 1) n) / 256 = m.readLE (a + 1) n by omega, ih _ _ (by omega),
      show a + 1 + j = a + (j + 1) by omega]

/-! Cells inside sample memory. -/

theorem Memory.inside_write {m : Memory} {b a : Nat} {v : Byte} (h : ∀ c ∈ m, c.1 < b) (ha : a < b) :
    ∀ c ∈ m.write a v, c.1 < b := fun c hc => by
  rcases Memory.mem_write hc with h' | ⟨rfl, -⟩
  · exact h c h'
  · exact ha

theorem Memory.inside_writeLE {m : Memory} {b a n v : Nat} (h : ∀ c ∈ m, c.1 < b) (ha : a + n ≤ b) :
    ∀ c ∈ m.writeLE a n v, c.1 < b := by
  induction n generalizing m a v with
  | zero => exact h
  | succ n ih => exact ih (Memory.inside_write h (by omega)) (by omega)

/-! Complex samples and vectors. -/

theorem fmtEsz_eq (T : Fmt) : fmtEsz T = 2 * fmtBytes T := by cases T <;> rfl

theorem fmtBytes_width (T : Fmt) : 256 ^ fmtBytes T = 2 ^ T.width := by cases T <;> decide

theorem wf_memWriteC {T : Fmt} {m : Memory} (hm : m.wf = true) (a : Nat) (z : Cx T) : (memWriteC T m a z).wf = true :=
  Memory.wf_writeLE (Memory.wf_writeLE hm _ _ _) _ _ _

theorem read_memWriteC_outside {T : Fmt} (m : Memory) (a : Nat) (z : Cx T) {b : Nat} (h : b < a ∨ a + fmtEsz T ≤ b) :
    (memWriteC T m a z).read b = m.read b := by
  have := fmtEsz_eq T
  rw [memWriteC, Memory.read_writeLE_outside _ _ _ _ (by omega), Memory.read_writeLE_outside _ _ _ _ (by omega)]

theorem memReadC_congr {T : Fmt} {m m' : Memory} {a : Nat}
    (h : ∀ j, j < fmtEsz T → m.read (a + j) = m'.read (a + j)) : memReadC T m a = memReadC T m' a := by
  have := fmtEsz_eq T
  rw [memReadC, memReadC, Memory.readLE_congr fun j hj => h j (by omega),
    Memory.readLE_congr (m := m) (m' := m') (a := a + fmtBytes T) fun j hj => by
      have := h (fmtBytes T + j) (by omega)
      rwa [← Nat.add_assoc] at this]

theorem memReadC_memWriteC_disjoint {T : Fmt} (m : Memory) {a b : Nat} (z : Cx T)
    (h : b + fmtEsz T ≤ a ∨ a + fmtEsz T ≤ b) : memReadC T (memWriteC T m a z) b = memReadC T m b :=
  memReadC_congr fun j hj => read_memWriteC_outside m a z (by omega)

theorem memReadC_memWriteC_same {T : Fmt} {m : Memory} (hm : m.wf = true) (a : Nat) (z : Cx T) :
    memReadC T (memWriteC T m a z) a = z := by
  have hr := z.re.isLt
  have hi := z.im.isLt
  ext1
  · rw [memReadC, memWriteC, Memory.readLE_writeLE_disjoint _ (.inl (Nat.le_refl _)), Memory.readLE_writeLE_same hm,
      fmtBytes_width, Nat.mod_eq_of_lt hr]
    simp
  · rw [memReadC, memWriteC, Memory.readLE_writeLE_same (Memory.wf_writeLE hm _ _ _), fmtBytes_width,
      Nat.mod_eq_of_lt hi]
    simp

theorem wf_memWriteV {m : Memory} (hm : m.wf = true) (a : Nat) (x : VWord) : (memWriteV m a x).wf = true :=
  Memory.wf_writeLE hm _ _ _

theorem inside_memWriteV {m : Memory} {b a : Nat} {x : VWord} (h : ∀ c ∈ m, c.1 < b) (ha : a + 32 ≤ b) :
    ∀ c ∈ memWriteV m a x, c.1 < b := by
  rw [memWriteV]; exact Memory.inside_writeLE h ha

theorem memReadV_memWriteV_same {m : Memory} (hm : m.wf = true) (a : Nat) (x : VWord) :
    memReadV (memWriteV m a x) a = x := by
  have hx := x.isLt
  rw [memReadV, memWriteV, Memory.readLE_writeLE_same hm, show 256 ^ 32 = 2 ^ 256 by decide, Nat.mod_eq_of_lt hx]
  simp

end Sys2Proof.Machine
end

