-- ==== Sys2Proof/Laws/Lanes.lean ====
section
/-! SUPPORT. The lane views of a vector register (10_state.md R36): what a packed register's lanes are, what each packed
primitive leaves in each lane, and how a 32-byte access splits into its samples (20_memory.md R67). -/

namespace Sys2Proof.Machine

/-! Lanes of packed registers. -/

theorem dCx_packD (z0 z1 : Cx .f64) : dCx (packD z0 z1) 0 = z0 ∧ dCx (packD z0 z1) 1 = z1 := by
  refine ⟨?_, ?_⟩ <;> ext1 <;> apply BitVec.eq_of_getLsbD_eq <;> intro i hi <;>
    simp only [dCx, dLane, packD, BitVec.getLsbD_extractLsb', BitVec.getLsbD_append] <;>
    simp only [Fmt.width] at hi ⊢ <;> simp [hi] <;> grind

theorem sCx_packS (z0 z1 z2 z3 : Cx .f32) :
    sCx (packS z0 z1 z2 z3) 0 = z0 ∧ sCx (packS z0 z1 z2 z3) 1 = z1 ∧
      sCx (packS z0 z1 z2 z3) 2 = z2 ∧ sCx (packS z0 z1 z2 z3) 3 = z3 := by
  refine ⟨?_, ?_, ?_, ?_⟩ <;> ext1 <;> apply BitVec.eq_of_getLsbD_eq <;> intro i hi <;>
    simp only [sCx, sLane, packS, BitVec.getLsbD_extractLsb', BitVec.getLsbD_append] <;>
    simp only [Fmt.width] at hi ⊢ <;> simp [hi] <;> grind

@[simp] theorem dCx_packD_0 (z0 z1 : Cx .f64) : dCx (packD z0 z1) 0 = z0 := (dCx_packD z0 z1).1
@[simp] theorem dCx_packD_1 (z0 z1 : Cx .f64) : dCx (packD z0 z1) 1 = z1 := (dCx_packD z0 z1).2
@[simp] theorem sCx_packS_0 (z0 z1 z2 z3 : Cx .f32) : sCx (packS z0 z1 z2 z3) 0 = z0 := (sCx_packS z0 z1 z2 z3).1
@[simp] theorem sCx_packS_1 (z0 z1 z2 z3 : Cx .f32) : sCx (packS z0 z1 z2 z3) 1 = z1 := (sCx_packS z0 z1 z2 z3).2.1
@[simp] theorem sCx_packS_2 (z0 z1 z2 z3 : Cx .f32) : sCx (packS z0 z1 z2 z3) 2 = z2 := (sCx_packS z0 z1 z2 z3).2.2.1
@[simp] theorem sCx_packS_3 (z0 z1 z2 z3 : Cx .f32) : sCx (packS z0 z1 z2 z3) 3 = z3 := (sCx_packS z0 z1 z2 z3).2.2.2

/-! 32-byte accesses. -/

theorem toNat_memReadV (m : Memory) (a : Nat) : (memReadV m a).toNat = m.readLE a 32 := by
  have h := Memory.readLE_lt m a 32
  rw [show (256 : Nat) ^ 32 = 2 ^ 256 by decide] at h
  rw [memReadV, BitVec.toNat_ofNat, Nat.mod_eq_of_lt h]

theorem toNat_dLane (x : VWord) (j : Nat) : (dLane x j).toNat = x.toNat / 256 ^ (8 * j) % 256 ^ 8 := by
  have h : (2 : Nat) ^ (64 * j) = 256 ^ (8 * j) := by rw [show (256 : Nat) = 2 ^ 8 by decide, ← Nat.pow_mul]; congr 1; omega
  show (x.extractLsb' (64 * j) 64).toNat = _
  rw [BitVec.extractLsb'_toNat, Nat.shiftRight_eq_div_pow, h, show (256 : Nat) ^ 8 = 2 ^ 64 by decide]

theorem toNat_sLane (x : VWord) (j : Nat) : (sLane x j).toNat = x.toNat / 256 ^ (4 * j) % 256 ^ 4 := by
  have h : (2 : Nat) ^ (32 * j) = 256 ^ (4 * j) := by rw [show (256 : Nat) = 2 ^ 8 by decide, ← Nat.pow_mul]; congr 1; omega
  show (x.extractLsb' (32 * j) 32).toNat = _
  rw [BitVec.extractLsb'_toNat, Nat.shiftRight_eq_div_pow, h, show (256 : Nat) ^ 4 = 2 ^ 32 by decide]

theorem toNat_dLane_memReadV (m : Memory) (a : Nat) {j : Nat} (h : j < 4) :
    (dLane (memReadV m a) j).toNat = m.readLE (a + 8 * j) 8 := by
  rw [toNat_dLane, toNat_memReadV, Memory.readLE_part m a 32 (by omega)]

theorem toNat_sLane_memReadV (m : Memory) (a : Nat) {j : Nat} (h : j < 8) :
    (sLane (memReadV m a) j).toNat = m.readLE (a + 4 * j) 4 := by
  rw [toNat_sLane, toNat_memReadV, Memory.readLE_part m a 32 (by omega)]

theorem toNat_memReadC_re (T : Fmt) (m : Memory) (a : Nat) : (memReadC T m a).re.toNat = m.readLE a (fmtBytes T) := by
  have h := Memory.readLE_lt m a (fmtBytes T)
  rw [fmtBytes_width] at h
  rw [memReadC, BitVec.toNat_ofNat, Nat.mod_eq_of_lt h]

theorem toNat_memReadC_im (T : Fmt) (m : Memory) (a : Nat) :
    (memReadC T m a).im.toNat = m.readLE (a + fmtBytes T) (fmtBytes T) := by
  have h := Memory.readLE_lt m (a + fmtBytes T) (fmtBytes T)
  rw [fmtBytes_width] at h
  rw [memReadC, BitVec.toNat_ofNat, Nat.mod_eq_of_lt h]

/-- A 32-byte load of F64 samples puts element k in complex lane k (20_memory.md R67). -/
theorem dCx_memReadV (m : Memory) (a : Nat) {k : Nat} (h : k < 2) :
    dCx (memReadV m a) k = memReadC .f64 m (a + 16 * k) := by
  ext1 <;> apply BitVec.eq_of_toNat_eq
  · rw [toNat_memReadC_re, dCx, toNat_dLane_memReadV _ _ (by omega), fmtBytes]
    congr 1; omega
  · rw [toNat_memReadC_im, dCx, toNat_dLane_memReadV _ _ (by omega), fmtBytes]
    congr 1; omega

/-- A 32-byte load of F32 samples puts element k in complex lane k (20_memory.md R67). -/
theorem sCx_memReadV (m : Memory) (a : Nat) {k : Nat} (h : k < 4) :
    sCx (memReadV m a) k = memReadC .f32 m (a + 8 * k) := by
  ext1 <;> apply BitVec.eq_of_toNat_eq
  · rw [toNat_memReadC_re, sCx, toNat_sLane_memReadV _ _ (by omega), fmtBytes]
    congr 1; omega
  · rw [toNat_memReadC_im, sCx, toNat_sLane_memReadV _ _ (by omega), fmtBytes]
    congr 1; omega

/-- A write of n + k bytes is the write of the low n bytes and then of the k above them. -/
theorem Memory.writeLE_split (m : Memory) (a n k v : Nat) :
    m.writeLE a (n + k) v = (m.writeLE a n v).writeLE (a + n) k (v / 256 ^ n) := by
  induction n generalizing m a v with
  | zero => simp [Memory.writeLE]
  | succ n ih =>
    rw [show n + 1 + k = (n + k) + 1 by omega, Memory.writeLE, Memory.writeLE, ih, Nat.div_div_eq_div_mul,
      Nat.pow_succ, Nat.mul_comm (256 ^ n), show a + 1 + n = a + (n + 1) by omega]

/-- Only the low n bytes of the number are written. -/
theorem Memory.writeLE_mod (m : Memory) (a n v : Nat) : m.writeLE a n (v % 256 ^ n) = m.writeLE a n v := by
  induction n generalizing m a v with
  | zero => rfl
  | succ n ih =>
    have h1 : BitVec.ofNat 8 (v % 256 ^ (n + 1)) = BitVec.ofNat 8 v := by
      apply BitVec.eq_of_toNat_eq
      rw [BitVec.toNat_ofNat, BitVec.toNat_ofNat, show 2 ^ 8 = 256 by decide, Nat.pow_succ, Nat.mul_comm,
        Nat.mod_mul_right_mod]
    have h2 : v % 256 ^ (n + 1) / 256 = v / 256 % 256 ^ n := by
      rw [Nat.pow_succ, Nat.mul_comm, Nat.mod_mul_right_div_self]
    rw [Memory.writeLE, Memory.writeLE, h1, h2, ih]

/-- A 32-byte store is the store of its two complex F64 lanes (20_memory.md R67). -/
theorem memWriteV_dCx (m : Memory) (a : Nat) (x : VWord) :
    memWriteV m a x = memWriteC .f64 (memWriteC .f64 m a (dCx x 0)) (a + 16) (dCx x 1) := by
  simp only [memWriteC, dCx, fmtBytes, toNat_dLane, Memory.writeLE_mod, memWriteV]
  rw [show (32 : Nat) = 8 + (8 + (8 + 8)) by decide, Memory.writeLE_split, Memory.writeLE_split, Memory.writeLE_split]
  simp only [Nat.div_div_eq_div_mul, ← Nat.pow_add, Nat.add_assoc, Nat.reduceAdd, Nat.reduceMul, Nat.pow_zero,
    Nat.div_one]

/-- A 32-byte store is the store of its four complex F32 lanes (20_memory.md R67). -/
theorem memWriteV_sCx (m : Memory) (a : Nat) (x : VWord) :
    memWriteV m a x = memWriteC .f32 (memWriteC .f32 (memWriteC .f32 (memWriteC .f32 m a (sCx x 0)) (a + 8) (sCx x 1))
      (a + 16) (sCx x 2)) (a + 24) (sCx x 3) := by
  simp only [memWriteC, sCx, fmtBytes, toNat_sLane, Memory.writeLE_mod, memWriteV]
  rw [show (32 : Nat) = 4 + (4 + (4 + (4 + (4 + (4 + (4 + 4)))))) by decide, Memory.writeLE_split, Memory.writeLE_split,
    Memory.writeLE_split, Memory.writeLE_split, Memory.writeLE_split, Memory.writeLE_split, Memory.writeLE_split]
  simp only [Nat.div_div_eq_div_mul, ← Nat.pow_add, Nat.add_assoc, Nat.reduceAdd, Nat.reduceMul, Nat.pow_zero,
    Nat.div_one]

end Sys2Proof.Machine
end

