-- ==== Sys2Proof/Laws/Elements.lean ====
section
/-! SUPPORT. The laws of the array: element addresses do not wrap, what a run of element multiplies does to every element
and to every byte outside the array, and a 32-byte block as a run of element multiplies. -/

namespace Sys2Proof.Machine

theorem fmtEsz_pos (T : Fmt) : 0 < fmtEsz T := by cases T <;> decide

theorem elemAddr_eq {T : Fmt} {base : Word64} {i size : Nat} (hA : base.toNat + fmtEsz T * size ≤ 2 ^ 64)
    (hi : i < size) : elemAddr T base i = base.toNat + fmtEsz T * i := by
  have h1 := fmtEsz_pos T
  have h2 : fmtEsz T * (i + 1) ≤ fmtEsz T * size := Nat.mul_le_mul_left _ hi
  rw [Nat.mul_add, Nat.mul_one] at h2
  exact Nat.mod_eq_of_lt (by omega)

/-- Two different elements share no byte. -/
theorem elem_disjoint (T : Fmt) (b : Nat) {i j : Nat} (h : i ≠ j) :
    b + fmtEsz T * i + fmtEsz T ≤ b + fmtEsz T * j ∨ b + fmtEsz T * j + fmtEsz T ≤ b + fmtEsz T * i := by
  rcases Nat.lt_or_gt_of_ne h with h | h
  · have := Nat.mul_le_mul_left (fmtEsz T) (show i + 1 ≤ j from h)
    rw [Nat.mul_add, Nat.mul_one] at this; left; omega
  · have := Nat.mul_le_mul_left (fmtEsz T) (show j + 1 ≤ i from h)
    rw [Nat.mul_add, Nat.mul_one] at this; right; omega

/-- The bytes of an element lie inside the array. -/
theorem elem_inside (T : Fmt) (b : Nat) {i size : Nat} (h : i < size) :
    b + fmtEsz T * i + fmtEsz T ≤ b + fmtEsz T * size := by
  have := Nat.mul_le_mul_left (fmtEsz T) (show i + 1 ≤ size from h)
  rw [Nat.mul_add, Nat.mul_one] at this; omega

section
variable {T : Fmt} {base : Word64} {size : Nat}

theorem wf_mulElem {m : Memory} (hm : m.wf = true) (i : Nat) (t : Cx T) : (mulElem T base i t m).wf = true :=
  wf_memWriteC hm _ _

theorem read_mulElem_outside (hA : base.toNat + fmtEsz T * size ≤ 2 ^ 64) {i : Nat} (hi : i < size) (t : Cx T)
    (m : Memory) {a : Nat} (ha : a < base.toNat ∨ base.toNat + fmtEsz T * size ≤ a) :
    (mulElem T base i t m).read a = m.read a := by
  have := elem_inside T base.toNat hi
  rw [mulElem, elemAddr_eq hA hi]
  exact read_memWriteC_outside _ _ _ (by omega)

theorem elemAt_mulElem_same {m : Memory} (hm : m.wf = true) (i : Nat) (t : Cx T) :
    elemAt T (mulElem T base i t m) base i = cmul (elemAt T m base i) t := memReadC_memWriteC_same hm _ _

theorem elemAt_mulElem_ne (hA : base.toNat + fmtEsz T * size ≤ 2 ^ 64) {i j : Nat} (hi : i < size) (hj : j < size)
    (h : j ≠ i) (t : Cx T) (m : Memory) : elemAt T (mulElem T base i t m) base j = elemAt T m base j := by
  rw [elemAt, elemAt, mulElem, elemAddr_eq hA hi, elemAddr_eq hA hj]
  exact memReadC_memWriteC_disjoint _ _ (elem_disjoint T _ h)

theorem inside_memWriteC {m : Memory} {b a : Nat} (z : Cx T) (h : ∀ c ∈ m, c.1 < b) (ha : a + fmtEsz T ≤ b) :
    ∀ c ∈ memWriteC T m a z, c.1 < b := by
  have := fmtEsz_eq T
  exact Memory.inside_writeLE (Memory.inside_writeLE h (by omega)) (by omega)

/-- What a run of element multiplies is: everything that is claimed of it. -/
theorem mulElems_spec (hA : base.toNat + fmtEsz T * size ≤ 2 ^ 64) :
    ∀ (ts : List (Cx T)) (i : Nat) (m : Memory), m.wf = true →
      (mulElems T base size i ts m).wf = true ∧
      (∀ a, a < base.toNat ∨ base.toNat + fmtEsz T * size ≤ a → (mulElems T base size i ts m).read a = m.read a) ∧
      (∀ j, j < size → elemAt T (mulElems T base size i ts m) base j =
        if h : i ≤ j ∧ j - i < ts.length then cmul (elemAt T m base j) (ts[j - i]'h.2) else elemAt T m base j)
  | [], i, m, hm => ⟨hm, fun _ _ => rfl, fun j _ => by simp [mulElems]⟩
  | t :: ts, i, m, hm => by
    by_cases hi : i < size
    · obtain ⟨h1, h2, h3⟩ := mulElems_spec hA ts (i + 1) (mulElem T base i t m) (wf_mulElem hm i t)
      simp only [mulElems, if_pos hi]
      refine ⟨h1, fun a ha => (h2 a ha).trans (read_mulElem_outside hA hi t m ha), fun j hj => ?_⟩
      rw [h3 j hj]
      by_cases hji : j = i
      · subst hji
        simp [elemAt_mulElem_same hm]
      · rw [elemAt_mulElem_ne hA hi hj hji]
        by_cases hc : i ≤ j ∧ j - i < (t :: ts).length
        · have hc' : i + 1 ≤ j ∧ j - (i + 1) < ts.length := by simp at hc; omega
          have he : j - i = j - (i + 1) + 1 := by omega
          rw [dif_pos hc, dif_pos hc']
          simp [he]
        · have hc' : ¬ (i + 1 ≤ j ∧ j - (i + 1) < ts.length) := by simp at hc; omega
          rw [dif_neg hc, dif_neg hc']
    · obtain ⟨h1, h2, h3⟩ := mulElems_spec hA ts (i + 1) m hm
      simp only [mulElems, if_neg hi]
      refine ⟨h1, h2, fun j hj => ?_⟩
      rw [h3 j hj, dif_neg (by omega), dif_neg (by omega)]

theorem inside_mulElems (hA : base.toNat + fmtEsz T * size ≤ 2 ^ 64) {b : Nat}
    (hb : base.toNat + fmtEsz T * size ≤ b) : ∀ (ts : List (Cx T)) (i : Nat) (m : Memory), (∀ c ∈ m, c.1 < b) →
      ∀ c ∈ mulElems T base size i ts m, c.1 < b
  | [], _, _, h => h
  | t :: ts, i, m, h => by
    rw [mulElems]
    split
    · rename_i hi
      refine inside_mulElems hA hb ts (i + 1) _ ?_
      have := elem_inside T base.toNat hi
      rw [mulElem, elemAddr_eq hA hi]
      exact inside_memWriteC _ h (by omega)
    · exact inside_mulElems hA hb ts (i + 1) m h

theorem mulElems_size_zero (i : Nat) (ts : List (Cx T)) (m : Memory) : mulElems T base 0 i ts m = m := by
  induction ts generalizing i m with
  | nil => rfl
  | cons t ts ih => rw [mulElems, if_neg (Nat.not_lt_zero _), ih]

end

/-- The bytes of an element are determined by its value. -/
theorem read_eq_of_memReadC_eq {T : Fmt} {m m' : Memory} {a : Nat} (h : memReadC T m a = memReadC T m' a) {j : Nat}
    (hj : j < fmtEsz T) : m.read (a + j) = m'.read (a + j) := by
  have hre : m.readLE a (fmtBytes T) = m'.readLE a (fmtBytes T) := by
    rw [← toNat_memReadC_re, ← toNat_memReadC_re, h]
  have him : m.readLE (a + fmtBytes T) (fmtBytes T) = m'.readLE (a + fmtBytes T) (fmtBytes T) := by
    rw [← toNat_memReadC_im, ← toNat_memReadC_im, h]
  have he := fmtEsz_eq T
  apply BitVec.eq_of_toNat_eq
  by_cases hc : j < fmtBytes T
  · rw [← Memory.readLE_byte m a _ hc, hre, Memory.readLE_byte m' a _ hc]
  · obtain ⟨k, rfl⟩ : ∃ k, j = fmtBytes T + k := ⟨j - fmtBytes T, by omega⟩
    have hk : k < fmtBytes T := by omega
    rw [← Nat.add_assoc, ← Memory.readLE_byte m _ _ hk, him, Memory.readLE_byte m' _ _ hk]

/-- Two canonical memories with equal elements and equal bytes outside the array are equal. -/
theorem memory_eq_of_elems {T : Fmt} {base : Word64} {size : Nat} (hA : base.toNat + fmtEsz T * size ≤ 2 ^ 64)
    {m m' : Memory} (hm : m.wf = true) (hm' : m'.wf = true)
    (ho : ∀ a, a < base.toNat ∨ base.toNat + fmtEsz T * size ≤ a → m.read a = m'.read a)
    (he : ∀ i, i < size → elemAt T m base i = elemAt T m' base i) : m = m' := by
  refine Memory.ext_of_wf hm hm' fun a => ?_
  by_cases ha : a < base.toNat ∨ base.toNat + fmtEsz T * size ≤ a
  · exact ho a ha
  · have hp := fmtEsz_pos T
    have hdiv := Nat.div_add_mod (a - base.toNat) (fmtEsz T)
    have hlt := Nat.mod_lt (a - base.toNat) hp
    have hi : (a - base.toNat) / fmtEsz T < size := Nat.div_lt_of_lt_mul (by omega)
    have h := he _ hi
    rw [elemAt, elemAt, elemAddr_eq hA hi] at h
    have := read_eq_of_memReadC_eq h hlt
    rwa [show base.toNat + fmtEsz T * ((a - base.toNat) / fmtEsz T) + (a - base.toNat) % fmtEsz T = a by omega] at this

/-! 32-byte blocks. -/

theorem memReadV_congr {m m' : Memory} {a : Nat} (h : ∀ j, j < 32 → m.read (a + j) = m'.read (a + j)) :
    memReadV m a = memReadV m' a := by rw [memReadV, memReadV, Memory.readLE_congr h]

/-- The store of the products of a 32-byte block of F32 samples is four element multiplies. -/
theorem block32_eq {base : Word64} {size i : Nat} (hA : base.toNat + fmtEsz .f32 * size ≤ 2 ^ 64) (hi : i + 4 ≤ size)
    (m : Memory) (v : VWord) :
    memWriteV m (elemAddr .f32 base i) (cmul4s (memReadV m (elemAddr .f32 base i)) v) =
      mulElems .f32 base size i [sCx v 0, sCx v 1, sCx v 2, sCx v 3] m := by
  have e : ∀ k, k < 4 → elemAddr .f32 base (i + k) = elemAddr .f32 base i + 8 * k := fun k hk => by
    rw [elemAddr_eq hA (by omega), elemAddr_eq hA (by omega)]; simp only [fmtEsz]; omega
  have e1 := e 1 (by omega); have e2 := e 2 (by omega); have e3 := e 3 (by omega)
  rw [memWriteV_sCx]
  simp only [cmul4s, sCx_packS_0, sCx_packS_1, sCx_packS_2, sCx_packS_3, mulElems, mulElem,
    if_pos (show i < size by omega), if_pos (show i + 1 < size by omega), if_pos (show i + 1 + 1 < size by omega),
    if_pos (show i + 1 + 1 + 1 < size by omega), Nat.add_assoc, Nat.reduceAdd, e1, e2, e3, Nat.reduceMul]
  simp only [sCx_memReadV _ _ (show 0 < 4 by decide), sCx_memReadV _ _ (show 1 < 4 by decide),
    sCx_memReadV _ _ (show 2 < 4 by decide), sCx_memReadV _ _ (show 3 < 4 by decide), Nat.mul_zero, Nat.add_zero,
    Nat.reduceMul]
  have d : ∀ (m : Memory) (z : Cx .f32) (a b : Nat), a + 8 ≤ b → memReadC .f32 (memWriteC .f32 m a z) b = memReadC .f32 m b :=
    fun m z a b h => memReadC_memWriteC_disjoint m z (.inr h)
  rw [d _ _ _ (elemAddr .f32 base i + 8) (by omega), d _ _ _ (elemAddr .f32 base i + 16) (by omega),
    d _ _ _ (elemAddr .f32 base i + 16) (by omega), d _ _ _ (elemAddr .f32 base i + 24) (by omega),
    d _ _ _ (elemAddr .f32 base i + 24) (by omega), d _ _ _ (elemAddr .f32 base i + 24) (by omega)]

/-- The store of the products of a 32-byte block of F64 samples is two element multiplies. -/
theorem block64_eq {base : Word64} {size i : Nat} (hA : base.toNat + fmtEsz .f64 * size ≤ 2 ^ 64) (hi : i + 2 ≤ size)
    (m : Memory) (v : VWord) :
    memWriteV m (elemAddr .f64 base i) (cmul2d (memReadV m (elemAddr .f64 base i)) v) =
      mulElems .f64 base size i [dCx v 0, dCx v 1] m := by
  have e1 : elemAddr .f64 base (i + 1) = elemAddr .f64 base i + 16 := by
    rw [elemAddr_eq hA (by omega), elemAddr_eq hA (by omega)]; simp only [fmtEsz]; omega
  rw [memWriteV_dCx]
  simp only [cmul2d, dCx_packD_0, dCx_packD_1, mulElems, mulElem, if_pos (show i < size by omega),
    if_pos (show i + 1 < size by omega), e1]
  simp only [dCx_memReadV _ _ (show 0 < 2 by decide), dCx_memReadV _ _ (show 1 < 2 by decide), Nat.mul_zero, Nat.add_zero,
    Nat.mul_one]
  rw [memReadC_memWriteC_disjoint (b := elemAddr .f64 base i + 16) _ _ (.inr (by simp only [fmtEsz]; omega))]

theorem mulElems_append {T : Fmt} {base : Word64} {size : Nat} (ts us : List (Cx T)) (i : Nat) (m : Memory) :
    mulElems T base size i (ts ++ us) m = mulElems T base size (i + ts.length) us (mulElems T base size i ts m) := by
  induction ts generalizing i m with
  | nil => rfl
  | cons t ts ih => rw [List.cons_append, mulElems, mulElems, ih, List.length_cons, Nat.add_assoc, Nat.add_comm 1]

end Sys2Proof.Machine
end

