-- ==== Sys2Proof/Laws/Kernels.lean ====
section
/-! SUPPORT. The laws of the two kernels of SHIFT: the state between blocks as a closed form, kept by a block, reached by
the loop, and left by the tail. -/

namespace Sys2Proof.Machine

/-- The tones of every phase after q advances. -/
def tonesAt (U : Fmt) (freq phase : Word64) (n q : Nat) : List (Cx U) :=
  (List.range n).map fun k => toneAt U freq phase n k q

theorem length_tonesAt (U : Fmt) (freq phase : Word64) (n q : Nat) : (tonesAt U freq phase n q).length = n := by
  simp [tonesAt]

theorem getElem_tonesAt {U : Fmt} {freq phase : Word64} {n q k : Nat} (h : k < (tonesAt U freq phase n q).length) :
    (tonesAt U freq phase n q)[k] = toneAt U freq phase n k q := by simp [tonesAt]

theorem advanceTones_tonesAt (U : Fmt) (freq phase : Word64) (n q : Nat) :
    advanceTones U (stepPhasor U freq n) (tonesAt U freq phase n q) = tonesAt U freq phase n (q + 1) := by
  simp [advanceTones, tonesAt, toneAt, Function.comp_def]

/-- Memory m' is m with the elements below `c` multiplied, each by the tone that `tone` gives it. -/
structure Multiplied (T : Fmt) (base : Word64) (size : Nat) (tone : Nat → Cx T) (c : Nat) (m m' : Memory) : Prop where
  wf : m'.wf = true
  outside : ∀ a, a < base.toNat ∨ base.toNat + fmtEsz T * size ≤ a → m'.read a = m.read a
  elems : ∀ i, i < size → elemAt T m' base i = if i < c then cmul (elemAt T m base i) (tone i) else elemAt T m base i

theorem Multiplied.none {T : Fmt} {base : Word64} {size : Nat} {tone : Nat → Cx T} {m : Memory} (hm : m.wf = true) :
    Multiplied T base size tone 0 m m :=
  ⟨hm, fun _ _ => rfl, fun _ _ => by simp⟩

/-- A run of element multiplies by the tones of the next elements. -/
theorem Multiplied.run {T : Fmt} {base : Word64} {size : Nat} {tone : Nat → Cx T} {c : Nat} {m m' : Memory}
    (hA : base.toNat + fmtEsz T * size ≤ 2 ^ 64) (h : Multiplied T base size tone c m m') (ts : List (Cx T))
    (ht : ∀ k (hk : k < ts.length), c + k < size → ts[k] = tone (c + k)) :
    Multiplied T base size tone (c + ts.length) m (mulElems T base size c ts m') := by
  obtain ⟨h1, h2, h3⟩ := mulElems_spec hA ts c m' h.wf
  refine ⟨h1, fun a ha => (h2 a ha).trans (h.outside a ha), fun j hj => ?_⟩
  rw [h3 j hj, h.elems j hj]
  by_cases hc : c ≤ j ∧ j - c < ts.length
  · rw [dif_pos hc, if_neg (by omega), if_pos (by omega), ht _ hc.2 (by omega), show c + (j - c) = j by omega]
  · rw [dif_neg hc]
    by_cases hj' : j < c
    · rw [if_pos hj', if_pos (by omega)]
    · rw [if_neg hj', if_neg (by omega)]

/-- Two memories that come of the same multiplies of the whole array are equal. -/
theorem Multiplied.unique {T : Fmt} {base : Word64} {size : Nat} {tone : Nat → Cx T} {c c' : Nat} {m m₁ m₂ : Memory}
    (hA : base.toNat + fmtEsz T * size ≤ 2 ^ 64) (h₁ : Multiplied T base size tone c m m₁)
    (h₂ : Multiplied T base size tone c' m m₂) (hc : size ≤ c) (hc' : size ≤ c') : m₁ = m₂ :=
  memory_eq_of_elems hA h₁.wf h₂.wf (fun a ha => (h₁.outside a ha).trans (h₂.outside a ha).symm) fun i hi => by
    rw [h₁.elems i hi, h₂.elems i hi, if_pos (by omega), if_pos (by omega)]

/-! The generic kernel. -/

/-- The tone of element i in the generic kernel, converted to T (41_shift_generic.md R164, R165). -/
def genericTone (T U : Fmt) (freq phase : Word64) (n i : Nat) : Cx T :=
  cvtTone U T (toneAt U freq phase n (i % n) (i / n))

/-- The generic kernel's live state after q blocks (41_shift_generic.md R164). -/
structure GAfter (T U : Fmt) (base freq phase : Word64) (size n : Nat) (m : Memory) (q : Nat) (r : GRun U) : Prop where
  idx : r.idx = q * n
  tones : r.tones = tonesAt U freq phase n (q - 1)
  mem : Multiplied T base size (genericTone T U freq phase n) (q * n) m r.mem

section
variable {T U : Fmt} {base freq phase : Word64} {size n : Nat} {m : Memory}

theorem GAfter.start (hm : m.wf = true) : GAfter T U base freq phase size n m 0
    { idx := 0, tones := initialTones U freq phase n, mem := m } :=
  ⟨by simp, rfl, by simpa using Multiplied.none hm⟩

theorem div_mul_add {q n k : Nat} (h : k < n) : (q * n + k) / n = q ∧ (q * n + k) % n = k := by
  rw [Nat.mul_comm]
  exact ⟨by rw [Nat.mul_add_div (by omega), Nat.div_eq_of_lt h, Nat.add_zero], by
    rw [Nat.mul_add_mod, Nat.mod_eq_of_lt h]⟩

theorem GAfter.block (hA : base.toNat + fmtEsz T * size ≤ 2 ^ 64) (hn : 0 < n) {q : Nat} {r : GRun U}
    (h : GAfter T U base freq phase size n m q r) :
    GAfter T U base freq phase size n m (q + 1) (gblock T U base size n (stepPhasor U freq n) r) := by
  have htones : (if r.idx ≠ 0 then advanceTones U (stepPhasor U freq n) r.tones else r.tones) =
      tonesAt U freq phase n q := by
    rw [h.idx, h.tones]
    cases q with
    | zero => simp
    | succ q => rw [if_pos (Nat.mul_pos (Nat.succ_pos q) hn).ne', advanceTones_tonesAt, Nat.add_sub_cancel]
  refine ⟨?_, ?_, ?_⟩
  · simp only [gblock, h.idx]; rw [Nat.add_mul, Nat.one_mul]
  · simp only [gblock]; rw [htones, Nat.add_sub_cancel]
  · have := h.mem.run hA ((tonesAt U freq phase n q).map (cvtTone U T)) fun k hk _ => by
      rw [List.length_map, length_tonesAt] at hk
      rw [List.getElem_map, getElem_tonesAt, genericTone, (div_mul_add hk).1, (div_mul_add hk).2]
    rw [List.length_map, length_tonesAt] at this
    simp only [gblock]
    rw [htones, h.idx, Nat.add_mul, Nat.one_mul]
    exact this

/-- The loop runs to the first block boundary at or above SIZE. -/
theorem GAfter.loop (hA : base.toNat + fmtEsz T * size ≤ 2 ^ 64) (hn : 0 < n) :
    ∀ (fuel q : Nat) (r : GRun U), GAfter T U base freq phase size n m q r → size ≤ q * n + fuel →
      (q = 0 ∨ (q - 1) * n < size) →
      ∃ q', GAfter T U base freq phase size n m q' (gloop T U base size n (stepPhasor U freq n) fuel r) ∧
        size ≤ q' * n ∧ (q' = 0 ∨ (q' - 1) * n < size)
  | 0, q, r, h, hf, hq => ⟨q, h, by simpa using hf, hq⟩
  | fuel + 1, q, r, h, hf, hq => by
    rw [gloop]
    split
    · rename_i hlt
      rw [h.idx] at hlt
      exact GAfter.loop hA hn fuel (q + 1) _ (h.block hA hn) (by rw [Nat.add_mul, Nat.one_mul]; omega)
        (.inr (by simpa using hlt))
    · rename_i hge
      rw [h.idx] at hge
      exact ⟨q, h, by omega, hq⟩

theorem blocks_unique {q : Nat} (hn : 0 < n) (h1 : size ≤ q * n) (h2 : q = 0 ∨ (q - 1) * n < size) :
    (size + n - 1) / n = q := by
  rcases h2 with rfl | h2
  · have : size = 0 := by omega
    subst this; exact Nat.div_eq_of_lt (by omega)
  · rcases q with _ | q
    · simp at h1 h2; omega
    · simp only [Nat.add_sub_cancel] at h2
      rw [Nat.add_mul, Nat.one_mul] at h1
      rw [Nat.div_eq_iff hn]
      rw [Nat.add_mul, Nat.one_mul]
      omega

/-- What the generic kernel leaves (41_shift_generic.md R167). -/
theorem grun_spec (hA : base.toNat + fmtEsz T * size ≤ 2 ^ 64) (hn : 0 < n) (hm : m.wf = true) :
    GAfter T U base freq phase size n m ((size + n - 1) / n) (grun T U base freq phase size n m) := by
  obtain ⟨q, h, h1, h2⟩ := GAfter.loop (T := T) (U := U) (freq := freq) (phase := phase) (m := m) hA hn size 0 _
    (GAfter.start hm) (by omega) (.inl rfl)
  rw [blocks_unique hn h1 h2]
  exact h

theorem length_gloop_tones (gstep : Cx U) : ∀ (fuel : Nat) (r : GRun U),
    (gloop T U base size n gstep fuel r).tones.length = r.tones.length
  | 0, _ => rfl
  | fuel + 1, r => by
    rw [gloop]
    split
    · rw [length_gloop_tones gstep fuel]; simp only [gblock]; split <;> simp [advanceTones]
    · rfl

end

/-! The vector kernel. -/

/-- The tone of element i in the vector kernel, converted to T (43_vector_kernel.md R227). -/
abbrev vectorTone (T : Fmt) (freq phase : Word64) (i : Nat) : Cx T := genericTone T .f64 freq phase 4 i

theorem vectorTone_at (T : Fmt) (freq phase : Word64) {q k : Nat} (hk : k < 4) :
    vectorTone T freq phase (4 * q + k) = cvtTone .f64 T (toneAt .f64 freq phase 4 k q) := by
  rw [Nat.mul_comm]
  simp only [vectorTone, genericTone, (div_mul_add hk).1, (div_mul_add hk).2]

/-- The vector kernel's live state after q full blocks (43_vector_kernel.md R227). -/
structure VAfter (T : Fmt) (base freq phase : Word64) (size : Nat) (r0 : VRun) (q : Nat) (r : VRun) : Prop where
  idx : r.idx = 4 * q
  tones : r.masters = tonesAt .f64 freq phase 4 q
  v4held : r.v4.held = 0xF#4
  v5held : r.v5.held = 0xF#4
  mem : Multiplied T base size (vectorTone T freq phase) (4 * q) r0.mem r.mem
  v6narrow : T = .f32 → q ≠ 0 → r.v6.held = 0xF#4 ∧ [sCx r.v6.bits 0, sCx r.v6.bits 1, sCx r.v6.bits 2, sCx r.v6.bits 3] =
    (tonesAt .f64 freq phase 4 (q - 1)).map (cvtTone .f64 .f32)
  v6keep : T = .f64 ∨ q = 0 → r.v6 = r0.v6
  v7keep : q = 0 → r.v7 = r0.v7
  v7last : q ≠ 0 → r.v7 = VReg.full (memReadV r.mem (elemAddr T base (4 * q - if T = .f32 then 4 else 2)))

theorem tonesAt_four (freq phase : Word64) (q : Nat) : tonesAt .f64 freq phase 4 q =
    [toneAt .f64 freq phase 4 0 q, toneAt .f64 freq phase 4 1 q, toneAt .f64 freq phase 4 2 q,
      toneAt .f64 freq phase 4 3 q] := rfl

theorem masters_bcmul2d (r : VRun) (a b : VWord) (c : Cx .f64)
    (h4 : r.v4.bits = bcmul2d a c) (h5 : r.v5.bits = bcmul2d b c) :
    r.masters = advanceTones .f64 c [dCx a 0, dCx a 1, dCx b 0, dCx b 1] := by
  simp [VRun.masters, h4, h5, bcmul2d, advanceTones]

theorem masters_start (s : State) : (vstart s).masters = tonesAt .f64 s.freq s.phase 4 0 := by
  simp [VRun.masters, vstart, VReg.full, masterLow, masterHigh, tonesAt_four, toneAt]

theorem sCx_narrow8 (a b : VWord) :
    [sCx (narrow8 a b) 0, sCx (narrow8 a b) 1, sCx (narrow8 a b) 2, sCx (narrow8 a b) 3] =
      [dCx a 0, dCx a 1, dCx b 0, dCx b 1].map (cvtTone .f64 .f32) := by
  simp [narrow8]

section
variable {T : Fmt} {base freq phase : Word64} {size : Nat} {r0 : VRun}

/-- A full block is four element multiplies. -/
theorem vblock_mem (hA : base.toNat + fmtEsz T * size ≤ 2 ^ 64) (step : Cx .f64) (r : VRun) (hi : r.idx + 4 ≤ size) :
    (vblock T base step r).mem = mulElems T base size r.idx (r.masters.map (cvtTone .f64 T)) r.mem := by
  cases T with
  | f32 =>
    simp only [vblock, vblock32]
    rw [block32_eq hA hi, sCx_narrow8]
    rfl
  | f64 =>
    simp only [vblock, vblock64]
    rw [block64_eq hA (by omega), block64_eq hA (by omega)]
    have := mulElems_append (T := .f64) (base := base) (size := size) [dCx r.v4.bits 0, dCx r.v4.bits 1]
      [dCx r.v5.bits 0, dCx r.v5.bits 1] r.idx r.mem
    exact this.symm

/-- `V[7]` after a full block is what the block last stored. -/
theorem vblock_v7 (step : Cx .f64) (r : VRun) (hm : r.mem.wf = true) :
    (vblock T base step r).v7 =
      VReg.full (memReadV (vblock T base step r).mem (elemAddr T base (r.idx + 4 - if T = .f32 then 4 else 2))) := by
  cases T with
  | f32 =>
    simp only [vblock, vblock32, if_true, Nat.add_sub_cancel]
    rw [memReadV_memWriteV_same hm]
  | f64 =>
    simp only [vblock, vblock64, reduceCtorEq, if_false, show r.idx + 4 - 2 = r.idx + 2 by omega]
    rw [memReadV_memWriteV_same (wf_memWriteV hm _ _)]

theorem VAfter.block (hA : base.toNat + fmtEsz T * size ≤ 2 ^ 64) {q : Nat} {r : VRun}
    (h : VAfter T base freq phase size r0 q r) (hi : r.idx + 4 ≤ size) :
    VAfter T base freq phase size r0 (q + 1) (vblock T base (stepPhasor .f64 freq 4) r) where
  idx := by cases T <;> simp only [vblock, vblock32, vblock64, h.idx] <;> omega
  tones := by
    rw [masters_bcmul2d _ r.v4.bits r.v5.bits (stepPhasor .f64 freq 4) (by cases T <;> rfl) (by cases T <;> rfl)]
    rw [← advanceTones_tonesAt, ← h.tones]; rfl
  v4held := by cases T <;> rfl
  v5held := by cases T <;> rfl
  mem := by
    rw [vblock_mem hA _ r hi, h.idx, h.tones, Nat.mul_add]
    refine h.mem.run hA ((tonesAt .f64 freq phase 4 q).map (cvtTone .f64 T)) fun k hk _ => ?_
    rw [List.length_map, length_tonesAt] at hk
    rw [List.getElem_map, getElem_tonesAt, vectorTone_at _ _ _ hk]
  v6narrow := by
    rintro rfl -
    refine ⟨rfl, ?_⟩
    simp only [vblock, vblock32, VReg.full, Nat.add_sub_cancel]
    rw [sCx_narrow8, ← h.tones]; rfl
  v6keep := by
    rintro (rfl | hq)
    · exact h.v6keep (.inl rfl)
    · omega
  v7keep := fun hq => absurd hq (Nat.succ_ne_zero q)
  v7last := fun _ => by rw [vblock_v7 _ r h.mem.wf, h.idx, Nat.mul_add]

/-- The loop runs every full block. -/
theorem VAfter.loop (hA : base.toNat + fmtEsz T * size ≤ 2 ^ 64) :
    ∀ (fuel q : Nat) (r : VRun), VAfter T base freq phase size r0 q r → size ≤ 4 * q + fuel → 4 * q ≤ size →
      VAfter T base freq phase size r0 (size / 4) (vloop T base size (stepPhasor .f64 freq 4) fuel r)
  | 0, q, r, h, hf, hq => by
    rw [show size / 4 = q by omega]; exact h
  | fuel + 1, q, r, h, hf, hq => by
    have hidx := h.idx
    rw [vloop]
    split
    · exact VAfter.loop hA fuel (q + 1) _ (h.block hA ‹_›) (by omega) (by omega)
    · rw [show size / 4 = q by omega]; exact h

theorem VAfter.start {s : State} (hm : s.mem.wf = true) :
    VAfter T base s.freq s.phase size (vstart s) 0 (vstart s) where
  idx := rfl
  tones := masters_start s
  v4held := rfl
  v5held := rfl
  mem := Multiplied.none hm
  v6narrow := fun _ h => absurd rfl h
  v6keep := fun _ => rfl
  v7keep := fun _ => rfl
  v7last := fun h => absurd rfl h

end

/-- What the vector kernel leaves (43_vector_kernel.md R227). -/
structure VEnd (T : Fmt) (base freq phase : Word64) (size : Nat) (r0 r : VRun) : Prop where
  idx : r.idx = 4 * (size / 4)
  tones : r.masters = tonesAt .f64 freq phase 4 (size / 4)
  v4held : r.v4.held = 0xF#4
  v5held : r.v5.held = 0xF#4
  mem : ∃ c, size ≤ c ∧ Multiplied T base size (vectorTone T freq phase) c r0.mem r.mem
  v6tail : T = .f32 → size % 4 ≠ 0 → r.v6.held = 0xF#4 ∧
    [sCx r.v6.bits 0, sCx r.v6.bits 1, sCx r.v6.bits 2, sCx r.v6.bits 3] =
      (tonesAt .f64 freq phase 4 (size / 4)).map (cvtTone .f64 .f32)
  v6block : T = .f32 → size % 4 = 0 → 4 ≤ size → r.v6.held = 0xF#4 ∧
    [sCx r.v6.bits 0, sCx r.v6.bits 1, sCx r.v6.bits 2, sCx r.v6.bits 3] =
      (tonesAt .f64 freq phase 4 (size / 4 - 1)).map (cvtTone .f64 .f32)
  v6keep : T = .f64 ∨ size = 0 → r.v6 = r0.v6
  v7keep : size < 4 → r.v7 = r0.v7
  v7last : 4 ≤ size → r.v7 = VReg.full (memReadV r.mem (elemAddr T base (4 * (size / 4) - if T = .f32 then 4 else 2)))

/-- A byte below element c is not written by a run of element multiplies from c on. -/
theorem read_mulElems_below {T : Fmt} {base : Word64} {size : Nat} (hA : base.toNat + fmtEsz T * size ≤ 2 ^ 64) :
    ∀ (ts : List (Cx T)) (c : Nat) (m : Memory) {a : Nat}, a < base.toNat + fmtEsz T * c →
      (mulElems T base size c ts m).read a = m.read a
  | [], _, _, _, _ => rfl
  | t :: ts, c, m, a, h => by
    have h' : a < base.toNat + fmtEsz T * (c + 1) := by rw [Nat.mul_add]; omega
    rw [mulElems, read_mulElems_below hA ts (c + 1) _ h']
    split
    · rename_i hc
      rw [mulElem, elemAddr_eq hA hc]
      exact read_memWriteC_outside _ _ _ (.inl h)
    · rfl

section
variable {T : Fmt} {base freq phase : Word64} {size : Nat} {r0 r : VRun}

theorem vtail_masters : (vtail T base size r).masters = r.masters ∧ (vtail T base size r).idx = r.idx ∧
    (vtail T base size r).v4 = r.v4 ∧ (vtail T base size r).v5 = r.v5 ∧ (vtail T base size r).v7 = r.v7 := by
  cases T <;> simp only [vtail, vtail32, vtail64] <;> (try split) <;> simp [VRun.masters]

/-- The tail is a run of element multiplies by the masters. -/
theorem vtail_mem : (vtail T base size r).mem = mulElems T base size r.idx (r.masters.map (cvtTone .f64 T)) r.mem := by
  cases T with
  | f32 =>
    simp only [vtail, vtail32]
    split
    · simp only [sCx_narrow8]; rfl
    · rename_i h
      simp only [VRun.masters, List.map, mulElems]
      rw [if_neg h, if_neg (by omega), if_neg (by omega), if_neg (by omega)]
  | f64 => rfl

/-- The last 32 bytes of the full blocks are not written by the tail. -/
theorem memReadV_mulElems_last (hA : base.toNat + fmtEsz T * size ≤ 2 ^ 64) (ts : List (Cx T)) (m : Memory)
    (h4 : 4 ≤ size) :
    memReadV (mulElems T base size (4 * (size / 4)) ts m)
        (elemAddr T base (4 * (size / 4) - if T = .f32 then 4 else 2)) =
      memReadV m (elemAddr T base (4 * (size / 4) - if T = .f32 then 4 else 2)) := by
  have hd : ∃ d, d ≤ 4 ∧ 0 < d ∧ fmtEsz T * d = 32 ∧ (if T = .f32 then 4 else 2) = d := by cases T <;> simp [fmtEsz]
  obtain ⟨d, hd1, hd2, hd3, hd4⟩ := hd
  rw [hd4]
  refine memReadV_congr fun j hj => read_mulElems_below hA _ _ _ ?_
  have he : fmtEsz T * (4 * (size / 4)) = fmtEsz T * (4 * (size / 4) - d) + 32 := by
    rw [← hd3, ← Nat.mul_add, Nat.sub_add_cancel (by omega)]
  rw [elemAddr_eq hA (by omega), he]
  omega

theorem VAfter.tail (hA : base.toNat + fmtEsz T * size ≤ 2 ^ 64) (h : VAfter T base freq phase size r0 (size / 4) r) :
    VEnd T base freq phase size r0 (vtail T base size r) := by
  obtain ⟨e1, e2, e3, e4, e5⟩ := vtail_masters (T := T) (base := base) (size := size) (r := r)
  have hidx := h.idx
  refine ⟨e2.trans hidx, e1.trans h.tones, by rw [e3, h.v4held], by rw [e4, h.v5held], ?_, ?_, ?_, ?_, ?_, ?_⟩
  · refine ⟨4 * (size / 4) + 4, by omega, ?_⟩
    rw [vtail_mem, hidx, h.tones]
    refine h.mem.run hA ((tonesAt .f64 freq phase 4 (size / 4)).map (cvtTone .f64 T)) fun k hk _ => ?_
    rw [List.length_map, length_tonesAt] at hk
    rw [List.getElem_map, getElem_tonesAt, vectorTone_at _ _ _ hk]
  · rintro rfl h4
    simp only [vtail, vtail32, if_pos (show r.idx < size by omega), VReg.full, sCx_narrow8, true_and]
    rw [← h.tones]; rfl
  · rintro rfl h4 h5
    have := h.v6narrow rfl (by omega)
    simpa only [vtail, vtail32, if_neg (show ¬ r.idx < size by omega)] using this
  · rintro (rfl | rfl)
    · exact h.v6keep (.inl rfl)
    · have := h.v6keep (.inr rfl)
      cases T <;> simpa [vtail, vtail32, vtail64] using this
  · intro h4
    rw [e5]; exact h.v7keep (by omega)
  · intro h4
    rw [e5, h.v7last (by omega), vtail_mem, hidx, memReadV_mulElems_last hA _ _ h4]

end

theorem vrun_spec {T : Fmt} {s : State} (hA : s.base.toNat + fmtEsz T * s.size.toNat ≤ 2 ^ 64) (hm : s.mem.wf = true) :
    VEnd T s.base s.freq s.phase s.size.toNat (vstart s) (vrun T s) :=
  VAfter.tail hA (VAfter.loop hA _ 0 _ (VAfter.start hm) (by omega) (by omega))

end Sys2Proof.Machine
end

