-- ==== Sys2Proof/Laws/State.lean ====
section
/-! SUPPORT. What each update of State leaves in each field: one rewriting lemma for each, so that no proof unfolds a
record update. The proofs unfold first, so that a rewriting step is no definitional step that the kernel would check by
comparing whole states. -/

namespace Sys2Proof.Machine

/-! `V[r] <- x`. -/

@[simp] theorem State.setV_params (s : State) (r : Fin 8) (x : VWord) : (s.setV r x).params = s.params := by
  unfold State.setV; rfl
@[simp] theorem State.setV_status (s : State) (r : Fin 8) (x : VWord) : (s.setV r x).status = s.status := by
  unfold State.setV; rfl
@[simp] theorem State.setV_cfg (s : State) (r : Fin 8) (x : VWord) : (s.setV r x).cfg = s.cfg := by
  unfold State.setV; rfl
@[simp] theorem State.setV_base (s : State) (r : Fin 8) (x : VWord) : (s.setV r x).base = s.base := by
  unfold State.setV; rfl
@[simp] theorem State.setV_size (s : State) (r : Fin 8) (x : VWord) : (s.setV r x).size = s.size := by
  unfold State.setV; rfl
@[simp] theorem State.setV_freq (s : State) (r : Fin 8) (x : VWord) : (s.setV r x).freq = s.freq := by
  unfold State.setV; rfl
@[simp] theorem State.setV_phase (s : State) (r : Fin 8) (x : VWord) : (s.setV r x).phase = s.phase := by
  unfold State.setV; rfl
@[simp] theorem State.setV_step (s : State) (r : Fin 8) (x : VWord) : (s.setV r x).step = s.step := by
  unfold State.setV; rfl
@[simp] theorem State.setV_v (s : State) (r : Fin 8) (x : VWord) : (s.setV r x).v = s.v.set r { bits := x, held := 0xF#4 } := by
  unfold State.setV; rfl
@[simp] theorem State.setV_tone (s : State) (r : Fin 8) (x : VWord) : (s.setV r x).tone = s.tone := by
  unfold State.setV; rfl
@[simp] theorem State.setV_gstep (s : State) (r : Fin 8) (x : VWord) : (s.setV r x).gstep = s.gstep := by
  unfold State.setV; rfl
@[simp] theorem State.setV_seq (s : State) (r : Fin 8) (x : VWord) : (s.setV r x).seq = s.seq := by
  unfold State.setV; rfl
@[simp] theorem State.setV_idx (s : State) (r : Fin 8) (x : VWord) : (s.setV r x).idx = s.idx := by
  unfold State.setV; rfl
@[simp] theorem State.setV_mem (s : State) (r : Fin 8) (x : VWord) : (s.setV r x).mem = s.mem := by
  unfold State.setV; rfl
@[simp] theorem State.setV_inputs (s : State) (r : Fin 8) (x : VWord) : (s.setV r x).inputs = s.inputs := by
  unfold State.setV; rfl
@[simp] theorem State.setV_locked (s : State) (r : Fin 8) (x : VWord) : (s.setV r x).locked = s.locked := by
  unfold State.setV; rfl
@[simp] theorem State.setV_hostData (s : State) (r : Fin 8) (x : VWord) : (s.setV r x).hostData = s.hostData := by
  unfold State.setV; rfl
@[simp] theorem State.setV_freeCtr (s : State) (r : Fin 8) (x : VWord) : (s.setV r x).freeCtr = s.freeCtr := by
  unfold State.setV; rfl

/-! The host's write of one lane. -/

@[simp] theorem State.setVLane_params (s : State) (r : Fin 8) (j : Fin 4) (x : Word64) : (s.setVLane r j x).params = s.params := by
  unfold State.setVLane; rfl
@[simp] theorem State.setVLane_status (s : State) (r : Fin 8) (j : Fin 4) (x : Word64) : (s.setVLane r j x).status = s.status := by
  unfold State.setVLane; rfl
@[simp] theorem State.setVLane_cfg (s : State) (r : Fin 8) (j : Fin 4) (x : Word64) : (s.setVLane r j x).cfg = s.cfg := by
  unfold State.setVLane; rfl
@[simp] theorem State.setVLane_base (s : State) (r : Fin 8) (j : Fin 4) (x : Word64) : (s.setVLane r j x).base = s.base := by
  unfold State.setVLane; rfl
@[simp] theorem State.setVLane_size (s : State) (r : Fin 8) (j : Fin 4) (x : Word64) : (s.setVLane r j x).size = s.size := by
  unfold State.setVLane; rfl
@[simp] theorem State.setVLane_freq (s : State) (r : Fin 8) (j : Fin 4) (x : Word64) : (s.setVLane r j x).freq = s.freq := by
  unfold State.setVLane; rfl
@[simp] theorem State.setVLane_phase (s : State) (r : Fin 8) (j : Fin 4) (x : Word64) : (s.setVLane r j x).phase = s.phase := by
  unfold State.setVLane; rfl
@[simp] theorem State.setVLane_step (s : State) (r : Fin 8) (j : Fin 4) (x : Word64) : (s.setVLane r j x).step = s.step := by
  unfold State.setVLane; rfl
@[simp] theorem State.setVLane_v (s : State) (r : Fin 8) (j : Fin 4) (x : Word64) : (s.setVLane r j x).v = s.v.set r (s.v[r].setLane j x) := by
  unfold State.setVLane; rfl
@[simp] theorem State.setVLane_tone (s : State) (r : Fin 8) (j : Fin 4) (x : Word64) : (s.setVLane r j x).tone = s.tone := by
  unfold State.setVLane; rfl
@[simp] theorem State.setVLane_gstep (s : State) (r : Fin 8) (j : Fin 4) (x : Word64) : (s.setVLane r j x).gstep = s.gstep := by
  unfold State.setVLane; rfl
@[simp] theorem State.setVLane_seq (s : State) (r : Fin 8) (j : Fin 4) (x : Word64) : (s.setVLane r j x).seq = s.seq := by
  unfold State.setVLane; rfl
@[simp] theorem State.setVLane_idx (s : State) (r : Fin 8) (j : Fin 4) (x : Word64) : (s.setVLane r j x).idx = s.idx := by
  unfold State.setVLane; rfl
@[simp] theorem State.setVLane_mem (s : State) (r : Fin 8) (j : Fin 4) (x : Word64) : (s.setVLane r j x).mem = s.mem := by
  unfold State.setVLane; rfl
@[simp] theorem State.setVLane_inputs (s : State) (r : Fin 8) (j : Fin 4) (x : Word64) : (s.setVLane r j x).inputs = s.inputs := by
  unfold State.setVLane; rfl
@[simp] theorem State.setVLane_locked (s : State) (r : Fin 8) (j : Fin 4) (x : Word64) : (s.setVLane r j x).locked = s.locked := by
  unfold State.setVLane; rfl
@[simp] theorem State.setVLane_hostData (s : State) (r : Fin 8) (j : Fin 4) (x : Word64) : (s.setVLane r j x).hostData = s.hostData := by
  unfold State.setVLane; rfl
@[simp] theorem State.setVLane_freeCtr (s : State) (r : Fin 8) (j : Fin 4) (x : Word64) : (s.setVLane r j x).freeCtr = s.freeCtr := by
  unfold State.setVLane; rfl

/-! `STEP <- z`. -/

@[simp] theorem State.setStep_params (s : State) (z : Cx .f64) : (s.setStep z).params = s.params := by
  unfold State.setStep; rfl
@[simp] theorem State.setStep_status (s : State) (z : Cx .f64) : (s.setStep z).status = s.status := by
  unfold State.setStep; rfl
@[simp] theorem State.setStep_cfg (s : State) (z : Cx .f64) : (s.setStep z).cfg = s.cfg := by
  unfold State.setStep; rfl
@[simp] theorem State.setStep_base (s : State) (z : Cx .f64) : (s.setStep z).base = s.base := by
  unfold State.setStep; rfl
@[simp] theorem State.setStep_size (s : State) (z : Cx .f64) : (s.setStep z).size = s.size := by
  unfold State.setStep; rfl
@[simp] theorem State.setStep_freq (s : State) (z : Cx .f64) : (s.setStep z).freq = s.freq := by
  unfold State.setStep; rfl
@[simp] theorem State.setStep_phase (s : State) (z : Cx .f64) : (s.setStep z).phase = s.phase := by
  unfold State.setStep; rfl
@[simp] theorem State.setStep_step (s : State) (z : Cx .f64) :
    (s.setStep z).step = { re := z.re, im := z.im, heldRe := true, heldIm := true } := by
  unfold State.setStep; rfl
@[simp] theorem State.setStep_v (s : State) (z : Cx .f64) : (s.setStep z).v = s.v := by
  unfold State.setStep; rfl
@[simp] theorem State.setStep_tone (s : State) (z : Cx .f64) : (s.setStep z).tone = s.tone := by
  unfold State.setStep; rfl
@[simp] theorem State.setStep_gstep (s : State) (z : Cx .f64) : (s.setStep z).gstep = s.gstep := by
  unfold State.setStep; rfl
@[simp] theorem State.setStep_seq (s : State) (z : Cx .f64) : (s.setStep z).seq = s.seq := by
  unfold State.setStep; rfl
@[simp] theorem State.setStep_idx (s : State) (z : Cx .f64) : (s.setStep z).idx = s.idx := by
  unfold State.setStep; rfl
@[simp] theorem State.setStep_mem (s : State) (z : Cx .f64) : (s.setStep z).mem = s.mem := by
  unfold State.setStep; rfl
@[simp] theorem State.setStep_inputs (s : State) (z : Cx .f64) : (s.setStep z).inputs = s.inputs := by
  unfold State.setStep; rfl
@[simp] theorem State.setStep_locked (s : State) (z : Cx .f64) : (s.setStep z).locked = s.locked := by
  unfold State.setStep; rfl
@[simp] theorem State.setStep_hostData (s : State) (z : Cx .f64) : (s.setStep z).hostData = s.hostData := by
  unfold State.setStep; rfl
@[simp] theorem State.setStep_freeCtr (s : State) (z : Cx .f64) : (s.setStep z).freeCtr = s.freeCtr := by
  unfold State.setStep; rfl

/-! Sample memory replaced. -/

@[simp] theorem State.setMem_params (s : State) (m : Memory) : (s.setMem m).params = s.params := by
  unfold State.setMem; rfl
@[simp] theorem State.setMem_status (s : State) (m : Memory) : (s.setMem m).status = s.status := by
  unfold State.setMem; rfl
@[simp] theorem State.setMem_cfg (s : State) (m : Memory) : (s.setMem m).cfg = s.cfg := by
  unfold State.setMem; rfl
@[simp] theorem State.setMem_base (s : State) (m : Memory) : (s.setMem m).base = s.base := by
  unfold State.setMem; rfl
@[simp] theorem State.setMem_size (s : State) (m : Memory) : (s.setMem m).size = s.size := by
  unfold State.setMem; rfl
@[simp] theorem State.setMem_freq (s : State) (m : Memory) : (s.setMem m).freq = s.freq := by
  unfold State.setMem; rfl
@[simp] theorem State.setMem_phase (s : State) (m : Memory) : (s.setMem m).phase = s.phase := by
  unfold State.setMem; rfl
@[simp] theorem State.setMem_step (s : State) (m : Memory) : (s.setMem m).step = s.step := by
  unfold State.setMem; rfl
@[simp] theorem State.setMem_v (s : State) (m : Memory) : (s.setMem m).v = s.v := by
  unfold State.setMem; rfl
@[simp] theorem State.setMem_tone (s : State) (m : Memory) : (s.setMem m).tone = s.tone := by
  unfold State.setMem; rfl
@[simp] theorem State.setMem_gstep (s : State) (m : Memory) : (s.setMem m).gstep = s.gstep := by
  unfold State.setMem; rfl
@[simp] theorem State.setMem_seq (s : State) (m : Memory) : (s.setMem m).seq = s.seq := by
  unfold State.setMem; rfl
@[simp] theorem State.setMem_idx (s : State) (m : Memory) : (s.setMem m).idx = s.idx := by
  unfold State.setMem; rfl
@[simp] theorem State.setMem_mem (s : State) (m : Memory) : (s.setMem m).mem = m := by
  unfold State.setMem; rfl
@[simp] theorem State.setMem_inputs (s : State) (m : Memory) : (s.setMem m).inputs = s.inputs := by
  unfold State.setMem; rfl
@[simp] theorem State.setMem_locked (s : State) (m : Memory) : (s.setMem m).locked = s.locked := by
  unfold State.setMem; rfl
@[simp] theorem State.setMem_hostData (s : State) (m : Memory) : (s.setMem m).hostData = s.hostData := by
  unfold State.setMem; rfl
@[simp] theorem State.setMem_freeCtr (s : State) (m : Memory) : (s.setMem m).freeCtr = s.freeCtr := by
  unfold State.setMem; rfl

/-! Latching a command word. -/

@[simp] theorem State.latch_params (s : State) (w : BitVec 32) : (s.latch w).params = s.params := by
  unfold State.latch; rfl
@[simp] theorem State.latch_status (s : State) (w : BitVec 32) : (s.latch w).status = s.status.issued := by
  unfold State.latch; rfl
@[simp] theorem State.latch_cfg (s : State) (w : BitVec 32) : (s.latch w).cfg = s.cfg := by
  unfold State.latch; rfl
@[simp] theorem State.latch_base (s : State) (w : BitVec 32) : (s.latch w).base = s.base := by
  unfold State.latch; rfl
@[simp] theorem State.latch_size (s : State) (w : BitVec 32) : (s.latch w).size = s.size := by
  unfold State.latch; rfl
@[simp] theorem State.latch_freq (s : State) (w : BitVec 32) : (s.latch w).freq = s.freq := by
  unfold State.latch; rfl
@[simp] theorem State.latch_phase (s : State) (w : BitVec 32) : (s.latch w).phase = s.phase := by
  unfold State.latch; rfl
@[simp] theorem State.latch_step (s : State) (w : BitVec 32) : (s.latch w).step = s.step := by
  unfold State.latch; rfl
@[simp] theorem State.latch_v (s : State) (w : BitVec 32) : (s.latch w).v = s.v := by
  unfold State.latch; rfl
@[simp] theorem State.latch_tone (s : State) (w : BitVec 32) : (s.latch w).tone = s.tone := by
  unfold State.latch; rfl
@[simp] theorem State.latch_gstep (s : State) (w : BitVec 32) : (s.latch w).gstep = s.gstep := by
  unfold State.latch; rfl
@[simp] theorem State.latch_seq (s : State) (w : BitVec 32) : (s.latch w).seq = .run w := by
  unfold State.latch; rfl
@[simp] theorem State.latch_idx (s : State) (w : BitVec 32) : (s.latch w).idx = s.idx := by
  unfold State.latch; rfl
@[simp] theorem State.latch_mem (s : State) (w : BitVec 32) : (s.latch w).mem = s.mem := by
  unfold State.latch; rfl
@[simp] theorem State.latch_inputs (s : State) (w : BitVec 32) : (s.latch w).inputs = s.inputs := by
  unfold State.latch; rfl
@[simp] theorem State.latch_locked (s : State) (w : BitVec 32) : (s.latch w).locked = s.locked := by
  unfold State.latch; rfl
@[simp] theorem State.latch_hostData (s : State) (w : BitVec 32) : (s.latch w).hostData = s.hostData := by
  unfold State.latch; rfl
@[simp] theorem State.latch_freeCtr (s : State) (w : BitVec 32) : (s.latch w).freeCtr = s.freeCtr := by
  unfold State.latch; rfl

/-! Issue. -/

@[simp] theorem State.issue_params (s : State) (w : BitVec 32) : (s.issue w).params = s.params := by
  unfold State.issue; rfl
@[simp] theorem State.issue_status (s : State) (w : BitVec 32) : (s.issue w).status = s.status.issued := by
  unfold State.issue; rfl
@[simp] theorem State.issue_cfg (s : State) (w : BitVec 32) : (s.issue w).cfg = s.cfg := by
  unfold State.issue; rfl
@[simp] theorem State.issue_base (s : State) (w : BitVec 32) : (s.issue w).base = s.base := by
  unfold State.issue; rfl
@[simp] theorem State.issue_size (s : State) (w : BitVec 32) : (s.issue w).size = s.size := by
  unfold State.issue; rfl
@[simp] theorem State.issue_freq (s : State) (w : BitVec 32) : (s.issue w).freq = s.freq := by
  unfold State.issue; rfl
@[simp] theorem State.issue_phase (s : State) (w : BitVec 32) : (s.issue w).phase = s.phase := by
  unfold State.issue; rfl
@[simp] theorem State.issue_step (s : State) (w : BitVec 32) : (s.issue w).step = s.step := by
  unfold State.issue; rfl
@[simp] theorem State.issue_v (s : State) (w : BitVec 32) : (s.issue w).v = s.v := by
  unfold State.issue; rfl
@[simp] theorem State.issue_tone (s : State) (w : BitVec 32) : (s.issue w).tone = s.tone := by
  unfold State.issue; rfl
@[simp] theorem State.issue_gstep (s : State) (w : BitVec 32) : (s.issue w).gstep = s.gstep := by
  unfold State.issue; rfl
@[simp] theorem State.issue_seq (s : State) (w : BitVec 32) : (s.issue w).seq = .run w := by
  unfold State.issue; rfl
@[simp] theorem State.issue_idx (s : State) (w : BitVec 32) : (s.issue w).idx = s.idx := by
  unfold State.issue; rfl
@[simp] theorem State.issue_mem (s : State) (w : BitVec 32) : (s.issue w).mem = s.mem := by
  unfold State.issue; rfl
@[simp] theorem State.issue_inputs (s : State) (w : BitVec 32) : (s.issue w).inputs = s.inputs := by
  unfold State.issue; rfl
@[simp] theorem State.issue_locked (s : State) (w : BitVec 32) : (s.issue w).locked = accessedBytes s w :: s.locked := by
  unfold State.issue; rfl
@[simp] theorem State.issue_hostData (s : State) (w : BitVec 32) : (s.issue w).hostData = s.hostData := by
  unfold State.issue; rfl
@[simp] theorem State.issue_freeCtr (s : State) (w : BitVec 32) : (s.issue w).freeCtr = s.freeCtr := by
  unfold State.issue; rfl

/-! Completion. -/

@[simp] theorem State.complete_params (s : State) (c : BitVec 2) : (s.complete c).params = s.params := by
  unfold State.complete; rfl
@[simp] theorem State.complete_status (s : State) (c : BitVec 2) : (s.complete c).status = s.status.completed c := by
  unfold State.complete; rfl
@[simp] theorem State.complete_cfg (s : State) (c : BitVec 2) : (s.complete c).cfg = s.cfg := by
  unfold State.complete; rfl
@[simp] theorem State.complete_base (s : State) (c : BitVec 2) : (s.complete c).base = s.base := by
  unfold State.complete; rfl
@[simp] theorem State.complete_size (s : State) (c : BitVec 2) : (s.complete c).size = s.size := by
  unfold State.complete; rfl
@[simp] theorem State.complete_freq (s : State) (c : BitVec 2) : (s.complete c).freq = s.freq := by
  unfold State.complete; rfl
@[simp] theorem State.complete_phase (s : State) (c : BitVec 2) : (s.complete c).phase = s.phase := by
  unfold State.complete; rfl
@[simp] theorem State.complete_step (s : State) (c : BitVec 2) : (s.complete c).step = s.step := by
  unfold State.complete; rfl
@[simp] theorem State.complete_v (s : State) (c : BitVec 2) : (s.complete c).v = s.v := by
  unfold State.complete; rfl
@[simp] theorem State.complete_tone (s : State) (c : BitVec 2) : (s.complete c).tone = s.tone := by
  unfold State.complete; rfl
@[simp] theorem State.complete_gstep (s : State) (c : BitVec 2) : (s.complete c).gstep = s.gstep := by
  unfold State.complete; rfl
@[simp] theorem State.complete_seq (s : State) (c : BitVec 2) : (s.complete c).seq = .idle := by
  unfold State.complete; rfl
@[simp] theorem State.complete_idx (s : State) (c : BitVec 2) : (s.complete c).idx = s.idx := by
  unfold State.complete; rfl
@[simp] theorem State.complete_mem (s : State) (c : BitVec 2) : (s.complete c).mem = s.mem := by
  unfold State.complete; rfl
@[simp] theorem State.complete_inputs (s : State) (c : BitVec 2) : (s.complete c).inputs = s.inputs := by
  unfold State.complete; rfl
@[simp] theorem State.complete_locked (s : State) (c : BitVec 2) : (s.complete c).locked = s.locked := by
  unfold State.complete; rfl
@[simp] theorem State.complete_hostData (s : State) (c : BitVec 2) : (s.complete c).hostData = s.hostData := by
  unfold State.complete; rfl
@[simp] theorem State.complete_freeCtr (s : State) (c : BitVec 2) : (s.complete c).freeCtr = s.freeCtr := by
  unfold State.complete; rfl

/-! Completion of a SHIFT. -/

@[simp] theorem State.completeShift_params (s : State) (c : BitVec 2) (k : Bool) : (s.completeShift c k).params = s.params := by
  unfold State.completeShift; rfl
@[simp] theorem State.completeShift_status (s : State) (c : BitVec 2) (k : Bool) : (s.completeShift c k).status = (s.status.completed c).withKvec k := by
  unfold State.completeShift; rfl
@[simp] theorem State.completeShift_cfg (s : State) (c : BitVec 2) (k : Bool) : (s.completeShift c k).cfg = s.cfg := by
  unfold State.completeShift; rfl
@[simp] theorem State.completeShift_base (s : State) (c : BitVec 2) (k : Bool) : (s.completeShift c k).base = s.base := by
  unfold State.completeShift; rfl
@[simp] theorem State.completeShift_size (s : State) (c : BitVec 2) (k : Bool) : (s.completeShift c k).size = s.size := by
  unfold State.completeShift; rfl
@[simp] theorem State.completeShift_freq (s : State) (c : BitVec 2) (k : Bool) : (s.completeShift c k).freq = s.freq := by
  unfold State.completeShift; rfl
@[simp] theorem State.completeShift_phase (s : State) (c : BitVec 2) (k : Bool) : (s.completeShift c k).phase = s.phase := by
  unfold State.completeShift; rfl
@[simp] theorem State.completeShift_step (s : State) (c : BitVec 2) (k : Bool) : (s.completeShift c k).step = s.step := by
  unfold State.completeShift; rfl
@[simp] theorem State.completeShift_v (s : State) (c : BitVec 2) (k : Bool) : (s.completeShift c k).v = s.v := by
  unfold State.completeShift; rfl
@[simp] theorem State.completeShift_tone (s : State) (c : BitVec 2) (k : Bool) : (s.completeShift c k).tone = s.tone := by
  unfold State.completeShift; rfl
@[simp] theorem State.completeShift_gstep (s : State) (c : BitVec 2) (k : Bool) : (s.completeShift c k).gstep = s.gstep := by
  unfold State.completeShift; rfl
@[simp] theorem State.completeShift_seq (s : State) (c : BitVec 2) (k : Bool) : (s.completeShift c k).seq = .idle := by
  unfold State.completeShift; rfl
@[simp] theorem State.completeShift_idx (s : State) (c : BitVec 2) (k : Bool) : (s.completeShift c k).idx = s.idx := by
  unfold State.completeShift; rfl
@[simp] theorem State.completeShift_mem (s : State) (c : BitVec 2) (k : Bool) : (s.completeShift c k).mem = s.mem := by
  unfold State.completeShift; rfl
@[simp] theorem State.completeShift_inputs (s : State) (c : BitVec 2) (k : Bool) : (s.completeShift c k).inputs = s.inputs := by
  unfold State.completeShift; rfl
@[simp] theorem State.completeShift_locked (s : State) (c : BitVec 2) (k : Bool) : (s.completeShift c k).locked = s.locked := by
  unfold State.completeShift; rfl
@[simp] theorem State.completeShift_hostData (s : State) (c : BitVec 2) (k : Bool) : (s.completeShift c k).hostData = s.hostData := by
  unfold State.completeShift; rfl
@[simp] theorem State.completeShift_freeCtr (s : State) (c : BitVec 2) (k : Bool) : (s.completeShift c k).freeCtr = s.freeCtr := by
  unfold State.completeShift; rfl

/-! Drawing free values. -/

@[simp] theorem State.draw_params (s : State) : s.draw.params = s.params := by
  unfold State.draw; rfl
@[simp] theorem State.draw_status (s : State) : s.draw.status = s.status := by
  unfold State.draw; rfl
@[simp] theorem State.draw_cfg (s : State) : s.draw.cfg = s.cfg := by
  unfold State.draw; rfl
@[simp] theorem State.draw_base (s : State) : s.draw.base = s.base := by
  unfold State.draw; rfl
@[simp] theorem State.draw_size (s : State) : s.draw.size = s.size := by
  unfold State.draw; rfl
@[simp] theorem State.draw_freq (s : State) : s.draw.freq = s.freq := by
  unfold State.draw; rfl
@[simp] theorem State.draw_phase (s : State) : s.draw.phase = s.phase := by
  unfold State.draw; rfl
@[simp] theorem State.draw_step (s : State) : s.draw.step = s.step := by
  unfold State.draw; rfl
@[simp] theorem State.draw_v (s : State) : s.draw.v = s.v := by
  unfold State.draw; rfl
@[simp] theorem State.draw_tone (s : State) : s.draw.tone = s.tone := by
  unfold State.draw; rfl
@[simp] theorem State.draw_gstep (s : State) : s.draw.gstep = s.gstep := by
  unfold State.draw; rfl
@[simp] theorem State.draw_seq (s : State) : s.draw.seq = s.seq := by
  unfold State.draw; rfl
@[simp] theorem State.draw_idx (s : State) : s.draw.idx = s.idx := by
  unfold State.draw; rfl
@[simp] theorem State.draw_mem (s : State) : s.draw.mem = s.mem := by
  unfold State.draw; rfl
@[simp] theorem State.draw_inputs (s : State) : s.draw.inputs = s.inputs := by
  unfold State.draw; rfl
@[simp] theorem State.draw_locked (s : State) : s.draw.locked = s.locked := by
  unfold State.draw; rfl
@[simp] theorem State.draw_hostData (s : State) : s.draw.hostData = s.hostData := by
  unfold State.draw; rfl
@[simp] theorem State.draw_freeCtr (s : State) : s.draw.freeCtr = s.freeCtr + 1 := by
  unfold State.draw; rfl

/-! A read that returns a value. -/

@[simp] theorem State.returns_params (s : State) (x : Word64) : (s.returns x).params = s.params := by
  unfold State.returns; rfl
@[simp] theorem State.returns_status (s : State) (x : Word64) : (s.returns x).status = s.status := by
  unfold State.returns; rfl
@[simp] theorem State.returns_cfg (s : State) (x : Word64) : (s.returns x).cfg = s.cfg := by
  unfold State.returns; rfl
@[simp] theorem State.returns_base (s : State) (x : Word64) : (s.returns x).base = s.base := by
  unfold State.returns; rfl
@[simp] theorem State.returns_size (s : State) (x : Word64) : (s.returns x).size = s.size := by
  unfold State.returns; rfl
@[simp] theorem State.returns_freq (s : State) (x : Word64) : (s.returns x).freq = s.freq := by
  unfold State.returns; rfl
@[simp] theorem State.returns_phase (s : State) (x : Word64) : (s.returns x).phase = s.phase := by
  unfold State.returns; rfl
@[simp] theorem State.returns_step (s : State) (x : Word64) : (s.returns x).step = s.step := by
  unfold State.returns; rfl
@[simp] theorem State.returns_v (s : State) (x : Word64) : (s.returns x).v = s.v := by
  unfold State.returns; rfl
@[simp] theorem State.returns_tone (s : State) (x : Word64) : (s.returns x).tone = s.tone := by
  unfold State.returns; rfl
@[simp] theorem State.returns_gstep (s : State) (x : Word64) : (s.returns x).gstep = s.gstep := by
  unfold State.returns; rfl
@[simp] theorem State.returns_seq (s : State) (x : Word64) : (s.returns x).seq = s.seq := by
  unfold State.returns; rfl
@[simp] theorem State.returns_idx (s : State) (x : Word64) : (s.returns x).idx = s.idx := by
  unfold State.returns; rfl
@[simp] theorem State.returns_mem (s : State) (x : Word64) : (s.returns x).mem = s.mem := by
  unfold State.returns; rfl
@[simp] theorem State.returns_inputs (s : State) (x : Word64) : (s.returns x).inputs = s.inputs := by
  unfold State.returns; rfl
@[simp] theorem State.returns_locked (s : State) (x : Word64) : (s.returns x).locked = s.locked := by
  unfold State.returns; rfl
@[simp] theorem State.returns_hostData (s : State) (x : Word64) : (s.returns x).hostData = x := by
  unfold State.returns; rfl
@[simp] theorem State.returns_freeCtr (s : State) (x : Word64) : (s.returns x).freeCtr = s.freeCtr := by
  unfold State.returns; rfl

/-! A read that returns an unspecified value. -/

@[simp] theorem State.returnsFree_params (s : State) : s.returnsFree.params = s.params := by
  unfold State.returnsFree; rfl
@[simp] theorem State.returnsFree_status (s : State) : s.returnsFree.status = s.status := by
  unfold State.returnsFree; rfl
@[simp] theorem State.returnsFree_cfg (s : State) : s.returnsFree.cfg = s.cfg := by
  unfold State.returnsFree; rfl
@[simp] theorem State.returnsFree_base (s : State) : s.returnsFree.base = s.base := by
  unfold State.returnsFree; rfl
@[simp] theorem State.returnsFree_size (s : State) : s.returnsFree.size = s.size := by
  unfold State.returnsFree; rfl
@[simp] theorem State.returnsFree_freq (s : State) : s.returnsFree.freq = s.freq := by
  unfold State.returnsFree; rfl
@[simp] theorem State.returnsFree_phase (s : State) : s.returnsFree.phase = s.phase := by
  unfold State.returnsFree; rfl
@[simp] theorem State.returnsFree_step (s : State) : s.returnsFree.step = s.step := by
  unfold State.returnsFree; rfl
@[simp] theorem State.returnsFree_v (s : State) : s.returnsFree.v = s.v := by
  unfold State.returnsFree; rfl
@[simp] theorem State.returnsFree_tone (s : State) : s.returnsFree.tone = s.tone := by
  unfold State.returnsFree; rfl
@[simp] theorem State.returnsFree_gstep (s : State) : s.returnsFree.gstep = s.gstep := by
  unfold State.returnsFree; rfl
@[simp] theorem State.returnsFree_seq (s : State) : s.returnsFree.seq = s.seq := by
  unfold State.returnsFree; rfl
@[simp] theorem State.returnsFree_idx (s : State) : s.returnsFree.idx = s.idx := by
  unfold State.returnsFree; rfl
@[simp] theorem State.returnsFree_mem (s : State) : s.returnsFree.mem = s.mem := by
  unfold State.returnsFree; rfl
@[simp] theorem State.returnsFree_inputs (s : State) : s.returnsFree.inputs = s.inputs := by
  unfold State.returnsFree; rfl
@[simp] theorem State.returnsFree_locked (s : State) : s.returnsFree.locked = s.locked := by
  unfold State.returnsFree; rfl
@[simp] theorem State.returnsFree_hostData (s : State) : s.returnsFree.hostData = Config.freeWord s.freeCtr 0 := by
  unfold State.returnsFree; rfl
@[simp] theorem State.returnsFree_freeCtr (s : State) : s.returnsFree.freeCtr = s.freeCtr + 1 := by
  unfold State.returnsFree; rfl

/-! STATUS. -/

@[simp] theorem Status.issued_eq (t : Status) :
    t.issued = { busy := true, done := false, err := 0#2, kvec := t.kvec } := rfl
@[simp] theorem Status.completed_eq (c : BitVec 2) (t : Status) :
    t.completed c = { busy := false, done := true, err := c, kvec := t.kvec } := rfl
@[simp] theorem Status.withKvec_eq (k : Bool) (t : Status) : t.withKvec k = { t with kvec := k } := rfl

/-- Taking a fault writes STATUS and SEQ only (60_exceptions.md R276). -/
theorem State.raise_eq (s : State) (e : Exc) (sh : Bool) : s.raise e sh =
    { s with
      seq := .idle
      status := { busy := false, done := true, err := e.code, kvec := if sh then false else s.status.kvec } } := by
  cases sh <;> rfl

theorem State.complete_eq (s : State) (c : BitVec 2) : s.complete c =
    { s with seq := .idle, status := { busy := false, done := true, err := c, kvec := s.status.kvec } } := rfl

theorem State.completeShift_eq (s : State) (c : BitVec 2) (k : Bool) : s.completeShift c k =
    { s with seq := .idle, status := { busy := false, done := true, err := c, kvec := k } } := rfl

theorem State.complete_setMem_eq (s : State) (m : Memory) (c : BitVec 2) : (s.setMem m).complete c =
    { s with
      mem := m, seq := .idle
      status := { busy := false, done := true, err := c, kvec := s.status.kvec } } := rfl

/-! One vector register. -/

@[simp] theorem State.setV_same (s : State) (r : Fin 8) (x : VWord) :
    (s.setV r x).v[r] = { bits := x, held := 0xF#4 } := by simp [State.setV]

theorem State.setV_ne (s : State) {r r' : Fin 8} (x : VWord) (h : r' ≠ r) : (s.setV r x).v[r'] = s.v[r'] := by
  have : r.val ≠ r'.val := fun e => h (Fin.ext e.symm)
  simp [State.setV, this]

theorem State.setVLane_ne (s : State) {r r' : Fin 8} (j : Fin 4) (x : Word64) (h : r' ≠ r) :
    (s.setVLane r j x).v[r'] = s.v[r'] := by
  have : r.val ≠ r'.val := fun e => h (Fin.ext e.symm)
  simp [State.setVLane, this]

@[simp] theorem State.vBits_setV_same (s : State) (r : Fin 8) (x : VWord) : (s.setV r x).vBits r = x := by
  rw [State.vBits, State.setV_same]

theorem State.vBits_setV_ne (s : State) {r r' : Fin 8} (x : VWord) (h : r' ≠ r) :
    (s.setV r x).vBits r' = s.vBits r' := by rw [State.vBits, State.setV_ne s x h, State.vBits]

@[simp] theorem State.vBits_complete (s : State) (c : BitVec 2) (r : Fin 8) : (s.complete c).vBits r = s.vBits r := by
  unfold State.complete; rfl
@[simp] theorem State.vBits_setMem (s : State) (m : Memory) (r : Fin 8) : (s.setMem m).vBits r = s.vBits r := by
  unfold State.setMem; rfl
@[simp] theorem State.vBits_setStep (s : State) (z : Cx .f64) (r : Fin 8) : (s.setStep z).vBits r = s.vBits r := by
  unfold State.setStep; rfl

end Sys2Proof.Machine
end

