-- ==== Sys2Proof/Laws/Commands.lean ====
section
/-! SUPPORT. What a command can do: the meanings as equations under their preconditions, and one law for everything that
every completed command leaves alone. -/

namespace Sys2Proof.Machine

/-! The array of a SHIFT. -/

theorem arrayInMemory_iff (s : State) : s.arrayInMemory = true ↔
    s.size = 0#64 ∨ s.base.toNat + fmtEsz s.fmtT * s.size.toNat ≤ s.params.memBytes.val := by
  simp [State.arrayInMemory, State.inMemory]

theorem memBytes_le (s : State) : s.params.memBytes.val ≤ 2 ^ 64 := Nat.le_of_lt_succ s.params.memBytes.isLt

/-- An array in memory ends at or below 2^64: no address of it wraps (20_memory.md R72). -/
theorem array_le {s : State} (h : s.arrayInMemory = true) : s.base.toNat + fmtEsz s.fmtT * s.size.toNat ≤ 2 ^ 64 := by
  have hb := s.base.isLt
  have hm := memBytes_le s
  rcases (arrayInMemory_iff s).1 h with h | h
  · rw [h]; simp; omega
  · omega

theorem vecInMemory_iff (s : State) (imm : BitVec 16) : s.vecInMemory imm = true ↔
    s.base.toNat + 32 * imm.toNat + 32 ≤ s.params.memBytes.val := by simp [State.vecInMemory, State.inMemory]

theorem vecInMemory_congr {s t : State} (imm : BitVec 16) (hp : t.params = s.params) (hb : t.base = s.base) :
    t.vecInMemory imm = s.vecInMemory imm := by simp only [State.vecInMemory, State.inMemory, hp, hb]

/-- The address of a VLD or VST in memory does not wrap. -/
theorem vecAddr_eq {s : State} {imm : BitVec 16} (h : s.vecInMemory imm = true) :
    vecAddr s.base imm = s.base.toNat + 32 * imm.toNat := by
  have h1 := (vecInMemory_iff s imm).1 h
  have h2 := memBytes_le s
  exact Nat.mod_eq_of_lt (by omega)

theorem unroll_pos (s : State) : 0 < s.unroll := Nat.succ_pos _

theorem unroll_le (s : State) : s.unroll ≤ 8 := (s.cfg.extractLsb' 4 3).isLt

/-! The meanings as equations. -/

theorem execShift_valid {s : State} (hv : validFreq s.freq = true) (ha : s.arrayInMemory = true) :
    execShift s = .next (shiftResult s) := by simp [execShift, hv, ha]

theorem execShift_invalid {s : State} (hv : validFreq s.freq = false) :
    execShift s = .next (s.raise .invalidFreq true) := by simp [execShift, hv]

/-- Everything SHIFT can do. -/
theorem execShift_cases {s t : State} (h : execShift s = .next t) :
    (validFreq s.freq = false ∧ t = s.raise .invalidFreq true) ∨
      (validFreq s.freq = true ∧ s.arrayInMemory = true ∧ t = shiftResult s) := by
  unfold execShift at h
  split at h
  · rename_i hv
    exact .inl ⟨by simpa using hv, (Host.Outcome.next.inj h).symm⟩
  · split at h
    · cases h
    · rename_i hv ha
      exact .inr ⟨by simpa using hv, by simpa using ha, (Host.Outcome.next.inj h).symm⟩

theorem vectorCommand_run {s : State} {ok : Bool} (body : Host.Outcome State Fault Refusal)
    (hv : s.params.hasVec = true) (hr : ok = true) : vectorCommand ok s body = body := by simp [vectorCommand, hv, hr]

theorem vectorCommand_illegal {s : State} {ok : Bool} (body : Host.Outcome State Fault Refusal)
    (h : s.params.hasVec = false ∨ ok = false) : vectorCommand ok s body = .next (s.raise .illegalCmd false) := by
  rcases h with h | h <;> simp [vectorCommand, h]

theorem exec_tgen {s : State} (hv : s.params.hasVec = true) (hf : validFreq s.freq = true) :
    exec .tgen s = .next ((tgenBody s).complete okCode) := by
  show execTgen s = _
  rw [execTgen, vectorCommand_run _ hv rfl]; simp [hf]

theorem exec_vnarrow {s : State} {rd ra rb : BitVec 4} (hv : s.params.hasVec = true) (hd : rd.toNat < 8)
    (ha : ra.toNat < 8) (hb : rb.toNat < 8) : exec (.vnarrow rd ra rb) s =
      .next ((s.setV (vnum rd) (narrow8 (s.vBits (vnum ra)) (s.vBits (vnum rb)))).complete okCode) :=
  vectorCommand_run _ hv (by simp [hd, ha, hb])

theorem exec_vcmul4s {s : State} {rd ra : BitVec 4} (hv : s.params.hasVec = true) (hd : rd.toNat < 8)
    (ha : ra.toNat < 8) : exec (.vcmul4s rd ra) s =
      .next ((s.setV (vnum rd) (cmul4s (s.vBits (vnum rd)) (s.vBits (vnum ra)))).complete okCode) :=
  vectorCommand_run _ hv (by simp [hd, ha])

theorem exec_vcmul2d {s : State} {rd ra : BitVec 4} (hv : s.params.hasVec = true) (hd : rd.toNat < 8)
    (ha : ra.toNat < 8) : exec (.vcmul2d rd ra) s =
      .next ((s.setV (vnum rd) (cmul2d (s.vBits (vnum rd)) (s.vBits (vnum ra)))).complete okCode) :=
  vectorCommand_run _ hv (by simp [hd, ha])

theorem exec_vbcmul2d {s : State} {rd : BitVec 4} (hv : s.params.hasVec = true) (hd : rd.toNat < 8) :
    exec (.vbcmul2d rd) s =
      .next ((s.setV (vnum rd) (bcmul2d (s.vBits (vnum rd)) s.step.value)).complete okCode) :=
  vectorCommand_run _ hv (by simp [hd])

theorem exec_vld {s : State} {rd : BitVec 4} {imm : BitVec 16} (hv : s.params.hasVec = true) (hd : rd.toNat < 8)
    (hm : s.vecInMemory imm = true) : exec (.vld rd imm) s =
      .next ((s.setV (vnum rd) (memReadV s.mem (vecAddr s.base imm))).complete okCode) := by
  show execVld rd imm s = _
  rw [execVld, vectorCommand_run _ hv (by simp [hd]), if_pos hm, writeAndComplete]

theorem exec_vst {s : State} {rd : BitVec 4} {imm : BitVec 16} (hv : s.params.hasVec = true) (hd : rd.toNat < 8)
    (hm : s.vecInMemory imm = true) : exec (.vst rd imm) s =
      .next ((s.setMem (memWriteV s.mem (vecAddr s.base imm) (s.vBits (vnum rd)))).complete okCode) := by
  show execVst rd imm s = _
  rw [execVst, vectorCommand_run _ hv (by simp [hd]), if_pos hm]

/-- Everything a command of the vector datapath can do: take ILLEGAL_CMD, or its body. -/
theorem vectorCommand_cases {s t : State} {ok : Bool} {body : Host.Outcome State Fault Refusal}
    (h : vectorCommand ok s body = .next t) :
    t = s.raise .illegalCmd false ∨ (s.params.hasVec = true ∧ ok = true ∧ body = .next t) := by
  unfold vectorCommand at h
  split at h
  · rename_i hc
    rw [Bool.and_eq_true] at hc
    exact .inr ⟨hc.1, hc.2, h⟩
  · exact .inl (Host.Outcome.next.inj h).symm

/-- Everything a command other than SHIFT can do: take a fault, write one vector register, write the tones and the step,
or store one vector register; and then complete. -/
theorem exec_cases {i : Instr} {s t : State} (hi : i ≠ .shift) (h : exec i s = .next t) :
    (∃ e, t = s.raise e false) ∨
      (i ≠ .tgen ∧ (∀ rd imm, i ≠ .vst rd imm) ∧ ∃ d x, t = (s.setV d x).complete okCode) ∨
      (i = .tgen ∧ t = (tgenBody s).complete okCode) ∨
      (∃ rd imm, i = .vst rd imm ∧ s.vecInMemory imm = true ∧
        t = (s.setMem (memWriteV s.mem (vecAddr s.base imm) (s.vBits (vnum rd)))).complete okCode) := by
  cases i with
  | shift => exact absurd rfl hi
  | tgen =>
    rcases vectorCommand_cases h with h | ⟨-, -, h⟩
    · exact .inl ⟨_, h⟩
    · split at h
      · exact .inl ⟨_, (Host.Outcome.next.inj h).symm⟩
      · exact .inr (.inr (.inl ⟨rfl, (Host.Outcome.next.inj h).symm⟩))
  | vnarrow rd ra rb =>
    rcases vectorCommand_cases h with h | ⟨-, -, h⟩
    · exact .inl ⟨_, h⟩
    · exact .inr (.inl ⟨nofun, nofun, _, _, (Host.Outcome.next.inj h).symm⟩)
  | vcmul4s rd ra =>
    rcases vectorCommand_cases h with h | ⟨-, -, h⟩
    · exact .inl ⟨_, h⟩
    · exact .inr (.inl ⟨nofun, nofun, _, _, (Host.Outcome.next.inj h).symm⟩)
  | vcmul2d rd ra =>
    rcases vectorCommand_cases h with h | ⟨-, -, h⟩
    · exact .inl ⟨_, h⟩
    · exact .inr (.inl ⟨nofun, nofun, _, _, (Host.Outcome.next.inj h).symm⟩)
  | vbcmul2d rd =>
    rcases vectorCommand_cases h with h | ⟨-, -, h⟩
    · exact .inl ⟨_, h⟩
    · exact .inr (.inl ⟨nofun, nofun, _, _, (Host.Outcome.next.inj h).symm⟩)
  | vld rd imm =>
    rcases vectorCommand_cases h with h | ⟨-, -, h⟩
    · exact .inl ⟨_, h⟩
    · split at h
      · exact .inr (.inl ⟨nofun, nofun, _, _, (Host.Outcome.next.inj h).symm⟩)
      · cases h
  | vst rd imm =>
    rcases vectorCommand_cases h with h | ⟨-, -, h⟩
    · exact .inl ⟨_, h⟩
    · split at h
      · exact .inr (.inr (.inr ⟨rd, imm, rfl, ‹_›, (Host.Outcome.next.inj h).symm⟩))
      · cases h

/-! The states the kernels and TGEN leave, field by field. -/

@[simp] theorem gshift_params (s : State) : (gshift s).params = s.params := by
  unfold gshift; rfl
@[simp] theorem gshift_status (s : State) : (gshift s).status = s.status := by
  unfold gshift; rfl
@[simp] theorem gshift_cfg (s : State) : (gshift s).cfg = s.cfg := by
  unfold gshift; rfl
@[simp] theorem gshift_base (s : State) : (gshift s).base = s.base := by
  unfold gshift; rfl
@[simp] theorem gshift_size (s : State) : (gshift s).size = s.size := by
  unfold gshift; rfl
@[simp] theorem gshift_freq (s : State) : (gshift s).freq = s.freq := by
  unfold gshift; rfl
@[simp] theorem gshift_phase (s : State) : (gshift s).phase = s.phase := by
  unfold gshift; rfl
@[simp] theorem gshift_step (s : State) : (gshift s).step = s.step := by
  unfold gshift; rfl
@[simp] theorem gshift_v (s : State) : (gshift s).v = s.v := by
  unfold gshift; rfl
@[simp] theorem gshift_tone (s : State) : (gshift s).tone =
    writeTones s.fmtU s.tone 0 (grun s.fmtT s.fmtU s.base s.freq s.phase s.size.toNat s.unroll s.mem).tones := by
  unfold gshift; rfl
@[simp] theorem gshift_gstep (s : State) : (gshift s).gstep =
    ToneReg.of s.fmtU (stepPhasor s.fmtU s.freq s.unroll) := by
  unfold gshift; rfl
@[simp] theorem gshift_seq (s : State) : (gshift s).seq = s.seq := by
  unfold gshift; rfl
@[simp] theorem gshift_idx (s : State) : (gshift s).idx =
    BitVec.ofNat 64 (grun s.fmtT s.fmtU s.base s.freq s.phase s.size.toNat s.unroll s.mem).idx := by
  unfold gshift; rfl
@[simp] theorem gshift_mem (s : State) : (gshift s).mem =
    (grun s.fmtT s.fmtU s.base s.freq s.phase s.size.toNat s.unroll s.mem).mem := by
  unfold gshift; rfl
@[simp] theorem gshift_inputs (s : State) : (gshift s).inputs = s.inputs := by
  unfold gshift; rfl
@[simp] theorem gshift_locked (s : State) : (gshift s).locked = s.locked := by
  unfold gshift; rfl
@[simp] theorem gshift_hostData (s : State) : (gshift s).hostData = s.hostData := by
  unfold gshift; rfl
@[simp] theorem gshift_freeCtr (s : State) : (gshift s).freeCtr = s.freeCtr := by
  unfold gshift; rfl

@[simp] theorem vshift_params (s : State) (T : Fmt) : (vshift T s).params = s.params := by
  unfold vshift; rfl
@[simp] theorem vshift_status (s : State) (T : Fmt) : (vshift T s).status = s.status := by
  unfold vshift; rfl
@[simp] theorem vshift_cfg (s : State) (T : Fmt) : (vshift T s).cfg = s.cfg := by
  unfold vshift; rfl
@[simp] theorem vshift_base (s : State) (T : Fmt) : (vshift T s).base = s.base := by
  unfold vshift; rfl
@[simp] theorem vshift_size (s : State) (T : Fmt) : (vshift T s).size = s.size := by
  unfold vshift; rfl
@[simp] theorem vshift_freq (s : State) (T : Fmt) : (vshift T s).freq = s.freq := by
  unfold vshift; rfl
@[simp] theorem vshift_phase (s : State) (T : Fmt) : (vshift T s).phase = s.phase := by
  unfold vshift; rfl
@[simp] theorem vshift_step (s : State) (T : Fmt) : (vshift T s).step =
    { re := (stepPhasor .f64 s.freq 4).re, im := (stepPhasor .f64 s.freq 4).im, heldRe := true, heldIm := true } := by
  unfold vshift; rfl
@[simp] theorem vshift_v (s : State) (T : Fmt) : (vshift T s).v =
    (((s.v.set 4 (vrun T s).v4).set 5 (vrun T s).v5).set 6 (vrun T s).v6).set 7 (vrun T s).v7 := by
  unfold vshift; rfl
@[simp] theorem vshift_tone (s : State) (T : Fmt) : (vshift T s).tone = s.tone := by
  unfold vshift; rfl
@[simp] theorem vshift_gstep (s : State) (T : Fmt) : (vshift T s).gstep = s.gstep := by
  unfold vshift; rfl
@[simp] theorem vshift_seq (s : State) (T : Fmt) : (vshift T s).seq = s.seq := by
  unfold vshift; rfl
@[simp] theorem vshift_idx (s : State) (T : Fmt) : (vshift T s).idx = BitVec.ofNat 64 (vrun T s).idx := by
  unfold vshift; rfl
@[simp] theorem vshift_mem (s : State) (T : Fmt) : (vshift T s).mem = (vrun T s).mem := by
  unfold vshift; rfl
@[simp] theorem vshift_inputs (s : State) (T : Fmt) : (vshift T s).inputs = s.inputs := by
  unfold vshift; rfl
@[simp] theorem vshift_locked (s : State) (T : Fmt) : (vshift T s).locked = s.locked := by
  unfold vshift; rfl
@[simp] theorem vshift_hostData (s : State) (T : Fmt) : (vshift T s).hostData = s.hostData := by
  unfold vshift; rfl
@[simp] theorem vshift_freeCtr (s : State) (T : Fmt) : (vshift T s).freeCtr = s.freeCtr := by
  unfold vshift; rfl

@[simp] theorem tgenBody_params (s : State) : (tgenBody s).params = s.params := by
  unfold tgenBody; rfl
@[simp] theorem tgenBody_status (s : State) : (tgenBody s).status = s.status := by
  unfold tgenBody; rfl
@[simp] theorem tgenBody_cfg (s : State) : (tgenBody s).cfg = s.cfg := by
  unfold tgenBody; rfl
@[simp] theorem tgenBody_base (s : State) : (tgenBody s).base = s.base := by
  unfold tgenBody; rfl
@[simp] theorem tgenBody_size (s : State) : (tgenBody s).size = s.size := by
  unfold tgenBody; rfl
@[simp] theorem tgenBody_freq (s : State) : (tgenBody s).freq = s.freq := by
  unfold tgenBody; rfl
@[simp] theorem tgenBody_phase (s : State) : (tgenBody s).phase = s.phase := by
  unfold tgenBody; rfl
@[simp] theorem tgenBody_step (s : State) : (tgenBody s).step =
    { re := (stepPhasor .f64 s.freq 4).re, im := (stepPhasor .f64 s.freq 4).im, heldRe := true, heldIm := true } := by
  unfold tgenBody; rfl
@[simp] theorem tgenBody_v (s : State) : (tgenBody s).v =
    (s.v.set 4 { bits := masterLow s.freq s.phase, held := 0xF#4 }).set 5
      { bits := masterHigh s.freq s.phase, held := 0xF#4 } := by
  unfold tgenBody; rfl
@[simp] theorem tgenBody_tone (s : State) : (tgenBody s).tone = s.tone := by
  unfold tgenBody; rfl
@[simp] theorem tgenBody_gstep (s : State) : (tgenBody s).gstep = s.gstep := by
  unfold tgenBody; rfl
@[simp] theorem tgenBody_seq (s : State) : (tgenBody s).seq = s.seq := by
  unfold tgenBody; rfl
@[simp] theorem tgenBody_idx (s : State) : (tgenBody s).idx = s.idx := by
  unfold tgenBody; rfl
@[simp] theorem tgenBody_mem (s : State) : (tgenBody s).mem = s.mem := by
  unfold tgenBody; rfl
@[simp] theorem tgenBody_inputs (s : State) : (tgenBody s).inputs = s.inputs := by
  unfold tgenBody; rfl
@[simp] theorem tgenBody_locked (s : State) : (tgenBody s).locked = s.locked := by
  unfold tgenBody; rfl
@[simp] theorem tgenBody_hostData (s : State) : (tgenBody s).hostData = s.hostData := by
  unfold tgenBody; rfl
@[simp] theorem tgenBody_freeCtr (s : State) : (tgenBody s).freeCtr = s.freeCtr := by
  unfold tgenBody; rfl

theorem vshift_get (s : State) (T : Fmt) (r : Fin 8) : (vshift T s).v[r] =
    if r = 4 then (vrun T s).v4 else if r = 5 then (vrun T s).v5 else if r = 6 then (vrun T s).v6
    else if r = 7 then (vrun T s).v7 else s.v[r] := by
  match r with
  | 0 | 1 | 2 | 3 | 4 | 5 | 6 | 7 => simp

theorem shiftResult_vector {s : State} (hu : s.useVector = true) :
    shiftResult s = (vshift s.fmtT s).completeShift okCode true := by simp [shiftResult, hu]

theorem shiftResult_generic {s : State} (hu : s.useVector = false) :
    shiftResult s = (gshift s).completeShift okCode false := by simp [shiftResult, hu]

/-- What the generic kernel leaves in each tone register (41_shift_generic.md R162, R167). -/
theorem getElem_writeTones (U : Fmt) : ∀ (zs : List (Cx U)) (t : Vector ToneReg 8) (k : Nat) (j : Fin 8),
    (writeTones U t k zs)[j] = if h : k ≤ j.val ∧ j.val - k < zs.length then ToneReg.of U (zs[j.val - k]'h.2) else t[j]
  | [], t, k, j => by simp [writeTones]
  | z :: zs, t, k, j => by
    rw [writeTones, getElem_writeTones U zs]
    by_cases h : j.val = k
    · rw [dif_neg (by omega), dif_pos ⟨by omega, by simp; omega⟩]
      simp only [h, Nat.sub_self, List.getElem_cons_zero]
      have hj : j.val < 8 := j.isLt
      show (t.setIfInBounds k (ToneReg.of U z))[j.val] = _
      rw [Vector.getElem_setIfInBounds]; simp [h]
    · by_cases h2 : k ≤ j.val ∧ j.val - k < (z :: zs).length
      · have h3 : k + 1 ≤ j.val ∧ j.val - (k + 1) < zs.length := by simp at h2; omega
        rw [dif_pos h2, dif_pos h3]
        have e : j.val - k = j.val - (k + 1) + 1 := by omega
        simp [e]
      · have h3 : ¬ (k + 1 ≤ j.val ∧ j.val - (k + 1) < zs.length) := by simp at h2; omega
        rw [dif_neg h2, dif_neg h3]
        show (t.setIfInBounds k (ToneReg.of U z))[j.val] = t[j.val]
        rw [Vector.getElem_setIfInBounds]; simp [Ne.symm h]

/-- What the vector kernel computes does not depend on `V[6]` and `V[7]` (43_vector_kernel.md R221, R224). -/
structure VRun.Agree (a b : VRun) : Prop where
  v4 : a.v4 = b.v4
  v5 : a.v5 = b.v5
  idx : a.idx = b.idx
  mem : a.mem = b.mem

theorem VRun.Agree.block (T : Fmt) (base : Word64) (st : Cx .f64) {a b : VRun} (h : a.Agree b) :
    (vblock T base st a).Agree (vblock T base st b) := by
  obtain ⟨h4, h5, hi, hm⟩ := h
  cases T <;> constructor <;> simp only [vblock, vblock32, vblock64, h4, h5, hi, hm]

theorem VRun.Agree.loop (T : Fmt) (base : Word64) (size : Nat) (st : Cx .f64) : ∀ (n : Nat) {a b : VRun}, a.Agree b →
    (vloop T base size st n a).Agree (vloop T base size st n b)
  | 0, _, _, h => h
  | n + 1, a, b, h => by
    rw [vloop, vloop, h.idx]
    split
    · exact VRun.Agree.loop T base size st n (h.block T base st)
    · exact h

theorem VRun.Agree.tail (T : Fmt) (base : Word64) (size : Nat) {a b : VRun} (h : a.Agree b) :
    (vtail T base size a).Agree (vtail T base size b) := by
  obtain ⟨-, a2, a3, a4, -⟩ := vtail_masters (T := T) (base := base) (size := size) (r := a)
  obtain ⟨-, b2, b3, b4, -⟩ := vtail_masters (T := T) (base := base) (size := size) (r := b)
  refine ⟨by rw [a3, b3, h.v4], by rw [a4, b4, h.v5], by rw [a2, b2, h.idx], ?_⟩
  rw [vtail_mem, vtail_mem, h.mem, h.idx, VRun.masters, VRun.masters, h.v4, h.v5]

/-! What every completed command leaves. -/

/-- The command completed: the engine is idle, STATUS says so, and the build, the arguments and the model's own fields are
as they were (30_encoding.md R97 step 3). -/
structure Completed (s t : State) : Prop where
  seq : t.seq = .idle
  busy : t.status.busy = false
  done : t.status.done = true
  err : t.status.err ≠ 3#2
  params : t.params = s.params
  cfg : t.cfg = s.cfg
  base : t.base = s.base
  size : t.size = s.size
  freq : t.freq = s.freq
  phase : t.phase = s.phase
  inputs : t.inputs = s.inputs
  locked : t.locked = s.locked
  hostData : t.hostData = s.hostData
  freeCtr : t.freeCtr = s.freeCtr

theorem completed_raise (s : State) (e : Exc) (b : Bool) : Completed s (s.raise e b) := by
  rw [State.raise_eq]
  constructor <;> first | rfl | (cases e <;> simp [Exc.code])

theorem completed_shiftResult (s : State) : Completed s (shiftResult s) := by
  unfold shiftResult
  split <;> constructor <;> first | rfl | (show okCode ≠ 3#2; decide)

theorem completed_exec {i : Instr} {s t : State} (h : exec i s = .next t) : Completed s t := by
  by_cases hi : i = .shift
  · subst hi
    rcases execShift_cases h with ⟨-, rfl⟩ | ⟨-, -, rfl⟩
    · exact completed_raise _ _ _
    · exact completed_shiftResult s
  · rcases exec_cases hi h with ⟨e, rfl⟩ | ⟨-, -, d, x, rfl⟩ | ⟨-, rfl⟩ | ⟨rd, imm, -, -, rfl⟩
    · exact completed_raise _ _ _
    all_goals constructor <;> simp [okCode]

/-! Sample memory. -/

section
variable {T U : Fmt} {base : Word64} {size n : Nat}

theorem read_mulElems_outside (hA : base.toNat + fmtEsz T * size ≤ 2 ^ 64) {a : Nat}
    (ha : a < base.toNat ∨ base.toNat + fmtEsz T * size ≤ a) : ∀ (ts : List (Cx T)) (i : Nat) (m : Memory),
      (mulElems T base size i ts m).read a = m.read a
  | [], _, _ => rfl
  | t :: ts, i, m => by
    rw [mulElems, read_mulElems_outside hA ha ts]
    split
    · exact read_mulElem_outside hA ‹_› t m ha
    · rfl

theorem read_gloop_outside (hA : base.toNat + fmtEsz T * size ≤ 2 ^ 64) {a : Nat}
    (ha : a < base.toNat ∨ base.toNat + fmtEsz T * size ≤ a) (gstep : Cx U) : ∀ (fuel : Nat) (r : GRun U),
      (gloop T U base size n gstep fuel r).mem.read a = r.mem.read a
  | 0, _ => rfl
  | fuel + 1, r => by
    rw [gloop]
    split
    · rw [read_gloop_outside hA ha gstep fuel]; exact read_mulElems_outside hA ha _ _ _
    · rfl

theorem read_vloop_outside (hA : base.toNat + fmtEsz T * size ≤ 2 ^ 64) {a : Nat}
    (ha : a < base.toNat ∨ base.toNat + fmtEsz T * size ≤ a) (step : Cx .f64) : ∀ (fuel : Nat) (r : VRun),
      (vloop T base size step fuel r).mem.read a = r.mem.read a
  | 0, _ => rfl
  | fuel + 1, r => by
    rw [vloop]
    split
    · rw [read_vloop_outside hA ha step fuel, vblock_mem hA step r ‹_›]; exact read_mulElems_outside hA ha _ _ _
    · rfl

theorem inside_gloop (hA : base.toNat + fmtEsz T * size ≤ 2 ^ 64) {b : Nat} (hb : base.toNat + fmtEsz T * size ≤ b)
    (gstep : Cx U) : ∀ (fuel : Nat) (r : GRun U), (∀ c ∈ r.mem, c.1 < b) →
      ∀ c ∈ (gloop T U base size n gstep fuel r).mem, c.1 < b
  | 0, _, h => h
  | fuel + 1, r, h => by
    rw [gloop]
    split
    · exact inside_gloop hA hb gstep fuel _ (inside_mulElems hA hb _ _ _ h)
    · exact h

theorem inside_vloop (hA : base.toNat + fmtEsz T * size ≤ 2 ^ 64) {b : Nat} (hb : base.toNat + fmtEsz T * size ≤ b)
    (step : Cx .f64) : ∀ (fuel : Nat) (r : VRun), (∀ c ∈ r.mem, c.1 < b) →
      ∀ c ∈ (vloop T base size step fuel r).mem, c.1 < b
  | 0, _, h => h
  | fuel + 1, r, h => by
    rw [vloop]
    split
    · refine inside_vloop hA hb step fuel _ ?_
      rw [vblock_mem hA step r ‹_›]
      exact inside_mulElems hA hb _ _ _ h
    · exact h

end

/-- A SHIFT changes no byte outside its array (20_memory.md R77). -/
theorem read_shiftResult_outside {s : State} (ha : s.arrayInMemory = true) {a : Nat} (h : s.outsideArray a) :
    (shiftResult s).mem.read a = s.mem.read a := by
  have hA := array_le ha
  unfold shiftResult
  split
  · show (vrun s.fmtT s).mem.read a = _
    rw [vrun, vtail_mem, read_mulElems_outside hA h, read_vloop_outside hA h]; rfl
  · exact read_gloop_outside hA h _ _ _

/-- A SHIFT keeps the canonical form of memory and writes inside it only. -/
theorem memoryInv_shiftResult {s : State} (ha : s.arrayInMemory = true) (h : s.MemoryInv) :
    (shiftResult s).MemoryInv := by
  have hA := array_le ha
  have hb : s.size = 0#64 ∨ s.base.toNat + fmtEsz s.fmtT * s.size.toNat ≤ s.params.memBytes.val :=
    (arrayInMemory_iff s).1 ha
  unfold shiftResult
  split
  · refine ⟨(vrun_spec hA h.canonical).mem.choose_spec.2.wf, ?_⟩
    show ∀ c ∈ (vrun s.fmtT s).mem, c.1 < s.params.memBytes.val
    rw [vrun, vtail_mem]
    rcases hb with hb | hb
    · rw [hb]
      rw [show (0#64 : Word64).toNat = 0 by rfl, mulElems_size_zero]
      exact h.inside
    · exact inside_mulElems hA hb _ _ _ (inside_vloop hA hb _ _ _ h.inside)
  · refine ⟨(grun_spec hA (unroll_pos s) h.canonical).mem.wf, ?_⟩
    show ∀ c ∈ (grun s.fmtT s.fmtU s.base s.freq s.phase s.size.toNat s.unroll s.mem).mem, c.1 < s.params.memBytes.val
    rcases hb with hb | hb
    · rw [hb]; exact h.inside
    · exact inside_gloop hA hb _ _ _ h.inside

/-- Every command keeps the canonical form of memory and writes inside it only. -/
theorem memoryInv_exec {i : Instr} {s t : State} (h : exec i s = .next t) (hs : s.MemoryInv) : t.MemoryInv := by
  by_cases hi : i = .shift
  · subst hi
    rcases execShift_cases h with ⟨-, rfl⟩ | ⟨-, ha, rfl⟩
    · rw [State.raise_eq]; exact ⟨hs.canonical, hs.inside⟩
    · exact memoryInv_shiftResult ha hs
  · rcases exec_cases hi h with ⟨e, rfl⟩ | ⟨-, -, d, x, rfl⟩ | ⟨-, rfl⟩ | ⟨rd, imm, -, hm, rfl⟩
    · rw [State.raise_eq]; exact ⟨hs.canonical, hs.inside⟩
    · exact ⟨hs.canonical, hs.inside⟩
    · exact ⟨hs.canonical, hs.inside⟩
    · have h1 := (vecInMemory_iff s imm).1 hm
      have h2 := vecAddr_eq hm
      have h3 : vecAddr s.base imm + 32 ≤ s.params.memBytes.val := by omega
      have hw := wf_memWriteV hs.canonical (vecAddr s.base imm) (s.vBits (vnum rd))
      have hi := inside_memWriteV (x := s.vBits (vnum rd)) hs.inside h3
      constructor
      · simp only [State.complete_mem, State.setMem_mem]; exact hw
      · simp only [State.complete_mem, State.complete_params, State.setMem_mem, State.setMem_params]; exact hi

end Sys2Proof.Machine
end

