-- ==== Sys2Proof/Laws/Encoding.lean ====
section
/-! SUPPORT. What a decoded word says of its command: the row it selects, that the command is well-formed and available. -/

namespace Sys2Proof

theorem regField_lt_iff : ∀ r : BitVec 4, r.toNat < 8 ↔ r.getLsbD 3 = false := by decide

/-- A word that decodes selects a row whose "needs" holds, and its command is that row's (30_encoding.md R96). -/
theorem decode_cases {hasVec : Bool} {w : BitVec 32} {i : Instr} (h : decode hasVec w = .instr i) :
    ∃ r : Row, r.selects w = true ∧ (!r.needsVec || hasVec) = true ∧ i = r.instr w := by
  unfold decode at h
  split at h
  · rename_i r hr
    have := List.find?_some hr
    rw [Bool.and_eq_true] at this
    exact ⟨r, this.1, this.2, (Decoded.instr.inj h).symm⟩
  · cases h

/-- The bits of a selecting word that the mask covers are the pattern's. -/
theorem Row.getLsbD_of_selects {r : Row} {w : BitVec 32} (h : r.selects w = true) {i : Nat}
    (hm : r.mask.getLsbD i = true) : w.getLsbD i = r.pattern.getLsbD i := by
  rw [Row.selects, beq_iff_eq] at h
  have := congrArg (fun x => x.getLsbD i) h
  simpa [hm] using this

theorem Row.needsVec_instr (r : Row) (w : BitVec 32) : (r.instr w).needsVec = r.needsVec := by cases r <;> rfl

/-- The command of a row that the word selects is well-formed (30_encoding.md R94, R98). -/
theorem Row.wellFormed_of_selects {r : Row} {w : BitVec 32} (h : r.selects w = true) : WellFormed (r.instr w) := by
  have e : ∀ k, k + 4 ≤ 32 → ((w.extractLsb' k 4).toNat < 8 ↔ w.getLsbD (k + 3) = false) := fun k hk => by
    rw [regField_lt_iff]; simp
  have h23 := Row.getLsbD_of_selects h (i := 23)
  have h19 := Row.getLsbD_of_selects h (i := 19)
  have h15 := Row.getLsbD_of_selects h (i := 15)
  cases r <;> simp only [WellFormed, Row.instr, Instr.wellFormed, Bool.and_eq_true, decide_eq_true_eq, rdField, raField,
    rbField, e 20 (by omega), e 16 (by omega), e 12 (by omega)] <;>
    simp [Row.mask, Row.pattern] at h23 h19 h15 <;> simp_all

theorem wellFormed_of_decode {hasVec : Bool} {w : BitVec 32} {i : Instr} (h : decode hasVec w = .instr i) :
    WellFormed i := by
  obtain ⟨r, h1, -, rfl⟩ := decode_cases h
  exact Row.wellFormed_of_selects h1

theorem available_of_decode {hasVec : Bool} {w : BitVec 32} {i : Instr} (h : decode hasVec w = .instr i) :
    i.available hasVec = true := by
  obtain ⟨r, -, h2, rfl⟩ := decode_cases h
  rw [Instr.available, Row.needsVec_instr]; exact h2

end Sys2Proof
end

