-- ==== Sys2Proof/Laws/PerInstr.lean ====
section
/-! SUPPORT. The family RowMatch, one lemma for each command: the word of a well-formed command selects the command's row
of the opcode map, and the row gives the command back, every operand field included (30_encoding.md R95, R101). -/

namespace Sys2Proof.Laws.RowMatch

/-- The row of a command (30_encoding.md R95). -/
def row : Instr → Row
  | .shift => .shift
  | .tgen => .tgen
  | .vnarrow _ _ _ => .vnarrow
  | .vcmul4s _ _ => .vcmul4s
  | .vcmul2d _ _ => .vcmul2d
  | .vbcmul2d _ => .vbcmul2d
  | .vld _ _ => .vld
  | .vst _ _ => .vst

/-- The word of the command, if it is well-formed, selects its row, and the row gives the command back. -/
def Statement (i : Instr) : Prop :=
  WellFormed i → (row i).selects (encode i) = true ∧ (row i).instr (encode i) = i

theorem shift : Statement .shift := fun _ => by decide

theorem tgen : Statement .tgen := fun _ => by decide

/-- The fields of a word of VNARROW. -/
theorem vnarrowWord (rd ra rb : BitVec 4) (hd : rd.toNat < 8) (ha : ra.toNat < 8) (hb : rb.toNat < 8) :
    (0x10#8 ++ rd ++ ra ++ rb ++ 0#12) &&& 0xFF888FFF#32 = 0x10#8 ++ 0#24 ∧
      rdField (0x10#8 ++ rd ++ ra ++ rb ++ 0#12) = rd ∧ raField (0x10#8 ++ rd ++ ra ++ rb ++ 0#12) = ra ∧
      rbField (0x10#8 ++ rd ++ ra ++ rb ++ 0#12) = rb := by
  have hd' : rd[3] = false := by simpa using (regField_lt_iff rd).1 hd
  have ha' : ra[3] = false := by simpa using (regField_lt_iff ra).1 ha
  have hb' : rb[3] = false := by simpa using (regField_lt_iff rb).1 hb
  refine ⟨?_, ?_, ?_, ?_⟩ <;> apply BitVec.eq_of_getLsbD_eq <;> intro i hi
  · simp only [BitVec.getLsbD_and, BitVec.getLsbD_append]
    interval_cases i <;> simp [hd', ha', hb']
  · simp only [rdField, BitVec.getLsbD_extractLsb', BitVec.getLsbD_append]
    interval_cases i <;> simp
  · simp only [raField, BitVec.getLsbD_extractLsb', BitVec.getLsbD_append]
    interval_cases i <;> simp
  · simp only [rbField, BitVec.getLsbD_extractLsb', BitVec.getLsbD_append]
    interval_cases i <;> simp

theorem vnarrow (rd ra rb : BitVec 4) : Statement (.vnarrow rd ra rb) := fun h => by
  have hr : rd.toNat < 8 ∧ ra.toNat < 8 ∧ rb.toNat < 8 := by
    simpa [WellFormed, Instr.wellFormed, and_assoc] using h
  obtain ⟨a, b, c, d⟩ := vnarrowWord rd ra rb hr.1 hr.2.1 hr.2.2
  refine ⟨by rw [Row.selects, beq_iff_eq]; exact a, ?_⟩
  show Instr.vnarrow (rdField (encode (.vnarrow rd ra rb))) (raField (encode (.vnarrow rd ra rb)))
    (rbField (encode (.vnarrow rd ra rb))) = _
  rw [encode, b, c, d]

theorem vcmul4s (rd ra : BitVec 4) : Statement (.vcmul4s rd ra) := by
  revert ra rd; unfold Statement; decide +kernel

theorem vcmul2d (rd ra : BitVec 4) : Statement (.vcmul2d rd ra) := by
  revert ra rd; unfold Statement; decide +kernel

theorem vbcmul2d (rd : BitVec 4) : Statement (.vbcmul2d rd) := by
  revert rd; unfold Statement; decide +kernel

/-- The fields of a word of VLD or VST, whatever the immediate. -/
theorem memoryWord (op : BitVec 8) (rd : BitVec 4) (imm : BitVec 16) (h : rd.toNat < 8) :
    (op ++ rd ++ 0#4 ++ imm) &&& 0xFF8F0000#32 = op ++ 0#24 ∧
      rdField (op ++ rd ++ 0#4 ++ imm) = rd ∧ immField (op ++ rd ++ 0#4 ++ imm) = imm := by
  have h' : rd[3] = false := by simpa using (regField_lt_iff rd).1 h
  refine ⟨?_, ?_, ?_⟩ <;> apply BitVec.eq_of_getLsbD_eq <;> intro i hi
  · simp only [BitVec.getLsbD_and, BitVec.getLsbD_append]
    interval_cases i <;> simp [h']
  · simp only [rdField, BitVec.getLsbD_extractLsb', BitVec.getLsbD_append]
    interval_cases i <;> simp
  · simp only [immField, BitVec.getLsbD_extractLsb', BitVec.getLsbD_append]
    simp [hi]

theorem vld (rd : BitVec 4) (imm : BitVec 16) : Statement (.vld rd imm) := fun h => by
  obtain ⟨a, b, c⟩ := memoryWord 0x20#8 rd imm (by simpa [WellFormed, Instr.wellFormed] using h)
  refine ⟨by rw [Row.selects, beq_iff_eq]; exact a, ?_⟩
  show Instr.vld (rdField (encode (.vld rd imm))) (immField (encode (.vld rd imm))) = _
  rw [encode, b, c]

theorem vst (rd : BitVec 4) (imm : BitVec 16) : Statement (.vst rd imm) := fun h => by
  obtain ⟨a, b, c⟩ := memoryWord 0x21#8 rd imm (by simpa [WellFormed, Instr.wellFormed] using h)
  refine ⟨by rw [Row.selects, beq_iff_eq]; exact a, ?_⟩
  show Instr.vst (rdField (encode (.vst rd imm))) (immField (encode (.vst rd imm))) = _
  rw [encode, b, c]

end Sys2Proof.Laws.RowMatch
end

