-- ==== Sys2Proof/Laws/Step.lean ====
section
/-! SUPPORT. What a step can do: it is one input, and the engine's turn, a reset and a host access each as one equation or
one case law. -/

namespace Sys2Proof.Machine

theorem step_cons {s : State} {i : Input} {rest : List Input} (h : s.inputs = i :: rest) :
    step s = runInput i { s with inputs := rest } := by simp only [step, nextAction, h]

theorem step_nil {s : State} (h : s.inputs = []) : step s = engineTurn s := by simp only [step, nextAction, h]

/-- A step is the oldest input, or the engine's turn when none is pending (log 5). -/
theorem step_cases {s t : State} (h : step s = .next t) :
    (s.inputs = [] ∧ engineTurn s = .next t) ∨
      ∃ i rest, s.inputs = i :: rest ∧ runInput i { s with inputs := rest } = .next t := by
  cases hi : s.inputs with
  | nil => exact .inl ⟨rfl, by rwa [step_nil hi] at h⟩
  | cons i rest => exact .inr ⟨i, rest, rfl, by rwa [step_cons hi] at h⟩

/-! The engine. -/

theorem engineTurn_idle {s : State} (h : s.seq = .idle) : engineTurn s = .next s := by unfold engineTurn; simp only [h]

theorem engineTurn_run {s : State} {w : BitVec 32} (h : s.seq = .run w) : engineTurn s = runWord w s := by
  unfold engineTurn; simp only [h]

theorem runWord_instr {s : State} {w : BitVec 32} {i : Instr} (h : decode s.params.hasVec w = .instr i) :
    runWord w s = exec i s := by unfold runWord; simp only [h]

theorem runWord_illegal {s : State} {w : BitVec 32} {why : Illegal} (h : decode s.params.hasVec w = .illegal why) :
    runWord w s = .next (s.raise .illegalCmd false) := by unfold runWord; simp only [h]

/-- A word runs its command, or takes ILLEGAL_CMD. -/
theorem runWord_cases {s t : State} {w : BitVec 32} (h : runWord w s = .next t) :
    (∃ i, decode s.params.hasVec w = .instr i ∧ exec i s = .next t) ∨ t = s.raise .illegalCmd false := by
  cases hd : decode s.params.hasVec w with
  | instr i => exact .inl ⟨i, rfl, by rwa [runWord_instr hd] at h⟩
  | illegal why => rw [runWord_illegal hd] at h; exact .inr (Host.Outcome.next.inj h).symm

theorem completed_runWord {s t : State} {w : BitVec 32} (h : runWord w s = .next t) : Completed s t := by
  rcases runWord_cases h with ⟨i, -, h⟩ | rfl
  · exact completed_exec h
  · exact completed_raise _ _ _

theorem memoryInv_runWord {s t : State} {w : BitVec 32} (h : runWord w s = .next t) (hs : s.MemoryInv) :
    t.MemoryInv := by
  rcases runWord_cases h with ⟨i, -, h⟩ | rfl
  · exact memoryInv_exec h hs
  · rw [State.raise_eq]; exact ⟨hs.canonical, hs.inside⟩

/-! Reset. -/

theorem resetEvent_idle {s : State} (h : s.seq = .idle) : resetEvent s = .next (s.resetWith s.mem) := by
  unfold resetEvent; simp only [h]

theorem resetEvent_run {s f : State} {w : BitVec 32} (h : s.seq = .run w) (hr : runWord w s = .next f) :
    resetEvent s = .next (s.resetWith (abandonedMemory w s f.mem)) := by unfold resetEvent; simp only [h, hr]

/-- A reset resets the registers, whatever runs. -/
theorem resetEvent_cases {s t : State} (h : resetEvent s = .next t) :
    (s.seq = .idle ∧ t = s.resetWith s.mem) ∨
      ∃ w f, s.seq = .run w ∧ runWord w s = .next f ∧ t = s.resetWith (abandonedMemory w s f.mem) := by
  cases hs : s.seq with
  | idle => rw [resetEvent_idle hs] at h; exact .inl ⟨rfl, (Host.Outcome.next.inj h).symm⟩
  | run w =>
    cases hr : runWord w s with
    | next f => rw [resetEvent_run hs hr] at h; exact .inr ⟨w, f, rfl, hr, (Host.Outcome.next.inj h).symm⟩
    | fault r => unfold resetEvent at h; simp only [hs, hr] at h; cases h
    | refused r => unfold resetEvent at h; simp only [hs, hr] at h; cases h

/-- The elements of an abandoned SHIFT (70_reset_and_hazards.md R303): canonical form, every byte outside, and each
element old or final. -/
theorem abandonElems_spec {T : Fmt} {base : Word64} {size : Nat} (hA : base.toNat + fmtEsz T * size ≤ 2 ^ 64)
    (ctr : Nat) (final m : Memory) (hm : m.wf = true) : ∀ n, n ≤ size →
      (abandonElems T base ctr final n m).wf = true ∧
      (∀ a, a < base.toNat ∨ base.toNat + fmtEsz T * size ≤ a → (abandonElems T base ctr final n m).read a = m.read a) ∧
      (∀ i, i < size → elemAt T (abandonElems T base ctr final n m) base i = elemAt T m base i ∨
        elemAt T (abandonElems T base ctr final n m) base i = elemAt T final base i)
  | 0, _ => ⟨hm, fun _ _ => rfl, fun _ _ => .inl rfl⟩
  | n + 1, h => by
    obtain ⟨h1, h2, h3⟩ := abandonElems_spec hA ctr final m hm n (by omega)
    have hn : n < size := by omega
    simp only [abandonElems]
    split
    · refine ⟨wf_memWriteC h1 _ _, fun a ha => ?_, fun i hi => ?_⟩
      · have := elem_inside T base.toNat hn
        rw [read_memWriteC_outside _ _ _ (by rw [elemAddr_eq hA hn]; omega)]
        exact h2 a ha
      · by_cases hin : i = n
        · subst hin; right; exact memReadC_memWriteC_same h1 _ _
        · have e : elemAt T (memWriteC T (abandonElems T base ctr final n m) (elemAddr T base n)
              (memReadC T final (elemAddr T base n))) base i = elemAt T (abandonElems T base ctr final n m) base i := by
            rw [elemAt, elemAt, elemAddr_eq hA hi, elemAddr_eq hA hn]
            exact memReadC_memWriteC_disjoint _ _ (elem_disjoint T _ hin)
          rw [e]; exact h3 i hi
    · exact ⟨h1, h2, h3⟩

theorem inside_abandonElems {T : Fmt} {base : Word64} {size b : Nat} (hA : base.toNat + fmtEsz T * size ≤ 2 ^ 64)
    (hb : base.toNat + fmtEsz T * size ≤ b) (ctr : Nat) (final m : Memory) (hm : ∀ c ∈ m, c.1 < b) : ∀ n, n ≤ size →
      ∀ c ∈ abandonElems T base ctr final n m, c.1 < b
  | 0, _ => hm
  | n + 1, h => by
    have ih := inside_abandonElems hA hb ctr final m hm n (by omega)
    have hn : n < size := by omega
    simp only [abandonElems]
    split
    · have := elem_inside T base.toNat hn
      exact inside_memWriteC _ ih (by rw [elemAddr_eq hA hn]; omega)
    · exact ih

theorem wf_scramble {m : Memory} (hm : m.wf = true) (ctr a : Nat) : ∀ n, (scramble ctr m a n).wf = true
  | 0 => hm
  | n + 1 => Memory.wf_write (wf_scramble hm ctr a n) _ _

theorem inside_scramble {m : Memory} {b : Nat} (h : ∀ c ∈ m, c.1 < b) (ctr a : Nat) : ∀ n, a + n ≤ b →
    ∀ c ∈ scramble ctr m a n, c.1 < b
  | 0, _ => h
  | n + 1, hn => Memory.inside_write (inside_scramble h ctr a n (by omega)) (by omega)

theorem memoryInv_resetWith {s : State} {m : Memory} (h1 : m.wf = true) (h2 : ∀ c ∈ m, c.1 < s.params.memBytes.val) :
    (s.resetWith m).MemoryInv := ⟨h1, h2⟩

/-- An abandoned command keeps the canonical form of memory and writes inside it only. -/
theorem memoryInv_abandoned {s f : State} {w : BitVec 32} (hr : runWord w s = .next f) (hs : s.MemoryInv) :
    (abandonedMemory w s f.mem).wf = true ∧ ∀ c ∈ abandonedMemory w s f.mem, c.1 < s.params.memBytes.val := by
  cases hd : decode s.params.hasVec w with
  | illegal why => simp only [abandonedMemory, hd]; exact ⟨hs.canonical, hs.inside⟩
  | instr i =>
    rw [runWord_instr hd] at hr
    have hvec : ∀ imm, s.vecInMemory imm = true →
        (scramble s.freeCtr s.mem (vecAddr s.base imm) 32).wf = true ∧
          ∀ c ∈ scramble s.freeCtr s.mem (vecAddr s.base imm) 32, c.1 < s.params.memBytes.val := fun imm hm => by
      have h1 := (vecInMemory_iff s imm).1 hm
      have h2 := vecAddr_eq hm
      exact ⟨wf_scramble hs.canonical _ _ _, inside_scramble hs.inside _ _ _ (by omega)⟩
    cases i with
    | shift =>
      simp only [abandonedMemory, hd]
      split
      · rename_i hv
        rcases execShift_cases hr with ⟨h, -⟩ | ⟨-, ha, -⟩
        · rw [h] at hv; cases hv
        · refine ⟨(abandonElems_spec (array_le ha) _ _ _ hs.canonical _ (Nat.le_refl _)).1, ?_⟩
          rcases (arrayInMemory_iff s).1 ha with hz | hb
          · rw [hz]; exact hs.inside
          · exact inside_abandonElems (array_le ha) hb _ _ _ hs.inside _ (Nat.le_refl _)
      · exact ⟨hs.canonical, hs.inside⟩
    | vld rd imm =>
      simp only [abandonedMemory, hd]
      have hwf : regOk rd = true := wellFormed_of_decode hd
      have hav : s.params.hasVec = true := available_of_decode hd
      have hr' : execVld rd imm s = .next f := hr
      rw [execVld, vectorCommand_run _ hav hwf] at hr'
      split at hr'
      · exact hvec imm ‹_›
      · cases hr'
    | vst rd imm =>
      simp only [abandonedMemory, hd]
      have hwf : regOk rd = true := wellFormed_of_decode hd
      have hav : s.params.hasVec = true := available_of_decode hd
      have hr' : execVst rd imm s = .next f := hr
      rw [execVst, vectorCommand_run _ hav hwf] at hr'
      split at hr'
      · exact hvec imm ‹_›
      · cases hr'
    | tgen => simp only [abandonedMemory, hd]; exact ⟨hs.canonical, hs.inside⟩
    | vnarrow _ _ _ => simp only [abandonedMemory, hd]; exact ⟨hs.canonical, hs.inside⟩
    | vcmul4s _ _ => simp only [abandonedMemory, hd]; exact ⟨hs.canonical, hs.inside⟩
    | vcmul2d _ _ => simp only [abandonedMemory, hd]; exact ⟨hs.canonical, hs.inside⟩
    | vbcmul2d _ => simp only [abandonedMemory, hd]; exact ⟨hs.canonical, hs.inside⟩

end Sys2Proof.Machine
end

