-- ==== Sys2Proof/Tests/Slice0.lean ====
section
/-! SUPPORT. Tests: the WellFormed smoke, words written out from the encodings, the vectors of 95_test_vectors.md, and a
witness for the hypotheses of every obligation that has some. -/

namespace Sys2Proof.Tests.Slice0

open Sys2Proof Sys2Proof.Machine

-- One test after the other: a thread for each would need more memory than the check allows.
set_option Elab.async false

/-! WellFormed: each check refuses an ill-formed term (30_encoding.md R94). -/

theorem test_wellFormed_vnarrow : ¬ WellFormed (.vnarrow 8 0 0) ∧ ¬ WellFormed (.vnarrow 0 8 0) ∧
    ¬ WellFormed (.vnarrow 0 0 8) ∧ WellFormed (.vnarrow 7 7 7) := by decide
theorem test_wellFormed_vcmul4s : ¬ WellFormed (.vcmul4s 8 0) ∧ ¬ WellFormed (.vcmul4s 0 15) ∧
    WellFormed (.vcmul4s 7 7) := by decide
theorem test_wellFormed_vcmul2d : ¬ WellFormed (.vcmul2d 8 0) ∧ ¬ WellFormed (.vcmul2d 0 8) ∧
    WellFormed (.vcmul2d 7 7) := by decide
theorem test_wellFormed_vbcmul2d : ¬ WellFormed (.vbcmul2d 8) ∧ WellFormed (.vbcmul2d 7) := by decide
theorem test_wellFormed_vld : ¬ WellFormed (.vld 8 0) ∧ WellFormed (.vld 7 0xFFFF) := by decide
theorem test_wellFormed_vst : ¬ WellFormed (.vst 8 0) ∧ WellFormed (.vst 7 0xFFFF) := by decide

/-! Decoding (95_test_vectors.md 2.6). -/

theorem test_decode_shift : decode true 0x01000000#32 = .instr .shift ∧ decode false 0x01000000#32 = .instr .shift := by
  decide
theorem test_decode_tgen : decode true 0x02000000#32 = .instr .tgen ∧
    decode false 0x02000000#32 = .illegal .absentFeature := by decide
theorem test_decode_vnarrow : decode true 0x10000000#32 = .instr (.vnarrow 0 0 0) ∧
    decode true 0x10645000#32 = .instr (.vnarrow 6 4 5) ∧ decode true 0x10777000#32 = .instr (.vnarrow 7 7 7) := by decide
theorem test_decode_vcmul4s : decode true 0x11760000#32 = .instr (.vcmul4s 7 6) := by decide
theorem test_decode_vcmul2d : decode true 0x12740000#32 = .instr (.vcmul2d 7 4) := by decide
theorem test_decode_vbcmul2d : decode true 0x13500000#32 = .instr (.vbcmul2d 5) := by decide
theorem test_decode_vld : decode true 0x20700001#32 = .instr (.vld 7 0x0001) ∧
    decode true 0x2070FFFF#32 = .instr (.vld 7 0xFFFF) := by decide
theorem test_decode_vst : decode true 0x2170007F#32 = .instr (.vst 7 0x007F) := by decide

theorem test_decode_unassigned : [0x00000000#32, 0xFFFFFFFF#32, 0x03000000#32, 0x14000000#32, 0x22000000#32,
    0x81000000#32].all (fun w => decide (decode true w = .illegal .unassignedOpcode)) = true := by decide
theorem test_decode_nonzeroField : [0x01000001#32, 0x01100000#32, 0x02000100#32, 0x10000001#32, 0x11001000#32,
    0x12000001#32, 0x13010000#32, 0x20710000#32].all (fun w => decide (decode true w = .illegal .nonzeroField)) = true := by
  decide
theorem test_decode_registerNumber : [0x10800000#32, 0x10080000#32, 0x10008000#32, 0x11080000#32, 0x12800000#32,
    0x13800000#32, 0x20800000#32, 0x20F00000#32].all (fun w => decide (decode true w = .illegal .registerNumber)) = true := by
  decide

/-- The host's numbering: the row's bits are the whole word, bits above them zero. -/
theorem test_decodeTableWord : decodeTableWord 32 0x2170007F = some (.vst 7 0x007F) ∧
    decodeTableWord 32 0x21080000 = none := by decide

/-! Rounded operations (95_test_vectors.md 2.1). -/

theorem test_fadd32 : fadd (f := .f32) 0x3F800000#32 0x33800000#32 = 0x3F800000#32 ∧
    fadd (f := .f32) 0x3F800001#32 0x33800000#32 = 0x3F800002#32 ∧
    fadd (f := .f32) 0x80000000#32 0x80000000#32 = 0x80000000#32 ∧
    fadd (f := .f32) 0x80000000#32 0x00000000#32 = 0x00000000#32 ∧
    fsub (f := .f32) 0x3F800000#32 0x3F800000#32 = 0x00000000#32 := by decide +kernel
theorem test_fmul32 : fmul (f := .f32) 0x7F7FFFFF#32 0x40000000#32 = 0x7F800000#32 ∧
    fmul (f := .f32) 0x00800000#32 0x3F000000#32 = 0x00400000#32 ∧
    fmul (f := .f32) 0x00000001#32 0x3F000000#32 = 0x00000000#32 ∧
    fmul (f := .f32) 0x00000003#32 0x3F000000#32 = 0x00000002#32 ∧
    fmul (f := .f32) 0x80000000#32 0x3F800000#32 = 0x80000000#32 ∧
    fmul (f := .f32) 0x40C90FDB#32 0x3DCCCCCD#32 = 0x3F20D97C#32 := by decide +kernel
theorem test_nan32 : fmul (f := .f32) 0x7F800000#32 0x00000000#32 = qnan .f32 ∧
    fsub (f := .f32) 0x7F800000#32 0x7F800000#32 = qnan .f32 := ⟨rfl, rfl⟩
theorem test_fadd64 : fadd (f := .f64) 0x3FF0000000000000#64 0x3CA0000000000000#64 = 0x3FF0000000000000#64 ∧
    fadd (f := .f64) 0x3FF0000000000001#64 0x3CA0000000000000#64 = 0x3FF0000000000002#64 := by decide +kernel
theorem test_fmul64 : fmul (f := .f64) 0x7FEFFFFFFFFFFFFF#64 0x4000000000000000#64 = 0x7FF0000000000000#64 ∧
    fmul (f := .f64) 0x0000000000000001#64 0x3FE0000000000000#64 = 0x0000000000000000#64 ∧
    fmul (f := .f64) 0x401921FB54442D18#64 0x3FB999999999999A#64 = 0x3FE41B2F769CF0E0#64 := by decide +kernel

/-! The narrowing conversion (2.2), the complex product (2.3), the frequency check (2.4), the angles (2.5). -/

theorem test_cvt6432 : [(0x3FB999999999999A#64, 0x3DCCCCCD#32), (0x3FE6A09E667F3BCD#64, 0x3F3504F3#32),
    (0x3FF0000010000000#64, 0x3F800000#32), (0x3FF0000010000001#64, 0x3F800001#32),
    (0x3FF0000030000000#64, 0x3F800002#32), (0x4170000010000000#64, 0x4B800000#32),
    (0x483D6329F1C35CA5#64, 0x7F800000#32), (0xC83D6329F1C35CA5#64, 0xFF800000#32),
    (0x47EFFFFFF0000000#64, 0x7F800000#32), (0x47EFFFFFEFFFFFFF#64, 0x7F7FFFFF#32),
    (0x37A16C262777579C#64, 0x000116C2#32), (0x36A8000000000000#64, 0x00000002#32),
    (0x3690000000000000#64, 0x00000000#32), (0x366244CE242C5561#64, 0x00000000#32),
    (0x8000000000000000#64, 0x80000000#32), (0x3FEFFFFFFFFFFFFF#64, 0x3F800000#32)].all (fun c => cvt6432 c.1 == c.2) = true := by
  decide +kernel
theorem test_cmul32 : cmul (f := .f32) ⟨0x3F800800#32, 0x3F800800#32⟩ ⟨0x3F800800#32, 0x3F7FF000#32⟩ =
    ⟨0x3A000400#32, 0x40000800#32⟩ := by decide +kernel
theorem test_cmul64 : cmul (f := .f64) ⟨0x3FF0000000000000#64, 0x4000000000000000#64⟩
      ⟨0x4008000000000000#64, 0x4010000000000000#64⟩ = ⟨0xC014000000000000#64, 0x4024000000000000#64⟩ ∧
    cmul (f := .f64) ⟨0x8000000000000000#64, 0xBFF0000000000000#64⟩ ⟨0x3FF0000000000000#64, 0x0#64⟩ =
      ⟨0x0#64, 0xBFF0000000000000#64⟩ := by decide +kernel
theorem test_validFreq : [0x0000000000000000#64, 0x3FEFFFFFFFFFFFFF#64, 0x8000000000000000#64,
      0x0000000000000001#64, 0x3FD0000000000000#64].all validFreq = true ∧
    [0xBFB999999999999A#64, 0x3FF0000000000000#64, 0x8000000000000001#64, 0x4000000000000000#64,
      0x7FF0000000000000#64, 0xFFF0000000000000#64, 0x7FF8000000000000#64, 0x7FF0000000000001#64].any validFreq = false := by
  decide +kernel
theorem test_angle64 : angle .f64 0x3FB999999999999A#64 0x0#64 3 = 0x3FFE28C731EB6950#64 ∧
    angle .f64 0x3FB999999999999A#64 0x0#64 7 = 0x401197C987C952C4#64 ∧
    stepAngle .f64 0x3FB999999999999A#64 8 = 0x40141B2F769CF0E0#64 := by decide +kernel
theorem test_angle32 : angle .f32 0x3FB999999999999A#64 0x0#64 7 = 0x408CBE4C#32 ∧
    angle .f32 0x3FD0000000000000#64 0x3FE0000000000000#64 1 = 0x400487EE#32 ∧
    stepAngle .f32 0x3FB999999999999A#64 8 = 0x40A0D97C#32 := by decide +kernel

/-! The host window (2.7). -/

/-- The reset state with MEM_BYTES = 4096, as the vectors have it, and with a sample memory of zeros, which is one of those
the power-up content may be. -/
def start : State := { State.reset with params := { hasVec := true, memBytes := 4096 }, mem := [] }

/-- The same build without the vector datapath. -/
def startGeneric : State := { start with params := { hasVec := false, memBytes := 4096 } }

theorem test_window_writes : cfgStored 0xFFFFFFFFFFFFFFFF#64 = 0x77#64 ∧
    baseStored 0x123456789ABCDEFF#64 = 0x123456789ABCDEF0#64 := by decide
theorem test_window_cap : capWord start.params = 0x80881#64 ∧ capWord startGeneric.params = 0x80#64 := by decide
theorem test_window_offsets : windowReg true 0x1F8#12 = .lane 7 3 ∧ windowReg true 0x050#12 = .reserved ∧
    windowReg true 0x200#12 = .reserved ∧ windowReg false 0x100#12 = .reserved ∧
    windowReg false 0x040#12 = .reserved := by decide
/-- A CMD write of 0xDEADBEEF01000000 issues SHIFT (2.6), with BUSY = 1 and KVEC = 0 (2.7). -/
theorem test_cmd_junk : ((start.writeReg .cmd 0xDEADBEEF01000000#64).seq,
    (start.writeReg .cmd 0xDEADBEEF01000000#64).status.word) = (.run 0x01000000#32, 0x01#64) := by decide

/-! Commands. -/

/-- Complex samples stored from an address on. -/
def store (T : Fmt) : List (Cx T) → Nat → Memory → Memory
  | [], _, m => m
  | z :: zs, a, m => store T zs (a + fmtEsz T) (memWriteC T m a z)

/-- What the test looks at in the state a command leaves. -/
def after {α : Type} (o : Host.Outcome State Fault Refusal) (f : State → α) : Option α :=
  match o with
  | .next t => some (f t)
  | .fault _ => none
  | .refused _ => none

/-- Registers packed from their 64-bit and 32-bit lanes. -/
def lanesD (a b c d : Word64) : VWord := packD ⟨a, b⟩ ⟨c, d⟩
/-- Registers packed from their 32-bit lanes. -/
def lanesS (a b c d e f g h : BitVec 32) : VWord := packS ⟨a, b⟩ ⟨c, d⟩ ⟨e, f⟩ ⟨g, h⟩

/-- Z2 without its infinite element: the vector kernel at FREQ = PHASE = +0 keeps finite values and turns −0 parts into
+0. -/
theorem test_shift_zero : after (exec .shift { start with
      cfg := 0x23#64, base := 0x100#64, size := 4#64
      mem := store .f64 [⟨0x3FF8000000000000#64, 0xC002000000000000#64⟩, ⟨0x8000000000000000#64, 0xBFF0000000000000#64⟩,
        ⟨0x0#64, 0x8000000000000000#64⟩, ⟨0x000012688B70E62B#64, 0x4008000000000000#64⟩] 0x100 [] })
      (fun t => (t.status.word, t.idx, t.mem)) =
    some (0x12#64, 4#64, store .f64 [⟨0x3FF8000000000000#64, 0xC002000000000000#64⟩, ⟨0x0#64, 0xBFF0000000000000#64⟩,
        ⟨0x0#64, 0x0#64⟩, ⟨0x000012688B70E62B#64, 0x4008000000000000#64⟩] 0x100 []) := by decide +kernel

/-- 2.6: with HAS_VEC = 0 the same SHIFT gives STATUS 0x02 and TONE[0] = GSTEP = (1, +0) in F32. -/
theorem test_shift_generic : after (exec .shift startGeneric) (fun t => (t.status.word, t.tone[0], t.gstep)) =
    some (0x02#64, ⟨.f32 ⟨0x3F800000#32, 0x0#32⟩, true⟩, ⟨.f32 ⟨0x3F800000#32, 0x0#32⟩, true⟩) := by decide +kernel

/-- G1: the generic kernel from the vector's own tones and step, two blocks, the second short. -/
theorem test_generic_kernel_G1 :
    gloop .f64 .f64 0x100#64 5 3 ⟨0xBCAA79394C9E8A0A#64, 0xBFF0000000000000#64⟩ 5
      { idx := 0
        tones := [⟨0x3FF0000000000000#64, 0x0#64⟩, ⟨0x3C91A62633145C07#64, 0x3FF0000000000000#64⟩,
          ⟨0xBFF0000000000000#64, 0x3CA1A62633145C07#64⟩]
        mem := store .f64 [⟨0x3FF0000000000000#64, 0x0#64⟩, ⟨0x0#64, 0x3FF0000000000000#64⟩,
          ⟨0x4000000000000000#64, 0x4008000000000000#64⟩, ⟨0xBFF0000000000000#64, 0x3FE0000000000000#64⟩,
          ⟨0x4010000000000000#64, 0xC010000000000000#64⟩] 0x100 [] } =
      { idx := 6
        tones := [⟨0xBCAA79394C9E8A0A#64, 0xBFF0000000000000#64⟩, ⟨0x3FF0000000000000#64, 0xBCB1A62633145C07#64⟩,
          ⟨0x3CB60FAFBFD97308#64, 0x3FF0000000000000#64⟩]
        mem := store .f64 [⟨0x3FF0000000000000#64, 0x0#64⟩, ⟨0xBFF0000000000000#64, 0x3C91A62633145C07#64⟩,
          ⟨0xC000000000000001#64, 0xC007FFFFFFFFFFFF#64⟩, ⟨0x3FE0000000000002#64, 0x3FEFFFFFFFFFFFFF#64⟩,
          ⟨0x400FFFFFFFFFFFFE#64, 0xC010000000000001#64⟩] 0x100 [] } := by
  have h : ∀ a b : GRun .f64, a.idx = b.idx → a.tones = b.tones → a.mem = b.mem → a = b := by
    intro a b h1 h2 h3; cases a; cases b; simp_all
  exact h _ _ (by decide +kernel) (by decide +kernel) (by decide +kernel)

/-- V32: the vector kernel from the vector's own masters and step, one full block and a tail of two. -/
theorem test_vector_kernel_V32 :
    vtail .f32 0x100#64 6 (vloop .f32 0x100#64 6 ⟨0x3FF0000000000000#64, 0xBCB1A62633145C07#64⟩ 6
      { v4 := VReg.full (lanesD 0x3FF0000000000000#64 0x0#64 0x3C91A62633145C07#64 0x3FF0000000000000#64)
        v5 := VReg.full (lanesD 0xBFF0000000000000#64 0x3CA1A62633145C07#64 0xBCAA79394C9E8A0A#64 0xBFF0000000000000#64)
        v6 := VReg.full 0#256, v7 := VReg.full 0#256, idx := 0
        mem := store .f32 [⟨0x3F800000#32, 0x0#32⟩, ⟨0x0#32, 0x3F800000#32⟩, ⟨0x40000000#32, 0x40400000#32⟩,
          ⟨0xBF800000#32, 0x3F000000#32⟩, ⟨0x40800000#32, 0xC0800000#32⟩, ⟨0x3F000000#32, 0x3E800000#32⟩] 0x100 [] }) =
      { v4 := VReg.full (lanesD 0x3FF0000000000000#64 0xBCB1A62633145C07#64 0x3CB60FAFBFD97309#64 0x3FF0000000000000#64)
        v5 := VReg.full (lanesD 0xBFF0000000000000#64 0x3CBA79394C9E8A0A#64 0xBCBEE2C2D963A10C#64 0xBFF0000000000000#64)
        v6 := VReg.full (lanesS 0x3F800000#32 0xA58D3132#32 0x25B07D7E#32 0x3F800000#32 0xBF800000#32 0x25D3C9CA#32
          0xA5F71617#32 0xBF800000#32)
        v7 := VReg.full (lanesS 0x3F800000#32 0x00000000#32 0xBF800000#32 0x248D3132#32 0xC0000000#32 0xC0400000#32
          0x3F000000#32 0x3F800000#32)
        idx := 4
        mem := store .f32 [⟨0x3F800000#32, 0x0#32⟩, ⟨0xBF800000#32, 0x248D3132#32⟩, ⟨0xC0000000#32, 0xC0400000#32⟩,
          ⟨0x3F000000#32, 0x3F800000#32⟩, ⟨0x40800000#32, 0xC0800000#32⟩, ⟨0xBE800000#32, 0x3F000000#32⟩] 0x100 [] } := by
  decide +kernel

/-- PT1 and PT4. -/
theorem test_tgen : after (exec .tgen start) (fun t => (t.status.word, t.vBits 5, t.step.value)) =
      some (0x02#64, lanesD 0x3FF0000000000000#64 0x0#64 0x3FF0000000000000#64 0x0#64, ⟨0x3FF0000000000000#64, 0x0#64⟩) ∧
    after (exec .tgen { start with freq := 0x3FF0000000000000#64 }) (fun t => (t.status.word, t.step.heldRe)) =
      some (0x06#64, false) := by decide +kernel

/-- PN1. -/
theorem test_vnarrow : after (exec (.vnarrow 0 1 2) ((start.setV 1 (lanesD 0x3FF0000000000000#64 0x3FB999999999999A#64
      0x3FF0000010000000#64 0x3FF0000010000001#64)).setV 2 (lanesD 0x483D6329F1C35CA5#64 0x8000000000000000#64
      0x4170000010000000#64 0x37A16C262777579C#64))) (fun t => t.vBits 0) =
    some (lanesS 0x3F800000#32 0x3DCCCCCD#32 0x3F800000#32 0x3F800001#32 0x7F800000#32 0x80000000#32 0x4B800000#32
      0x000116C2#32) := by decide +kernel

/-- PN2: the destination is both sources. -/
theorem test_vnarrow_alias : after (exec (.vnarrow 1 1 1) (start.setV 1 (lanesD 0x3FF8000000000000#64 0xC000000000000000#64
      0x3FE0000000000000#64 0x400C000000000000#64))) (fun t => t.vBits 1) =
    some (lanesS 0x3FC00000#32 0xC0000000#32 0x3F000000#32 0x40600000#32 0x3FC00000#32 0xC0000000#32 0x3F000000#32
      0x40600000#32) := by decide +kernel

/-- PM1. -/
theorem test_vcmul4s : after (exec (.vcmul4s 0 1) ((start.setV 0 (lanesS 0x3F800000#32 0x40000000#32 0x0#32 0x3F800000#32
      0x3F000000#32 0xBF000000#32 0x40400000#32 0x0#32)).setV 1 (lanesS 0x40400000#32 0x40800000#32 0x0#32 0x3F800000#32
      0x40000000#32 0x40000000#32 0x0#32 0xBF800000#32))) (fun t => t.vBits 0) =
    some (lanesS 0xC0A00000#32 0x41200000#32 0xBF800000#32 0x0#32 0x40000000#32 0x0#32 0x0#32 0xC0400000#32) := by
  decide +kernel

/-- PM3. -/
theorem test_vcmul2d : after (exec (.vcmul2d 0 1) ((start.setV 0 (lanesD 0x3FF0000000000000#64 0x4000000000000000#64
      0x3FE3333333333333#64 0x3FE999999999999A#64)).setV 1 (lanesD 0x4008000000000000#64 0x4010000000000000#64
      0x3FE3333333333333#64 0x3FE999999999999A#64))) (fun t => t.vBits 0) =
    some (lanesD 0xC014000000000000#64 0x4024000000000000#64 0xBFD1EB851EB851EE#64 0x3FEEB851EB851EB8#64) := by
  decide +kernel

/-- PB2. -/
theorem test_vbcmul2d : after (exec (.vbcmul2d 2) ((start.setV 2 (lanesD 0x3FF0000000000000#64 0x4000000000000000#64
      0x3FE3333333333333#64 0x3FE999999999999A#64)).setStep ⟨0x4008000000000000#64, 0x4010000000000000#64⟩))
      (fun t => (t.vBits 2, t.step.value)) =
    some (lanesD 0xC014000000000000#64 0x4024000000000000#64 0xBFF6666666666668#64 0x4013333333333334#64,
      ⟨0x4008000000000000#64, 0x4010000000000000#64⟩) := by decide +kernel

/-- PL1: bytes 0x120 to 0x13F hold 00 to 1F. -/
theorem test_vld : after (exec (.vld 7 1) { start with
      base := 0x100#64, mem := (List.range 32).foldl (fun m j => m.write (0x120 + j) (BitVec.ofNat 8 j)) [] })
      (fun t => (t.vBits 7, sLane (t.vBits 7) 7)) =
    some (lanesD 0x0706050403020100#64 0x0F0E0D0C0B0A0908#64 0x1716151413121110#64 0x1F1E1D1C1B1A1918#64,
      0x1F1E1D1C#32) := by decide +kernel

/-- PL2. -/
theorem test_vst : after (exec (.vst 7 0) (({ start with base := 0x100#64 } : State).setV 7 (lanesS 0xC0A00000#32
      0x41200000#32 0xBF800000#32 0x0#32 0x40000000#32 0x0#32 0x0#32 0xC0400000#32)))
      (fun t => (List.range 32).map fun j => t.mem.read (0x100 + j)) =
    some [0x00#8, 0x00#8, 0xA0#8, 0xC0#8, 0x00#8, 0x00#8, 0x20#8, 0x41#8, 0x00#8, 0x00#8, 0x80#8, 0xBF#8, 0x00#8, 0x00#8,
      0x00#8, 0x00#8, 0x00#8, 0x00#8, 0x00#8, 0x40#8, 0x00#8, 0x00#8, 0x00#8, 0x00#8, 0x00#8, 0x00#8, 0x00#8, 0x00#8,
      0x00#8, 0x00#8, 0x40#8, 0xC0#8] := by decide +kernel

/-- PL3: index 127 ends at MEM_BYTES, index 128 lies beyond. -/
theorem test_vld_range : start.vecInMemory 127 = true ∧ start.vecInMemory 128 = false := by decide

/-- The first step after the host's placement of a row's word runs its command: SHIFT gives STATUS 0x12 (V0). -/
theorem test_withFetchWord : after (step (State.reset.withFetchWord 32 0x01000000)) (fun t => t.status.word) =
    some 0x12#64 := by decide +kernel

/-! Witnesses: for every obligation with hypotheses, a state and operands that meet them together, each clause at a
boundary of its range. -/

/-- A state with its pending inputs replaced. -/
abbrev withInputs (s : State) (i : List Input) : State := { s with inputs := i }

/-- A state with the engine running a word. -/
abbrev running (s : State) (w : BitVec 32) : State :=
  { s with seq := .run w, status := { busy := true, done := false, err := 0#2, kvec := false } }

/-- SIZE elements that end at MEM_BYTES = 4096; for T = F64 when `cfg` says so. -/
abbrev arrayState (cfg size base : Word64) : State := { start with cfg := cfg, size := size, base := base }

/-- A state in which every register holds a value. -/
abbrev allHeld : State := { start with v := Vector.replicate 8 (VReg.full 0#256), step := ⟨0, 0, true, true⟩ }

/-- An invalid frequency, 1.0. -/
abbrev invalidFreq : State := { start with freq := 0x3FF0000000000000#64 }

theorem witness_WordSelectsAtMostOneRow : Row.vst.selects 0x2170FFFF#32 = true := by decide
theorem witness_DecodeOfEncode : (WellFormed (.vst 7 0xFFFF) ∧ (Instr.vst 7 0xFFFF).available true = true) ∧
    (WellFormed .shift ∧ Instr.shift.available false = true) := by decide
theorem witness_EncodeOfDecode : decode true 0x10777000#32 = .instr (.vnarrow 7 7 7) ∧
    decode false 0x01000000#32 = .instr .shift := by decide
/-- One word for each cause of 30_encoding.md R98, at the first value that is illegal. -/
theorem witness_IllegalWordsExactly : decode true 0x22000000#32 = .illegal .unassignedOpcode ∧
    decode true 0x01000001#32 = .illegal .nonzeroField ∧ decode true 0x10000800#32 = .illegal .nonzeroField ∧
    decode true 0x11008000#32 = .illegal .nonzeroField ∧ decode true 0x13080000#32 = .illegal .nonzeroField ∧
    decode true 0x20080000#32 = .illegal .nonzeroField ∧ decode true 0x21800000#32 = .illegal .registerNumber ∧
    decode true 0x12080000#32 = .illegal .registerNumber ∧ decode true 0x10008000#32 = .illegal .registerNumber ∧
    decode false 0x02000000#32 = .illegal .absentFeature ∧ decode true 0x10777000#32 = .instr (.vnarrow 7 7 7) := by
  decide
theorem witness_StepRunsTheDecodedCommand : decode start.params.hasVec 0x02000000#32 = .instr .tgen ∧
    (running start 0x02000000#32).seq = .run 0x02000000#32 ∧ (running start 0x02000000#32).inputs = [] ∧
    (withInputs (running start 0x02000000#32) [.engineTurn]).inputs = .engineTurn :: [] := ⟨by decide, rfl, rfl, rfl⟩
theorem witness_CmdWriteIssuesTheWord : (withInputs start [.windowWrite 0x008#12 8 0#64]).status.busy = false ∧
    (withInputs start [.windowWrite 0x008#12 8 0#64]).inputs = .windowWrite 0x008#12 8 0#64 :: [] := ⟨rfl, rfl⟩
theorem witness_HostAccessWhileBusy : (running start 0#32).status.busy = true ∧ (0x000#12).toNat % 8 = 0 ∧
    (0x010#12).toNat % 8 = 0 ∧ (0x1F8#12).toNat % 8 = 0 ∧
    (withInputs (running start 0#32) [.windowRead 0x010#12 8]).inputs = .windowRead 0x010#12 8 :: [] ∧
    (withInputs (running start 0#32) [.windowWrite 0x008#12 8 0#64]).inputs = .windowWrite 0x008#12 8 0#64 :: [] :=
  ⟨rfl, by decide, by decide, by decide, rfl, rfl⟩
/-- The offsets of the clauses, each at both ends of its range. -/
theorem witness_WindowReadsBackWrites : (withInputs start [.windowWrite 0x1F8#12 8 1#64, .windowRead 0x1F8#12 8]).inputs =
      .windowWrite 0x1F8#12 8 1#64 :: .windowRead 0x1F8#12 8 :: [] ∧ start.status.busy = false ∧
    startGeneric.status.busy = false ∧ start.params.hasVec = true ∧ startGeneric.params.hasVec = false ∧
    [0x000#12, 0x018#12, 0x020#12, 0x028#12, 0x030#12, 0x038#12, 0x040#12, 0x048#12, 0x050#12, 0x0F8#12, 0x100#12,
      0x1F8#12, 0x200#12, 0xFF8#12].all (fun o => decide (o.toNat % 8 = 0 ∧ o ≠ 0x008#12 ∧ o ≠ 0x010#12)) = true :=
  ⟨rfl, rfl, rfl, rfl, rfl, by decide⟩
/-- The first and last ignored offsets of either build; 0x040, 0x048 and 0x100 are ignored without the vector datapath. -/
theorem witness_HostWriteSetsItsRegister : start.status.busy = false ∧ startGeneric.status.busy = false ∧
    start.params.hasVec = true ∧ startGeneric.params.hasVec = false ∧
    [0x000#12, 0x010#12, 0x050#12, 0x0F8#12, 0x200#12, 0xFF8#12].all (fun o => decide (o.toNat % 8 = 0 ∧
      o ∉ [0x008#12, 0x018#12, 0x020#12, 0x028#12, 0x030#12, 0x038#12] ∧
      (o ≠ 0x040#12 ∧ o ≠ 0x048#12 ∧ (o.toNat < 0x100 ∨ 0x200 ≤ o.toNat)))) = true ∧
    [0x040#12, 0x048#12, 0x100#12, 0x1F8#12].all (fun o => decide (o.toNat % 8 = 0 ∧
      o ∉ [0x008#12, 0x018#12, 0x020#12, 0x028#12, 0x030#12, 0x038#12])) = true :=
  ⟨rfl, rfl, rfl, rfl, by decide, by decide⟩
/-- The ignored offsets as above; every half and lane that holds a value, and every one that holds none. -/
theorem witness_HostReadReturnsItsRegister : start.status.busy = false ∧ startGeneric.status.busy = false ∧
    startGeneric.params.hasVec = false ∧
    [0x050#12, 0x0F8#12, 0x200#12, 0xFF8#12].all (fun o => decide (o.toNat % 8 = 0 ∧
      o ∉ [0x000#12, 0x008#12, 0x010#12, 0x018#12, 0x020#12, 0x028#12, 0x030#12, 0x038#12] ∧
      (o ≠ 0x040#12 ∧ o ≠ 0x048#12 ∧ (o.toNat < 0x100 ∨ 0x200 ≤ o.toNat)))) = true ∧
    (allHeld.status.busy = false ∧ allHeld.params.hasVec = true ∧ allHeld.step.heldRe = true ∧ allHeld.step.heldIm = true ∧
      (∀ (r : Fin 8) (j : Fin 4), allHeld.v[r].held.getLsbD j = true)) ∧
    start.step.heldRe = false ∧ start.v[(7 : Fin 8)].held.getLsbD 3 = false :=
  ⟨rfl, rfl, rfl, by decide, ⟨rfl, rfl, rfl, rfl, by decide⟩, rfl, by decide⟩
theorem witness_LaneWriteChangesOneLane : start.status.busy = false ∧ start.params.hasVec = true ∧
    (withInputs start [.windowWrite 0x1F8#12 8 1#64]).inputs =
      .windowWrite (BitVec.ofNat 12 (0x100 + 32 * (7 : Fin 8).val + 8 * (3 : Fin 4).val)) 8 1#64 :: [] :=
  ⟨rfl, rfl, rfl⟩
theorem witness_WindowAccessMustBeAligned64 : (4 ≠ 8 ∨ (0x000#12).toNat % 8 ≠ 0) ∧ (8 ≠ 8 ∨ (0x014#12).toNat % 8 ≠ 0) ∧
    (withInputs start [.windowWrite 0x000#12 4 0#64]).inputs = .windowWrite 0x000#12 4 0#64 :: [] ∧
    (withInputs start [.windowRead 0x014#12 8]).inputs = .windowRead 0x014#12 8 :: [] :=
  ⟨by decide, by decide, rfl, rfl⟩
/-- One F32 element at 0x100, and the 32 bytes at BASE + 32·127, which end at MEM_BYTES: the first and last byte, and the
bytes beside them. -/
theorem witness_ArrayIsClosedUntilCompletionIsRead : validFreq (arrayState 0 1 0x100#64).freq = true ∧
    ((arrayState 0 1 0x100#64).base.toNat ≤ 0x107 ∧ 0x107 <
      (arrayState 0 1 0x100#64).base.toNat + fmtEsz (arrayState 0 1 0x100#64).fmtT * (arrayState 0 1 0x100#64).size.toNat) ∧
    (arrayState 0 1 0x100#64).outsideArray 0x0FF ∧ (arrayState 0 1 0x100#64).outsideArray 0x108 ∧
    (arrayState 0 1 0x100#64).isLocked 0x108 = false ∧ 0x108 < (arrayState 0 1 0x100#64).params.memBytes.val ∧
    ((arrayState 0 1 0x100#64).base.toNat ≤ 0x100 ∧ (0x100#64).toNat < start.params.memBytes.val) ∧
    (start.params.hasVec = true ∧ (7 : BitVec 4).toNat < 8 ∧ (0xFFF#64).toNat < start.params.memBytes.val ∧
      start.base.toNat + 32 * (127 : BitVec 16).toNat ≤ (0xFE0#64).toNat ∧
      (0xFFF#64).toNat < start.base.toNat + 32 * (127 : BitVec 16).toNat + 32 ∧
      (0xFDF#64).toNat < start.base.toNat + 32 * (127 : BitVec 16).toNat ∧ start.isLocked (0xFDF#64).toNat = false ∧
      start.base.toNat + 32 * (126 : BitVec 16).toNat + 32 ≤ (0xFE0#64).toNat) ∧
    (arrayState 0 1 0x100#64).status.busy = false ∧
    (withInputs start [.windowRead 0x010#12 8]).inputs = .windowRead 0x010#12 8 :: [] ∧
    (∃ t, step (withInputs (running start 0x00000000#32) [.reset]) = .next t) ∧ (∃ t, exec .tgen start = .next t) :=
  ⟨by decide +kernel, by decide, by unfold State.outsideArray; decide, by unfold State.outsideArray; decide, by decide,
    by decide, by decide, by decide, rfl, rfl, ⟨_, rfl⟩, ⟨_, exec_tgen rfl (by decide +kernel)⟩⟩
theorem witness_OutsideWriteChangesOneByte : start.mem.wf = true ∧ (4095#64).toNat < start.params.memBytes.val ∧
    start.isLocked (4095#64).toNat = false ∧ (withInputs start [.memWrite 4095#64 1#8, .memRead 4095#64]).inputs =
      .memWrite 4095#64 1#8 :: .memRead 4095#64 :: [] := ⟨rfl, by decide, by decide, rfl⟩
theorem witness_ResetLeavesTheTable : (withInputs start [.reset]).seq = .idle ∧
    (withInputs start [.reset]).inputs = .reset :: [] ∧
    (∃ t, step (withInputs (running start 0x00000000#32) [.reset]) = .next t) := ⟨rfl, rfl, ⟨_, rfl⟩⟩
theorem witness_ResetAbandonsARunningShift : ∃ f,
    (running (arrayState 1 1 0xFF0#64) 0x01000000#32).seq = .run 0x01000000#32 ∧
    (running (arrayState 1 1 0xFF0#64) 0x01000000#32).arrayInMemory = true ∧
    validFreq (running (arrayState 1 1 0xFF0#64) 0x01000000#32).freq = true ∧
    (running (arrayState 1 1 0xFF0#64) 0x01000000#32).mem.wf = true ∧
    (withInputs (running (arrayState 1 1 0xFF0#64) 0x01000000#32) [.reset]).inputs = .reset :: [] ∧
    exec .shift (withInputs (running (arrayState 1 1 0xFF0#64) 0x01000000#32) []) = .next f :=
  ⟨_, rfl, by decide, by decide +kernel, rfl, rfl, execShift_valid (by decide +kernel) (by decide)⟩
/-- VLD and VST that end at MEM_BYTES; an illegal word, an invalid frequency and a command of the register datapath. -/
theorem witness_ResetAbandonsOtherCommands : (start.params.hasVec = true ∧ (7 : BitVec 4).toNat < 8 ∧
      start.base.toNat + 32 * (127 : BitVec 16).toNat + 32 ≤ start.params.memBytes.val ∧
      (running start (encode (.vld 7 127))).seq = .run (encode (.vld 7 127)) ∧
      (running start (encode (.vst 7 127))).seq = .run (encode (.vst 7 127)) ∧
      (withInputs (running start (encode (.vst 7 127))) [.reset]).inputs = .reset :: []) ∧
    decode start.params.hasVec 0xFFFFFFFF#32 = .illegal .unassignedOpcode ∧
    (decode start.params.hasVec 0x01000000#32 = .instr .shift ∧ validFreq invalidFreq.freq = false) ∧
    (decode start.params.hasVec 0x02000000#32 = .instr .tgen ∧ Instr.tgen ≠ .shift ∧
      ∀ rd imm, Instr.tgen ≠ .vld rd imm ∧ Instr.tgen ≠ .vst rd imm) :=
  ⟨⟨rfl, by decide, by decide, rfl, rfl, rfl⟩, by decide, ⟨by decide, by decide +kernel⟩,
    ⟨by decide, by decide, fun _ _ => ⟨nofun, nofun⟩⟩⟩
theorem witness_InvalidFrequencyWritesStatusOnly : validFreq invalidFreq.freq = false ∧
    invalidFreq.params.hasVec = true ∧ (∃ t, exec .shift invalidFreq = .next t ∧ t.status.err ≠ 0#2) :=
  ⟨by decide +kernel, rfl, ⟨_, execShift_invalid (by decide +kernel), by decide⟩⟩
theorem witness_AbsentOrIllFormedCommandsAreIllegal : (Instr.tgen ≠ .shift ∧ startGeneric.params.hasVec = false) ∧
    (Instr.vst 8 0 ≠ .shift ∧ ¬ WellFormed (.vst 8 0)) := by decide
/-- The two sides of the valid range. -/
theorem witness_ValidFrequencyExactly : validFreq 0x3FEFFFFFFFFFFFFF#64 = true ∧ validFreq 0x3FF0000000000000#64 = false ∧
    validFreq 0x8000000000000000#64 = true ∧ validFreq 0x8000000000000001#64 = false := by decide +kernel
/-- An array and a vector access that end at MEM_BYTES, and ones that end past it. -/
theorem witness_RangeStopsExactly : validFreq (arrayState 1 1 0xFF0#64).freq = true ∧
    (arrayState 1 1 0xFF0#64).arrayInMemory = true ∧ (arrayState 1 2 0xFF0#64).arrayInMemory = false ∧
    (arrayState 1 0 0x10000#64).arrayInMemory = true ∧ start.params.hasVec = true ∧ (7 : BitVec 4).toNat < 8 ∧
    start.vecInMemory 127 = true ∧ start.vecInMemory 128 = false :=
  ⟨by decide +kernel, by decide, by decide, by decide, rfl, by decide, by decide, by decide⟩
theorem witness_EveryMeaningfulCommandCompletes : [.shift, .tgen, .vnarrow 7 7 7, .vcmul4s 7 7, .vcmul2d 7 7, .vbcmul2d 7,
    .vld 7 127, .vst 7 127].all (fun i => hasMeaning i allHeld) = true := by decide +kernel
theorem witness_OnlyShiftAndResetWriteKvec : (∃ t, exec .tgen start = .next t) ∧
    (∃ t, runInput (.windowRead 0x010#12 8) start = .next t) ∧ Instr.tgen ≠ .shift ∧
    Input.windowRead 0x010#12 8 ≠ .engineTurn ∧ Input.windowRead 0x010#12 8 ≠ .reset ∧
    (∃ t, exec .shift invalidFreq = .next t) :=
  ⟨⟨_, exec_tgen rfl (by decide +kernel)⟩, ⟨_, rfl⟩, by decide, by decide, by decide,
    ⟨_, execShift_invalid (by decide +kernel)⟩⟩
theorem witness_TgenBuildsTonesAndStep : start.params.hasVec = true ∧ validFreq start.freq = true :=
  ⟨rfl, by decide +kernel⟩
theorem witness_VnarrowNarrowsEightLanes : start.params.hasVec = true ∧ (7 : BitVec 4).toNat < 8 ∧
    (0 : BitVec 4).toNat < 8 := by decide
theorem witness_Vcmul4sMultipliesFourLanes : start.params.hasVec = true ∧ (7 : BitVec 4).toNat < 8 := by decide
theorem witness_Vcmul2dMultipliesTwoLanes : start.params.hasVec = true ∧ (7 : BitVec 4).toNat < 8 := by decide
theorem witness_Vbcmul2dMultipliesByStep : start.params.hasVec = true ∧ (7 : BitVec 4).toNat < 8 := by decide
theorem witness_VldLoadsThirtyTwoBytes : start.params.hasVec = true ∧ (7 : BitVec 4).toNat < 8 ∧
    start.base.toNat + 32 * (127 : BitVec 16).toNat + 32 ≤ start.params.memBytes.val := by decide
theorem witness_VstStoresThirtyTwoBytes : start.params.hasVec = true ∧ (7 : BitVec 4).toNat < 8 ∧ start.mem.wf = true ∧
    start.base.toNat + 32 * (127 : BitVec 16).toNat + 32 ≤ start.params.memBytes.val := by decide
theorem witness_LoadThenStoreKeepsMemory : start.params.hasVec = true ∧ (0 : BitVec 4).toNat < 8 ∧ start.mem.wf = true ∧
    start.base.toNat + 32 * (127 : BitVec 16).toNat + 32 ≤ start.params.memBytes.val := by decide
theorem witness_ShiftCompletesAndKeepsArguments : validFreq (arrayState 1 1 0xFF0#64).freq = true ∧
    (arrayState 1 1 0xFF0#64).base.toNat + fmtEsz (arrayState 1 1 0xFF0#64).fmtT * (arrayState 1 1 0xFF0#64).size.toNat ≤
      (arrayState 1 1 0xFF0#64).params.memBytes.val ∧ (arrayState 1 0 0x10000#64).size = 0#64 :=
  ⟨by decide +kernel, by decide, rfl⟩
theorem witness_EmptyArrayIsANoOpSuccess : (invalidFreq.size = 0#64 ∧ validFreq invalidFreq.freq = false) ∧
    ((arrayState 0x74 0 0).size = 0#64 ∧ validFreq (arrayState 0x74 0 0).freq = true ∧
      (arrayState 0x74 0 0).useVector = false ∧ (arrayState 0x74 0 0).unroll = 8) ∧
    (arrayState 0x04 0 0).unroll = 1 :=
  ⟨⟨rfl, by decide +kernel⟩, ⟨rfl, by decide +kernel, by decide, by decide⟩, by decide⟩
/-- The hypotheses of the statements about one kernel, with an array that ends at MEM_BYTES. -/
def kernelHypotheses (s : State) (vec : Bool) : Bool :=
  validFreq s.freq && s.arrayInMemory && s.useVector == vec && s.mem.wf
theorem witness_GenericKernelEffect : kernelHypotheses (arrayState 0x27 5 0xFB0#64) false = true ∧
    (arrayState 0x27 5 0xFB0#64).base.toNat + fmtEsz (arrayState 0x27 5 0xFB0#64).fmtT * (arrayState 0x27 5 0xFB0#64).size.toNat ≤
      (arrayState 0x27 5 0xFB0#64).params.memBytes.val ∧
    kernelHypotheses (arrayState 0x04 0 0) false = true ∧
    (arrayState 0x04 0 0).base.toNat + fmtEsz (arrayState 0x04 0 0).fmtT * (arrayState 0x04 0 0).size.toNat ≤
      (arrayState 0x04 0 0).params.memBytes.val := by decide +kernel
theorem witness_VectorKernelEffect : kernelHypotheses (arrayState 0x00 6 0xFD0#64) true = true ∧
    kernelHypotheses (arrayState 0x01 6 0xFA0#64) true = true := by decide +kernel
/-- SIZE 3 (tail only), 4 (no tail), 5, 0 and T = F64: each clause about V[6] and V[7]. -/
theorem witness_VectorKernelScratchRegisters : kernelHypotheses (arrayState 0x00 3 0) true = true ∧
    kernelHypotheses (arrayState 0x00 4 0) true = true ∧ kernelHypotheses (arrayState 0x00 5 0) true = true ∧
    kernelHypotheses (arrayState 0x00 0 0) true = true ∧ kernelHypotheses (arrayState 0x01 4 0) true = true ∧
    (arrayState 0x00 3 0).fmtT = .f32 ∧ (arrayState 0x01 4 0).fmtT = .f64 := by decide +kernel
theorem witness_KernelsAgreeOnTheArray : kernelHypotheses (arrayState 0x00 6 0xFD0#64) true = true ∧
    kernelHypotheses (arrayState 0x36 6 0xFD0#64) false = true ∧ (arrayState 0x36 6 0xFD0#64).fmtU = .f64 ∧
    (arrayState 0x36 6 0xFD0#64).unroll = 4 ∧ (arrayState 0x36 6 0xFD0#64).fmtT = (arrayState 0x00 6 0xFD0#64).fmtT ∧
    (arrayState 0x36 6 0xFD0#64).base = (arrayState 0x00 6 0xFD0#64).base ∧
    (arrayState 0x36 6 0xFD0#64).size = (arrayState 0x00 6 0xFD0#64).size ∧
    (arrayState 0x36 6 0xFD0#64).freq = (arrayState 0x00 6 0xFD0#64).freq ∧
    (arrayState 0x36 6 0xFD0#64).phase = (arrayState 0x00 6 0xFD0#64).phase ∧
    (arrayState 0x36 6 0xFD0#64).mem = (arrayState 0x00 6 0xFD0#64).mem := by decide +kernel
theorem witness_NoByteOutsideTheArrayChanges : (∃ t, exec .shift (arrayState 1 1 0xFE0#64) = .next t) ∧
    (arrayState 1 1 0xFE0#64).outsideArray 0xFF0 ∧ (∃ t, exec .tgen start = .next t) ∧ Instr.tgen ≠ .shift ∧
    (∀ rd imm, Instr.tgen ≠ .vst rd imm) :=
  ⟨⟨_, execShift_valid (by decide +kernel) (by decide)⟩, by unfold State.outsideArray; decide,
    ⟨_, exec_tgen rfl (by decide +kernel)⟩, by decide, nofun⟩
theorem witness_ShiftUsesNothingLeftBehind : kernelHypotheses (arrayState 0x00 6 0xFD0#64) true = true ∧
    kernelHypotheses (arrayState 0x74 6 0xFD0#64) false = true ∧
    (let u : State := { arrayState 0x00 6 0xFD0#64 with v := allHeld.v }
     let s : State := arrayState 0x00 6 0xFD0#64
     u.params = s.params ∧ u.cfg = s.cfg ∧ u.base = s.base ∧ u.size = s.size ∧ u.freq = s.freq ∧ u.phase = s.phase ∧
       u.mem = s.mem) :=
  ⟨by decide +kernel, by decide +kernel, rfl, rfl, rfl, rfl, rfl, rfl, rfl⟩
theorem witness_KernelsKeepEachOthersRegisters : (∃ t, exec .shift (arrayState 0x04 1 0) = .next t) ∧
    (arrayState 0x04 1 0).useVector = false ∧ (∃ t, exec .shift (arrayState 0x00 1 0) = .next t) ∧
    (arrayState 0x00 1 0).useVector = true ∧ (∃ t, exec .tgen start = .next t) :=
  ⟨⟨_, execShift_valid (by decide +kernel) (by decide)⟩, by decide,
    ⟨_, execShift_valid (by decide +kernel) (by decide)⟩, by decide, ⟨_, exec_tgen rfl (by decide +kernel)⟩⟩
theorem witness_PrimitivesBuildOneBlock32 : kernelHypotheses (arrayState 0x00 4 0xFE0#64) true = true ∧
    (arrayState 0x00 4 0xFE0#64).fmtT = .f32 ∧ (arrayState 0x00 4 0xFE0#64).size = 4#64 ∧
    (arrayState 0x00 4 0xFE0#64).base.toNat + 32 ≤ (arrayState 0x00 4 0xFE0#64).params.memBytes.val := by decide +kernel
theorem witness_PrimitivesBuildOneBlock64 : kernelHypotheses (arrayState 0x01 4 0xFC0#64) true = true ∧
    (arrayState 0x01 4 0xFC0#64).fmtT = .f64 ∧ (arrayState 0x01 4 0xFC0#64).size = 4#64 ∧
    (arrayState 0x01 4 0xFC0#64).base.toNat + 64 ≤ (arrayState 0x01 4 0xFC0#64).params.memBytes.val := by decide +kernel
theorem witness_ZeroShiftMultipliesByOne : (arrayState 0x27 5 0xFB0#64).freq = 0#64 ∧
    (arrayState 0x27 5 0xFB0#64).phase = 0#64 ∧ (arrayState 0x27 5 0xFB0#64).arrayInMemory = true ∧
    (arrayState 0x27 5 0xFB0#64).mem.wf = true := by decide +kernel
/-- The smallest subnormal, and the largest finite value with its sign set. -/
theorem witness_UnitToneKeepsFiniteValues : fpMag (f := .f32) 0x00000001#32 < fmtInfMag .f32 ∧
    fpMag (f := .f32) 0x00000001#32 ≠ 0 ∧ fpMag (f := .f32) 0xFF7FFFFF#32 < fmtInfMag .f32 ∧
    fpMag (f := .f32) 0xFF7FFFFF#32 ≠ 0 ∧ fpNeg (f := .f32) 0xFF7FFFFF#32 = true := by decide
theorem witness_ArithmeticIsCorrectlyRounded : fpMag (f := .f32) 0xFF7FFFFF#32 < fmtInfMag .f32 ∧
    fpMag (f := .f32) 0x00000001#32 < fmtInfMag .f32 ∧
    fpInt (f := .f32) 0xFF7FFFFF#32 + fpInt (f := .f32) 0x00000001#32 ≠ 0 ∧
    fpInt (f := .f32) 0xFF7FFFFF#32 - fpInt (f := .f32) 0x00000001#32 ≠ 0 ∧
    fpMag (f := .f64) 0x7FEFFFFFFFFFFFFF#64 < fmtInfMag .f64 := by decide +kernel
theorem witness_SpecialValuesOfArithmetic : fpIsNaN (f := .f32) 0x7F800001#32 = true ∧
    fpIsInf (f := .f32) 0x7F800000#32 = true ∧ fpIsInf (f := .f32) 0xFF800000#32 = true ∧
    fpMag (f := .f32) 0x7F7FFFFF#32 < fmtInfMag .f32 ∧ fpIsZero (f := .f32) 0x80000000#32 = true ∧
    fpInt (f := .f32) 0x3F800000#32 + fpInt (f := .f32) 0xBF800000#32 = 0 ∧
    fpInt (f := .f32) 0x80000000#32 - fpInt (f := .f32) 0x00000000#32 = 0 := by decide +kernel
/-- The last and first value of each range. -/
theorem witness_NarrowingEnds : 0x7FF0000000000000 < fpMag (f := .f64) 0x7FF0000000000001#64 ∧
    0x47EFFFFFF0000000 ≤ fpMag (f := .f64) 0xC7EFFFFFF0000000#64 ∧
    fpMag (f := .f64) 0x7FF0000000000000#64 ≤ 0x7FF0000000000000 ∧
    fpMag (f := .f64) 0xC7EFFFFFEFFFFFFF#64 = 0x47EFFFFFEFFFFFFF ∧
    fpMag (f := .f64) 0xB690000000000000#64 ≤ 0x3690000000000000 := by decide +kernel
theorem witness_WideningIsExact : fpIsNaN (f := .f32) 0x7F800001#32 = true ∧ fpIsNaN (f := .f32) 0x00000001#32 = false ∧
    fpIsInf (f := .f32) 0xFF800000#32 = true ∧ fpMag (f := .f32) 0x7F7FFFFF#32 < 0x7F800000 := by decide
/-- At FREQ = PHASE = +0, where TrigCR holds of every build, an array in canonical memory meets the premises of the
statements on accuracy. -/
theorem inContract_zero {s : State} (hf : s.freq = 0#64) (hp : s.phase = 0#64)
    (ha : s.base.toNat + fmtEsz s.fmtT * s.size.toNat ≤ s.params.memBytes.val) (hm : s.mem.wf = true)
    (hs : s.size.toNat ≤ 2 ^ 18) : s.InContract := by
  have hz : ∀ k : Fin 9, fpMag (angle .f32 0#64 0#64 k) = 0 ∧ fpMag (stepAngle .f32 0#64 k) = 0 ∧
      fpMag (angle .f64 0#64 0#64 k) = 0 ∧ fpMag (stepAngle .f64 0#64 k) = 0 := by decide +kernel
  have hn : s.kernelN ≤ 8 := by rw [State.kernelN]; split; exacts [by decide, unroll_le s]
  refine ⟨by rw [hf]; decide +kernel, ha, hm, ?_, ⟨fun k hk => trigCRAt_zero ?_, trigCRAt_zero ?_⟩, ?_⟩
  · rw [hp]; cases s.kernelU <;> decide +kernel
  · rw [hf, hp]; cases s.kernelU
    · exact (hz ⟨k, by omega⟩).1
    · exact (hz ⟨k, by omega⟩).2.2.1
  · rw [hf]; cases s.kernelU
    · exact (hz ⟨s.kernelN, by omega⟩).2.1
    · exact (hz ⟨s.kernelN, by omega⟩).2.2.2
  · cases s.kernelU <;> simp only [fmtFrac] <;> omega

/-- TrigCR asks nothing that no cosine and sine could give: at every operand of either format the exact ones have a
rounding. -/
theorem test_trigCR_can_be_met : ∃ c s : (f : Fmt) → Fp f → Fp f, ∀ (f : Fmt) (x : Fp f),
    RoundsTo f (Real.cos (fpVal x)) (c f x) ∧ RoundsTo f (Real.sin (fpVal x)) (s f x) :=
  ⟨fun f x => (exists_roundsTo f (Real.cos (fpVal x))).choose, fun f x => (exists_roundsTo f (Real.sin (fpVal x))).choose,
    fun f _ => ⟨(exists_roundsTo f _).choose_spec, (exists_roundsTo f _).choose_spec⟩⟩

/-- The largest moderate magnitude and the first beyond it, in F32: a quarter of 2^128. -/
theorem test_cxModerate : cxModerate (f := .f32) ⟨0x7E800000#32, 0xFE800000#32⟩ ∧
    ¬ cxModerate (f := .f32) ⟨0x7E800001#32, 0x0#32⟩ := by unfold cxModerate; decide

/-- The vector kernel and the generic one, arrays that end at MEM_BYTES, the second with U = T = F64 and blocks of 3; an
element of the first and what the SHIFT makes of it. -/
theorem witness_ShiftTurnsEveryElement : (arrayState 0x00 6 0xFD0#64).InContract ∧ (arrayState 0x27 5 0xFB0#64).InContract ∧
    cxModerate (elemAt .f32 (arrayState 0x00 6 0xFD0#64).mem 0xFD0#64 5) ∧
    (let s := arrayState 0x00 6 0xFD0#64
     ∃ t, exec .shift s = .next t ∧ cxFinite (elemAt .f32 t.mem 0xFD0#64 5)) ∧
    (arrayState 0x27 5 0xFB0#64).kernelU = .f64 ∧ (arrayState 0x27 5 0xFB0#64).fmtT = .f64 ∧
    |fpVal (f := .f64) (arrayState 0x27 5 0xFB0#64).phase| ≤ 10 ^ 6 ∧ 4 < (arrayState 0x27 5 0xFB0#64).size.toNat ∧
    (arrayState 0x01 100000 0#64).size.toNat = 10 ^ 5 ∧ (arrayState 0x01 100000000 0#64).size.toNat = 10 ^ 8 := by
  refine ⟨inContract_zero rfl rfl (by decide) rfl (by decide), inContract_zero rfl rfl (by decide) rfl (by decide), ?_, ?_,
    by decide, by decide, ?_, by decide, by decide, by decide⟩
  · unfold cxModerate; decide +kernel
  · refine ⟨_, execShift_valid (by decide +kernel) (by decide), ?_⟩
    unfold cxFinite; decide +kernel
  · rw [show fpVal (f := .f64) (arrayState 0x27 5 0xFB0#64).phase = 0 by
      rw [fpVal, show fpInt (f := .f64) (arrayState 0x27 5 0xFB0#64).phase = 0 by decide +kernel]; simp]
    norm_num

/-- SIZE = 6 in the vector kernel, a tail of two, against UNROLL_SIZE = 1. -/
theorem witness_TailMatchesBlockSizeOne : (arrayState 0x00 6 0xFD0#64).InContract ∧
    (arrayState 0x04 6 0xFD0#64).InContract ∧ (arrayState 0x04 6 0xFD0#64).useVector = false ∧
    (arrayState 0x04 6 0xFD0#64).unroll = 1 ∧ (arrayState 0x04 6 0xFD0#64).fmtT = (arrayState 0x00 6 0xFD0#64).fmtT ∧
    cxModerate (elemAt .f32 (arrayState 0x00 6 0xFD0#64).mem 0xFD0#64 5) ∧
    (let s := arrayState 0x04 6 0xFD0#64
     ∃ t, exec .shift s = .next t ∧ cxFinite (elemAt .f32 t.mem 0xFD0#64 5)) := by
  refine ⟨inContract_zero rfl rfl (by decide) rfl (by decide), inContract_zero rfl rfl (by decide) rfl (by decide),
    by decide, by decide, by decide, ?_, ?_⟩
  · unfold cxModerate; decide +kernel
  · refine ⟨_, execShift_valid (by decide +kernel) (by decide), ?_⟩
    unfold cxFinite; decide +kernel

/-- Two SHIFTs of five F64 elements in sequence, and one. -/
theorem witness_ShiftsCompose : let s₁ := arrayState 0x27 5 0xFB0#64
    let t₁ := shiftResult s₁
    let s₂ : State := { t₁ with freq := 0#64, phase := 0#64 }
    s₁.InContract ∧ exec .shift s₁ = .next t₁ ∧ s₂.InContract ∧
      ({ s₁ with freq := 0#64, phase := 0#64 } : State).InContract ∧
      ∃ t₂, exec .shift s₂ = .next t₂ ∧ cxFinite (elemAt .f64 t₂.mem 0xFB0#64 4) := by
  refine ⟨inContract_zero rfl rfl (by decide) rfl (by decide), execShift_valid (by decide +kernel) (by decide),
    inContract_zero rfl rfl (by decide +kernel) (by decide +kernel) (by decide +kernel),
    inContract_zero rfl rfl (by decide) rfl (by decide), _, execShift_valid (by decide +kernel) (by decide +kernel), ?_⟩
  unfold cxFinite; decide +kernel
/-- The reset state with no input pending meets the invariants and has a next state, as does each kind of input. -/
theorem witness_StepKeepsStatusAndSeqAgreeing : State.reset.StatusInv ∧ step State.reset = .next State.reset ∧
    ∃ t, step (withInputs start [.windowWrite 0x008#12 8 0x02000000#64]) = .next t :=
  ⟨⟨by decide, by decide, by decide, by decide⟩, rfl, _, rfl⟩
theorem witness_StepKeepsReservedBitsZero : State.reset.ReservedInv ∧ step State.reset = .next State.reset ∧
    ∃ t, step (withInputs start [.windowWrite 0x018#12 8 (BitVec.allOnes 64)]) = .next t :=
  ⟨⟨by decide, by decide⟩, rfl, _, rfl⟩
theorem witness_StepKeepsMemoryCanonical : State.reset.MemoryInv ∧ step State.reset = .next State.reset ∧
    start.MemoryInv ∧ ∃ t, step (withInputs start [.memWrite 4095#64 0xFF#8]) = .next t :=
  ⟨⟨wf_powerUpMemory _, fun _ => inside_powerUpMemory⟩, rfl, ⟨rfl, nofun⟩, _, rfl⟩
theorem witness_NoStepChangesTheBuild : ∃ t, step (withInputs start [.reset]) = .next t := ⟨_, rfl⟩
theorem witness_IdleEngineDoesNothing : start.seq = .idle ∧ start.inputs = [] ∧
    (withInputs start [.engineTurn]).inputs = .engineTurn :: [] := ⟨rfl, rfl, rfl⟩

end Sys2Proof.Tests.Slice0
end

section
/-! PROOF. The host window of 10_state.md: what an access does, and the statements about it. -/

namespace Sys2Proof.Machine

/-! Which accesses have a meaning, and which register an offset names (10_state.md R21, R22, R42). -/

section
variable {s : State} {o : BitVec 12} {bytes : Nat} {x : Word64} {rest : List Input} {r : WindowReg}

theorem windowOk_eight (ho : o.toNat % 8 = 0) : windowOk o 8 = true := by simp [windowOk, ho]

theorem windowOk_eq_false (h : bytes ≠ 8 ∨ o.toNat % 8 ≠ 0) : windowOk o bytes = false := by
  rcases h with h | h <;> simp [windowOk, h]

theorem step_windowWrite_idle (hb : s.status.busy = false) (ho : o.toNat % 8 = 0)
    (h : s.inputs = .windowWrite o 8 x :: rest) (hr : windowReg s.params.hasVec o = r) :
    step s = .next (({ s with inputs := rest } : State).writeReg r x) := by
  rw [step_cons h]
  simp [runInput, windowWrite, windowOk_eight ho, hb, hr]

theorem step_windowWrite_busy (hb : s.status.busy = true) (ho : o.toNat % 8 = 0)
    (h : s.inputs = .windowWrite o 8 x :: rest) : step s = .next { s with inputs := rest } := by
  rw [step_cons h]
  simp [runInput, windowWrite, windowOk_eight ho, hb]

theorem step_windowRead_idle (hb : s.status.busy = false) (ho : o.toNat % 8 = 0)
    (h : s.inputs = .windowRead o 8 :: rest) (hr : windowReg s.params.hasVec o = r) :
    step s = .next (({ s with inputs := rest } : State).readIdle r) := by
  rw [step_cons h]
  simp [runInput, windowRead, windowOk_eight ho, hb, hr]

theorem step_windowRead_busy (hb : s.status.busy = true) (ho : o.toNat % 8 = 0)
    (h : s.inputs = .windowRead o 8 :: rest) (hr : windowReg s.params.hasVec o = r) :
    step s = .next (({ s with inputs := rest } : State).readBusy r) := by
  rw [step_cons h]
  simp [runInput, windowRead, windowOk_eight ho, hb, hr]

/-- `step_windowWrite_idle` for a state written with its pending access. -/
theorem step_windowWrite_pending (hb : s.status.busy = false) (ho : o.toNat % 8 = 0)
    (hr : windowReg s.params.hasVec o = r) :
    step { s with inputs := .windowWrite o 8 x :: rest } = .next (({ s with inputs := rest } : State).writeReg r x) :=
  step_windowWrite_idle (s := { s with inputs := .windowWrite o 8 x :: rest }) hb ho rfl hr

/-- `step_windowRead_idle` for a state written with its pending access. -/
theorem step_windowRead_pending (hb : s.status.busy = false) (ho : o.toNat % 8 = 0)
    (hr : windowReg s.params.hasVec o = r) :
    step { s with inputs := .windowRead o 8 :: rest } = .next (({ s with inputs := rest } : State).readIdle r) :=
  step_windowRead_idle (s := { s with inputs := .windowRead o 8 :: rest }) hb ho rfl hr

end

theorem windowReg_stepRe {v : Bool} (hv : v = true) : windowReg v 0x040#12 = .stepRe := by subst hv; rfl

theorem windowReg_stepIm {v : Bool} (hv : v = true) : windowReg v 0x048#12 = .stepIm := by subst hv; rfl

theorem laneOffset_aligned : ∀ (r : Fin 8) (j : Fin 4),
    (BitVec.ofNat 12 (0x100 + 32 * r.val + 8 * j.val)).toNat % 8 = 0 := by decide

theorem windowReg_laneOffset {v : Bool} (hv : v = true) (r : Fin 8) (j : Fin 4) :
    windowReg v (BitVec.ofNat 12 (0x100 + 32 * r.val + 8 * j.val)) = .lane r j := by
  subst hv; revert r j; decide

/-- The block of the vector registers, as the window's map tests it and as a range of offsets. -/
theorem vectorBlock_iff (o : BitVec 12) : o.extractLsb' 8 4 = 1#4 ↔ 0x100 ≤ o.toNat ∧ o.toNat < 0x200 := by
  rw [← BitVec.toNat_inj, BitVec.extractLsb'_toNat, Nat.shiftRight_eq_div_pow, BitVec.toNat_ofNat]
  have := o.isLt
  omega

/-- Every offset of the vector block names a lane. -/
theorem windowReg_vectorBlock {v : Bool} (hv : v = true) {o : BitVec 12} (h : 0x100 ≤ o.toNat ∧ o.toNat < 0x200) :
    ∃ r j, windowReg v o = .lane r j := by
  have hlow : ∀ c : BitVec 12, c.toNat < 0x100 → o ≠ c := fun c hc e => by subst e; omega
  refine ⟨⟨_, (o.extractLsb' 5 3).isLt⟩, ⟨_, (o.extractLsb' 3 2).isLt⟩, ?_⟩
  simp [windowReg, hv, (vectorBlock_iff o).2 h, hlow]

/-- An offset of no register is reserved (10_state.md R43). -/
theorem windowReg_reserved {v : Bool} {o : BitVec 12}
    (hf : o ∉ [0x000#12, 0x008#12, 0x010#12, 0x018#12, 0x020#12, 0x028#12, 0x030#12, 0x038#12])
    (hv : v = false ∨ (o ≠ 0x040#12 ∧ o ≠ 0x048#12 ∧ (o.toNat < 0x100 ∨ 0x200 ≤ o.toNat))) :
    windowReg v o = .reserved := by
  simp only [List.mem_cons, List.not_mem_nil, or_false, not_or] at hf
  obtain ⟨h0, h1, h2, h3, h4, h5, h6, h7⟩ := hf
  rcases hv with rfl | ⟨h8, h9, hl⟩
  · simp [windowReg, *]
  · have hb : ¬ o.extractLsb' 8 4 = 1#4 := by rw [vectorBlock_iff]; omega
    simp only [windowReg, *, if_false, ite_self]

/-! What a register write leaves alone. -/

@[simp] theorem State.writeReg_params (s : State) (r : WindowReg) (x : Word64) :
    (s.writeReg r x).params = s.params := by
  cases r <;> rfl

@[simp] theorem State.writeReg_inputs (s : State) (r : WindowReg) (x : Word64) :
    (s.writeReg r x).inputs = s.inputs := by
  cases r <;> rfl

/-- Only a write to CMD touches STATUS and SEQ. -/
theorem State.writeReg_status_seq (s : State) {r : WindowReg} (x : Word64) (hr : r ≠ .cmd) :
    (s.writeReg r x).status = s.status ∧ (s.writeReg r x).seq = s.seq := by
  cases r with
  | cmd => exact absurd rfl hr
  | cap | status | cfg | base | size | freq | phase | stepRe | stepIm | lane | reserved => exact ⟨rfl, rfl⟩

/-! What a register read changes (10_state.md R42, R45). -/

/-- A read that depends on a mark changes the value returned and the counter of free values only; the mark decides. -/
theorem State.returnsIfHeld_spec (s : State) (held : Bool) (x : Word64) :
    (held = true → (s.returnsIfHeld held x).hostData = x ∧ (s.returnsIfHeld held x).freeCtr = s.freeCtr) ∧
      s.returnsIfHeld held x =
        { s with hostData := (s.returnsIfHeld held x).hostData, freeCtr := (s.returnsIfHeld held x).freeCtr } := by
  cases held
  · exact ⟨nofun, rfl⟩
  · exact ⟨fun _ => ⟨rfl, rfl⟩, rfl⟩

theorem State.readBusy_frame (s : State) (r : WindowReg) :
    s.readBusy r = { s with hostData := (s.readBusy r).hostData, freeCtr := (s.readBusy r).freeCtr } := by
  cases r <;> rfl

theorem State.readIdle_frame (s : State) (r : WindowReg) : s.readIdle r =
    { s with
      locked := (s.readIdle r).locked, hostData := (s.readIdle r).hostData, freeCtr := (s.readIdle r).freeCtr } := by
  cases r with
  | cap | cmd | status | cfg | base | size | freq | phase | reserved => rfl
  | stepRe | stepIm | lane => simp only [State.readIdle, State.returnsIfHeld]; split <;> rfl

@[simp] theorem State.readIdle_inputs (s : State) (r : WindowReg) : (s.readIdle r).inputs = s.inputs := by
  rw [State.readIdle_frame]

/-- The fields of STATUS at their bits (10_state.md R25). -/
theorem Status.word_fields (t : Status) : t.word.getLsbD 0 = t.busy ∧ t.word.getLsbD 1 = t.done ∧
    t.word.extractLsb' 2 2 = t.err ∧ t.word.getLsbD 4 = t.kvec ∧ t.word.extractLsb' 5 59 = 0#59 := by
  obtain ⟨busy, done, err, kvec⟩ := t
  revert busy done err kvec
  decide

/-! One lane of a vector register (10_state.md R34). -/

theorem getLsbD_setLane (t : VReg) (j : Fin 4) (x : Word64) (i : Nat) :
    (t.setLane j x).bits.getLsbD i =
      if 64 * j.val ≤ i ∧ i < 64 * j.val + 64 then x.getLsbD (i - 64 * j.val) else t.bits.getLsbD i := by
  simp only [VReg.setLane, BitVec.getLsbD_or, BitVec.getLsbD_and, BitVec.getLsbD_not, BitVec.getLsbD_shiftLeft,
    BitVec.getLsbD_setWidth, BitVec.getLsbD_allOnes]
  grind

theorem getLsbD_dLane (y : VWord) (j i : Nat) :
    BitVec.getLsbD (w := 64) (dLane y j) i = (decide (i < 64) && y.getLsbD (64 * j + i)) :=
  BitVec.getLsbD_extractLsb' ..

theorem dLane_setLane_same (t : VReg) (j : Fin 4) (x : Word64) : dLane (t.setLane j x).bits j.val = x := by
  refine BitVec.eq_of_getLsbD_eq (w := 64) fun i hi => ?_
  rw [getLsbD_dLane, getLsbD_setLane, if_pos ⟨by omega, by omega⟩, Nat.add_sub_cancel_left]
  simp [hi]

theorem dLane_setLane_ne (t : VReg) {j j' : Fin 4} (x : Word64) (h : j' ≠ j) :
    dLane (t.setLane j x).bits j'.val = dLane t.bits j'.val := by
  refine BitVec.eq_of_getLsbD_eq (w := 64) fun i hi => ?_
  rw [getLsbD_dLane, getLsbD_dLane, getLsbD_setLane, if_neg (by omega)]

theorem held_setLane (t : VReg) (j j' : Fin 4) (x : Word64) :
    (t.setLane j x).held.getLsbD j'.val = (decide (j' = j) || t.held.getLsbD j'.val) := by
  simp only [VReg.setLane, BitVec.getLsbD_or, BitVec.getLsbD_shiftLeft, BitVec.getLsbD_one]
  grind

theorem State.setVLane_same (s : State) (r : Fin 8) (j : Fin 4) (x : Word64) :
    (s.setVLane r j x).v[r] = s.v[r].setLane j x := by simp

/-! What a register reads as after it was written. -/

/-- What the host reads from a register of an idle engine after it has written `x` there: what 10_state.md R23, R27 to
R34, R43 keep of `x`. STATUS, which returns what the engine has left, stands here as 0 and is shut out below. -/
def WindowReg.readBack (p : Config.Params) (x : Word64) : WindowReg → Word64
  | .cap => capWord p
  | .cfg => cfgStored x
  | .base => baseStored x
  | .cmd | .status | .reserved => 0#64
  | .size | .freq | .phase | .stepRe | .stepIm | .lane _ _ => x

theorem State.hostData_read_after_write (s : State) {r : WindowReg} (x : Word64) (l : List Input) (hr : r ≠ .status) :
    (({ s.writeReg r x with inputs := l } : State).readIdle r).hostData = r.readBack s.params x := by
  cases r with
  | status => exact absurd rfl hr
  | cap | cmd | cfg | base | size | freq | phase | stepRe | stepIm | reserved => rfl
  | lane q j =>
    simp only [State.writeReg, State.readIdle, State.setVLane_same, dLane_setLane_same, held_setLane,
      State.returnsIfHeld, WindowReg.readBack, decide_true, Bool.true_or, if_true, State.returns_hostData]

/-- The window's map against the table of 10_state.md R22, for every offset but CMD's and STATUS's. -/
theorem readBack_windowReg (p : Config.Params) (x : Word64) {o : BitVec 12} (hcmd : o ≠ 0x008#12)
    (hstatus : o ≠ 0x010#12) :
    windowReg p.hasVec o ≠ .cmd ∧ windowReg p.hasVec o ≠ .status ∧ (windowReg p.hasVec o).readBack p x =
      if o = 0x000#12 then (if p.hasVec then 0x80881#64 else 0x80#64)
      else if o = 0x018#12 then x &&& 0x77#64
      else if o = 0x020#12 then x &&& 0xFFFFFFFFFFFFFFF0#64
      else if o = 0x028#12 ∨ o = 0x030#12 ∨ o = 0x038#12 then x
      else if p.hasVec = true ∧ (o = 0x040#12 ∨ o = 0x048#12 ∨ (0x100 ≤ o.toNat ∧ o.toNat < 0x200)) then x
      else 0#64 := by
  by_cases hf : o ∈ [0x000#12, 0x018#12, 0x020#12, 0x028#12, 0x030#12, 0x038#12]
  · simp only [List.mem_cons, List.not_mem_nil, or_false] at hf
    rcases hf with rfl | rfl | rfl | rfl | rfl | rfl <;> exact ⟨nofun, nofun, rfl⟩
  simp only [List.mem_cons, List.not_mem_nil, or_false, not_or] at hf
  obtain ⟨h0, h3, h4, h5, h6, h7⟩ := hf
  by_cases hv : p.hasVec = true ∧ (o = 0x040#12 ∨ o = 0x048#12 ∨ (0x100 ≤ o.toNat ∧ o.toNat < 0x200))
  · simp only [h0, h3, h4, h5, h6, h7, if_false, or_false]
    rw [if_pos hv]
    have hx : windowReg p.hasVec o = .stepRe ∨ windowReg p.hasVec o = .stepIm ∨
        ∃ r j, windowReg p.hasVec o = .lane r j := by
      rcases hv with ⟨hv, rfl | rfl | hl⟩
      · exact .inl (windowReg_stepRe hv)
      · exact .inr (.inl (windowReg_stepIm hv))
      · exact .inr (.inr (windowReg_vectorBlock hv hl))
    rcases hx with hx | hx | ⟨r, j, hx⟩ <;> rw [hx] <;> exact ⟨nofun, nofun, rfl⟩
  · simp only [h0, h3, h4, h5, h6, h7, if_false, or_false]
    have hres : p.hasVec = false ∨ (o ≠ 0x040#12 ∧ o ≠ 0x048#12 ∧ (o.toNat < 0x100 ∨ 0x200 ≤ o.toNat)) := by
      rw [not_and_or, Bool.not_eq_true, not_or, not_or] at hv
      exact hv.imp_right fun ⟨h8, h9, hl⟩ => ⟨h8, h9, by omega⟩
    rw [if_neg hv, windowReg_reserved (by simp [*]) hres]
    exact ⟨nofun, nofun, rfl⟩

/-- Settles O9: the write, then the read, each as one register access of the idle engine. -/
theorem windowReadsBackWrites : Obligations.WindowReadsBackWrites := by
  intro s o x rest hb ho hcmd hstatus h
  obtain ⟨hr, hr', hval⟩ := readBack_windowReg s.params x hcmd hstatus
  refine ⟨_, _, step_windowWrite_idle hb ho h rfl,
    step_windowRead_idle ?_ ho (State.writeReg_inputs _ _ _) (by rw [State.writeReg_params]),
    State.readIdle_inputs _ _, (State.hostData_read_after_write _ x rest hr').trans hval⟩
  rw [(State.writeReg_status_seq _ x hr).1]
  exact hb

/-- Settles O12: the lane in and out of `VReg.setLane`. -/
theorem laneWriteChangesOneLane : Obligations.LaneWriteChangesOneLane := by
  intro s r j x rest hb hv h
  refine ⟨_, step_windowWrite_idle hb (laneOffset_aligned r j) h (windowReg_laneOffset hv r j), ?_, ?_, ?_, ?_, rfl⟩
  · show dLane (({ s with inputs := rest } : State).setVLane r j x).v[r].bits j = x
    rw [State.setVLane_same, dLane_setLane_same]
  · show (({ s with inputs := rest } : State).setVLane r j x).v[r].held.getLsbD j = true
    rw [State.setVLane_same, held_setLane, decide_eq_true rfl, Bool.true_or]
  · intro j' hj
    show dLane (({ s with inputs := rest } : State).setVLane r j x).v[r].bits j' = _ ∧
      (({ s with inputs := rest } : State).setVLane r j x).v[r].held.getLsbD j' = _
    rw [State.setVLane_same, held_setLane, dLane_setLane_ne _ _ hj]
    simp [hj]
  · exact fun r' hr => State.setVLane_ne _ j x hr

/-- Settles O7: the idle write to CMD is `State.issue`. -/
theorem cmdWriteIssuesTheWord : Obligations.CmdWriteIssuesTheWord := by
  intro s x rest hb h
  refine ⟨_, step_windowWrite_idle hb rfl h rfl, ?_⟩
  rw [← BitVec.setWidth_eq_extractLsb' (by decide)]
  rfl

/-- Settles O8: the busy engine ignores a write, and a read moves the value returned and the counter only. -/
theorem hostAccessWhileBusy : Obligations.HostAccessWhileBusy := by
  intro s o x rest hb ho
  refine ⟨step_windowWrite_busy hb ho, fun h => ⟨_, step_windowRead_busy hb ho h rfl, State.readBusy_frame _ _, ?_, ?_⟩⟩
  · rintro rfl; rfl
  · rintro rfl; rfl

/-- Settles O10: register by register, then the offsets that ignore a write. -/
theorem hostWriteSetsItsRegister : Obligations.HostWriteSetsItsRegister := by
  intro s x rest hb
  refine ⟨step_windowWrite_pending hb rfl rfl, step_windowWrite_pending hb rfl rfl,
    step_windowWrite_pending hb rfl rfl, step_windowWrite_pending hb rfl rfl, step_windowWrite_pending hb rfl rfl,
    fun hv => ⟨step_windowWrite_pending hb rfl (windowReg_stepRe hv),
      step_windowWrite_pending hb rfl (windowReg_stepIm hv)⟩, fun o ho hf hv => ?_⟩
  by_cases hcap : o = 0x000#12
  · subst hcap; exact step_windowWrite_pending hb ho rfl
  by_cases hstatus : o = 0x010#12
  · subst hstatus; exact step_windowWrite_pending hb ho rfl
  · refine step_windowWrite_pending hb ho (windowReg_reserved ?_ hv)
    simp only [List.mem_cons, not_or] at hf ⊢
    simp only [hcap, hstatus, hf, not_false_eq_true, and_true]

/-- Settles O11: register by register, the marks deciding for STEP and the lanes, then the reserved offsets. -/
theorem hostReadReturnsItsRegister : Obligations.HostReadReturnsItsRegister := by
  intro s rest hb
  obtain ⟨hbusy, hdone, herr, hkvec, hzero⟩ := Status.word_fields s.status
  refine ⟨step_windowRead_pending hb rfl rfl, step_windowRead_pending hb rfl rfl,
    ⟨_, step_windowRead_pending hb rfl rfl, hbusy, hdone, herr, hkvec, hzero, rfl⟩,
    step_windowRead_pending hb rfl rfl, step_windowRead_pending hb rfl rfl, step_windowRead_pending hb rfl rfl,
    step_windowRead_pending hb rfl rfl, step_windowRead_pending hb rfl rfl,
    fun hv => ⟨?_, ?_, fun r j => ?_⟩, fun o ho hf hv => step_windowRead_pending hb ho (windowReg_reserved hf hv)⟩
  · exact ⟨_, step_windowRead_pending hb rfl (windowReg_stepRe hv),
      State.returnsIfHeld_spec { s with inputs := rest } _ _⟩
  · exact ⟨_, step_windowRead_pending hb rfl (windowReg_stepIm hv),
      State.returnsIfHeld_spec { s with inputs := rest } _ _⟩
  · exact ⟨_, step_windowRead_pending hb (laneOffset_aligned r j) (windowReg_laneOffset hv r j),
      State.returnsIfHeld_spec { s with inputs := rest } _ _⟩

/-- Settles O13: such an access fails `windowOk`. -/
theorem windowAccessMustBeAligned64 : Obligations.WindowAccessMustBeAligned64 := by
  intro s o bytes x rest hbad
  have hok := windowOk_eq_false hbad
  constructor
  · intro h; rw [step_cons h]; simp [runInput, windowWrite, hok]
  · intro h; rw [step_cons h]; simp [runInput, windowRead, hok]

end Sys2Proof.Machine
end

section
/-! PROOF. What one step of PMX can do, and what every step keeps: the statements of 10_state.md about all steps and
about reset. -/

namespace Sys2Proof.Machine

/-! What one input can do. -/

/-- What an input, taken from the pending ones, can make of the state: the inversion that every invariant rests on. -/
inductive InputEffect (s t : State) : Prop where
  /-- Nothing, or a read of the outside world: no register and no byte changes. -/
  | observe (lk : List (Nat × Nat)) (x : Word64) (n : Nat)
      (ht : t = { s with locked := lk, hostData := x, freeCtr := n })
  /-- A byte is written from outside the engine. -/
  | memWrite (addr : Word64) (x : Byte) (hin : s.inMemory addr.toNat 1 = true)
      (hfree : s.isLocked addr.toNat = false) (ht : t = { s with mem := s.mem.write addr.toNat x })
  /-- The host writes a register of the idle engine. -/
  | hostWrite (r : WindowReg) (x : Word64) (hidle : s.status.busy = false) (ht : t = s.writeReg r x)
  /-- The engine runs its command to completion. -/
  | command (w : BitVec 32) (hseq : s.seq = .run w) (ht : runWord w s = .next t)
  /-- The machine is reset. -/
  | reset (ht : resetEvent s = .next t)

theorem inputEffect_engineTurn {s t : State} (h : engineTurn s = .next t) : InputEffect s t := by
  cases hs : s.seq with
  | idle => rw [engineTurn_idle hs] at h; exact .observe _ _ _ (Host.Outcome.next.inj h).symm
  | run w => rw [engineTurn_run hs] at h; exact .command w hs h

theorem inputEffect_windowWrite {s t : State} {o : BitVec 12} {bytes : Nat} {x : Word64}
    (h : windowWrite o bytes x s = .next t) : InputEffect s t := by
  unfold windowWrite at h
  split at h
  · obtain rfl := Host.Outcome.next.inj h
    cases hb : s.status.busy with
    | true => exact .observe _ _ _ rfl
    | false => exact .hostWrite _ x hb rfl
  · cases h

theorem inputEffect_windowRead {s t : State} {o : BitVec 12} {bytes : Nat}
    (h : windowRead o bytes s = .next t) : InputEffect s t := by
  unfold windowRead at h
  split at h
  · obtain rfl := Host.Outcome.next.inj h
    cases hb : s.status.busy with
    | true => exact .observe _ _ _ (State.readBusy_frame s _)
    | false => exact .observe _ _ _ (State.readIdle_frame s _)
  · cases h

theorem inputEffect_outsideWrite {s t : State} {addr : Word64} {x : Byte} (h : outsideWrite addr x s = .next t) :
    InputEffect s t := by
  unfold outsideWrite at h
  split at h
  · cases h
  · rename_i hin
    split at h
    · cases h
    · rename_i hfree
      exact .memWrite addr x (by simpa using hin) (by simpa using hfree) (Host.Outcome.next.inj h).symm

theorem inputEffect_outsideRead {s t : State} {addr : Word64} (h : outsideRead addr s = .next t) :
    InputEffect s t := by
  unfold outsideRead at h
  split at h
  · cases h
  · split at h
    · cases h
    · exact .observe _ _ _ (Host.Outcome.next.inj h).symm

theorem inputEffect_runInput {s t : State} {i : Input} (h : runInput i s = .next t) : InputEffect s t := by
  cases i with
  | engineTurn => exact inputEffect_engineTurn h
  | windowWrite o bytes x => exact inputEffect_windowWrite h
  | windowRead o bytes => exact inputEffect_windowRead h
  | memWrite addr x => exact inputEffect_outsideWrite h
  | memRead addr => exact inputEffect_outsideRead h
  | reset => exact .reset h

/-- A step is the effect of one input on the state without it. -/
theorem inputEffect_step {s t : State} (h : step s = .next t) :
    ∃ rest, InputEffect { s with inputs := rest } t := by
  rcases step_cases h with ⟨hnil, h⟩ | ⟨i, rest, -, h⟩
  · exact ⟨[], inputEffect_engineTurn (by rwa [← hnil])⟩
  · exact ⟨rest, inputEffect_runInput h⟩

/-! Reset. -/

/-- The registers after any reset are the table of 10_state.md R46. -/
theorem atReset_afterReset (p : Config.Params) (m : Memory) (n ctr : Nat) (ins : List Input) (lk : List (Nat × Nat)) :
    (State.afterReset p m n ctr ins lk).AtReset where
  cap := rfl
  status := by simp [State.afterReset, Status.word]
  cfg := rfl
  formats := by simp [State.afterReset, State.fmtT, State.fmtU, State.gen, State.unroll]
  base := rfl
  size := rfl
  freq := rfl
  phase := rfl
  step := ⟨rfl, rfl⟩
  vector := fun r => by simp [State.afterReset]
  tone := fun k => by simp [State.afterReset, freeTone]
  gstep := rfl
  seq := rfl
  idx := rfl

theorem statusInv_afterReset (p : Config.Params) (m : Memory) (n ctr : Nat) (ins : List Input)
    (lk : List (Nat × Nat)) : (State.afterReset p m n ctr ins lk).StatusInv :=
  ⟨⟨nofun, fun h => absurd rfl h⟩, nofun, nofun, by simp [State.afterReset]⟩

theorem reservedInv_afterReset (p : Config.Params) (m : Memory) (n ctr : Nat) (ins : List Input)
    (lk : List (Nat × Nat)) : (State.afterReset p m n ctr ins lk).ReservedInv :=
  ⟨by simp [State.afterReset], by simp [State.afterReset]⟩

/-- Whatever a reset abandons, it leaves the reset registers and some sample memory. -/
theorem exists_resetWith_of_resetEvent {s t : State} (h : resetEvent s = .next t) : ∃ m, t = s.resetWith m := by
  rcases resetEvent_cases h with ⟨-, ht⟩ | ⟨w, f, -, -, ht⟩
  · exact ⟨_, ht⟩
  · exact ⟨_, ht⟩

/-! STATUS and SEQ (10_state.md R26, R41). -/

theorem State.StatusInv.congr {s t : State} (h : s.StatusInv) (hstatus : t.status = s.status) (hseq : t.seq = s.seq) :
    t.StatusInv := by
  obtain ⟨hbusy, hdone, herr, hlegal⟩ := h
  constructor
  · rwa [hstatus, hseq]
  · rwa [hstatus]
  · rwa [hstatus]
  · rwa [hstatus]

theorem statusInv_completed {s t : State} (h : Completed s t) : t.StatusInv where
  busyIffRun := by simp [h.busy, h.seq]
  doneWhileBusy := by simp [h.busy]
  errWhileBusy := by simp [h.busy]
  errLegal := h.err

theorem statusInv_latch (s : State) (w : BitVec 32) (lk : List (Nat × Nat)) :
    ({ s.latch w with locked := lk } : State).StatusInv :=
  ⟨⟨fun _ => nofun, fun _ => rfl⟩, fun _ => rfl, fun _ => rfl, by simp⟩

theorem InputEffect.statusInv {s t : State} (h : InputEffect s t) (hs : s.StatusInv) : t.StatusInv := by
  cases h with
  | observe _ _ _ ht => subst ht; exact hs.congr rfl rfl
  | memWrite _ _ _ _ ht => subst ht; exact hs.congr rfl rfl
  | hostWrite r x _ ht =>
    subst ht
    by_cases hr : r = .cmd
    · subst hr; exact statusInv_latch s _ _
    · obtain ⟨hstatus, hseq⟩ := State.writeReg_status_seq s x hr
      exact hs.congr hstatus hseq
  | command _ _ ht => exact statusInv_completed (completed_runWord ht)
  | reset ht =>
    obtain ⟨m, rfl⟩ := exists_resetWith_of_resetEvent ht
    exact statusInv_afterReset _ _ _ _ _ _

/-! The reserved bits (10_state.md R27, R28, R43). -/

theorem State.ReservedInv.congr {s t : State} (h : s.ReservedInv) (hcfg : t.cfg = s.cfg) (hbase : t.base = s.base) :
    t.ReservedInv := by
  obtain ⟨hc, hb⟩ := h
  exact ⟨by rwa [hcfg], by rwa [hbase]⟩

theorem cfgStored_reserved (x : Word64) : cfgStored x &&& ~~~0x77#64 = 0#64 := by
  rw [cfgStored, BitVec.and_assoc]
  simp

theorem baseStored_aligned (x : Word64) : baseStored x &&& 0xF#64 = 0#64 := by
  rw [baseStored, BitVec.and_assoc]
  simp

theorem reservedInv_writeReg {s : State} (h : s.ReservedInv) (r : WindowReg) (x : Word64) :
    (s.writeReg r x).ReservedInv := by
  cases r with
  | cfg => exact ⟨cfgStored_reserved x, h.baseAligned⟩
  | base => exact ⟨h.cfgReserved, baseStored_aligned x⟩
  | cap | cmd | status | size | freq | phase | stepRe | stepIm | lane | reserved => exact h.congr rfl rfl

theorem InputEffect.reservedInv {s t : State} (h : InputEffect s t) (hs : s.ReservedInv) : t.ReservedInv := by
  cases h with
  | observe _ _ _ ht => subst ht; exact hs.congr rfl rfl
  | memWrite _ _ _ _ ht => subst ht; exact hs.congr rfl rfl
  | hostWrite r x _ ht => subst ht; exact reservedInv_writeReg hs r x
  | command _ _ ht =>
    have hc := completed_runWord ht
    exact hs.congr hc.cfg hc.base
  | reset ht =>
    obtain ⟨m, rfl⟩ := exists_resetWith_of_resetEvent ht
    exact reservedInv_afterReset _ _ _ _ _ _

/-! The build (10_state.md R44). -/

theorem InputEffect.params {s t : State} (h : InputEffect s t) : t.params = s.params := by
  cases h with
  | observe _ _ _ ht => rw [ht]
  | memWrite _ _ _ _ ht => rw [ht]
  | hostWrite r x _ ht => rw [ht, State.writeReg_params]
  | command _ _ ht => exact (completed_runWord ht).params
  | reset ht =>
    obtain ⟨m, rfl⟩ := exists_resetWith_of_resetEvent ht
    rfl

/-! The statements. -/

/-- Settles O55: by what one input can do. -/
theorem stepKeepsStatusAndSeqAgreeing : Obligations.StepKeepsStatusAndSeqAgreeing := by
  intro s t hs h
  obtain ⟨rest, he⟩ := inputEffect_step h
  exact he.statusInv (hs.congr rfl rfl)

/-- Settles O56: by what one input can do. -/
theorem stepKeepsReservedBitsZero : Obligations.StepKeepsReservedBitsZero := by
  intro s t hs h
  obtain ⟨rest, he⟩ := inputEffect_step h
  exact he.reservedInv (hs.congr rfl rfl)

/-- Settles O59: by what one input can do. -/
theorem noStepChangesTheBuild : Obligations.NoStepChangesTheBuild := by
  intro s t h
  obtain ⟨rest, he⟩ := inputEffect_step h
  exact he.params

/-- Settles O16: every reset gives the registers of `State.afterReset`. -/
theorem resetLeavesTheTable : Obligations.ResetLeavesTheTable := by
  refine ⟨atReset_afterReset _ _ _ _ _ _, fun s rest hs h => ?_, fun s t rest h ht => ?_⟩
  · exact ⟨_, (step_cons h).trans (resetEvent_idle hs), atReset_afterReset _ _ _ _ _ _, rfl, rfl, rfl⟩
  · obtain ⟨m, rfl⟩ := exists_resetWith_of_resetEvent ((step_cons h).symm.trans ht)
    exact ⟨atReset_afterReset _ _ _ _ _ _, rfl⟩

/-- Settles O58: the registers of `State.afterReset` and the laws of the power-up content. -/
theorem resetMeetsTheInvariants : Obligations.ResetMeetsTheInvariants :=
  ⟨statusInv_afterReset _ _ _ _ _ _, reservedInv_afterReset _ _ _ _ _ _,
    wf_powerUpMemory _, fun _ => inside_powerUpMemory⟩

end Sys2Proof.Machine
end

section
/-! PROOF. What SHIFT reads and which registers each kernel writes (10_state.md R35, R38, R47). -/

namespace Sys2Proof.Machine

/-- Two states a SHIFT cannot tell apart: the same build, arguments and sample memory (10_state.md R47). -/
structure SameArguments (s s' : State) : Prop where
  params : s'.params = s.params
  cfg : s'.cfg = s.cfg
  base : s'.base = s.base
  size : s'.size = s.size
  freq : s'.freq = s.freq
  phase : s'.phase = s.phase
  mem : s'.mem = s.mem

section
variable {s s' : State} (h : SameArguments s s')
include h

theorem SameArguments.fmtT : s'.fmtT = s.fmtT := by rw [State.fmtT, State.fmtT, h.cfg]

theorem SameArguments.fmtU : s'.fmtU = s.fmtU := by rw [State.fmtU, State.fmtU, h.cfg]

theorem SameArguments.unroll : s'.unroll = s.unroll := by rw [State.unroll, State.unroll, h.cfg]

theorem SameArguments.useVector : s'.useVector = s.useVector := by
  rw [State.useVector, State.useVector, State.gen, State.gen, h.cfg, h.params]

theorem SameArguments.arrayInMemory : s'.arrayInMemory = s.arrayInMemory := by
  simp only [State.arrayInMemory, State.inMemory, h.params, h.base, h.size, h.fmtT]

/-- The vector kernels of the two states differ in `V[6]` and `V[7]` only. -/
theorem SameArguments.vrun_agree (T : Fmt) : (vrun T s').Agree (vrun T s) := by
  have hstart : (vstart s').Agree (vstart s) := by constructor <;> simp only [vstart, h.freq, h.phase, h.mem]
  simp only [vrun, h.base, h.size, h.freq]
  exact (hstart.loop _ _ _ _ _).tail _ _ _

end

/-- The tones of a run, written over whatever the tone registers held. -/
theorem getElem_writeTones_congr (U : Fmt) {zs : List (Cx U)} (t t' : Vector ToneReg 8) {k : Fin 8}
    (hk : k.val < zs.length) : (writeTones U t 0 zs)[k] = (writeTones U t' 0 zs)[k] := by
  have h : 0 ≤ k.val ∧ k.val - 0 < zs.length := ⟨Nat.zero_le _, hk⟩
  rw [getElem_writeTones, getElem_writeTones, dif_pos h, dif_pos h]

theorem length_grun_tones (T U : Fmt) (base freq phase : Word64) (size n : Nat) (m : Memory) :
    (grun T U base freq phase size n m).tones.length = n := by
  rw [grun, length_gloop_tones]
  simp [initialTones]

/-- What a SHIFT in the vector kernel leaves is the same for both states. -/
theorem SameArguments.vshift_eq {s s' : State} (h : SameArguments s s') (T : Fmt) :
    (vshift T s').mem = (vshift T s).mem ∧ (vshift T s').idx = (vshift T s).idx ∧
      (vshift T s').step = (vshift T s).step ∧ (vshift T s').v[4] = (vshift T s).v[4] ∧
      (vshift T s').v[5] = (vshift T s).v[5] := by
  obtain ⟨h4, h5, hidx, hmem⟩ := h.vrun_agree T
  refine ⟨?_, ?_, ?_, ?_, ?_⟩ <;> simp [h4, h5, hidx, hmem, h.freq]

/-- What a SHIFT in the generic kernel leaves is the same for both states. -/
theorem SameArguments.gshift_eq {s s' : State} (h : SameArguments s s') :
    (gshift s').mem = (gshift s).mem ∧ (gshift s').idx = (gshift s).idx ∧ (gshift s').gstep = (gshift s).gstep ∧
      ∀ k : Fin 8, k.val < s.unroll → (gshift s').tone[k] = (gshift s).tone[k] := by
  refine ⟨?_, ?_, ?_, fun k hk => ?_⟩
  · rw [gshift_mem, gshift_mem, h.fmtT, h.fmtU, h.unroll, h.base, h.size, h.freq, h.phase, h.mem]
  · rw [gshift_idx, gshift_idx, h.fmtT, h.fmtU, h.unroll, h.base, h.size, h.freq, h.phase, h.mem]
  · rw [gshift_gstep, gshift_gstep, h.fmtU, h.unroll, h.freq]
  · rw [gshift_tone, gshift_tone, h.fmtT, h.fmtU, h.unroll, h.base, h.size, h.freq, h.phase, h.mem]
    exact getElem_writeTones_congr _ _ _ (by rwa [length_grun_tones])

/-- Settles O41: each kernel of the two states, from the same arguments. -/
theorem shiftUsesNothingLeftBehind : Obligations.ShiftUsesNothingLeftBehind := by
  intro s s' hparams hcfg hbase hsize hfreq hphase hmem hv ha
  have h : SameArguments s s' := ⟨hparams, hcfg, hbase, hsize, hfreq, hphase, hmem⟩
  have hrun : exec .shift s = .next (shiftResult s) := execShift_valid hv ha
  have hrun' : exec .shift s' = .next (shiftResult s') := execShift_valid (hfreq ▸ hv) (h.arrayInMemory.trans ha)
  refine ⟨_, _, hrun, hrun', ?_⟩
  cases hu : s.useVector with
  | true =>
    obtain ⟨hm, hi, hstep, h4, h5⟩ := h.vshift_eq s.fmtT
    rw [shiftResult_vector hu, shiftResult_vector (h.useVector.trans hu), h.fmtT]
    simp only [State.completeShift_mem, State.completeShift_idx, State.completeShift_status, State.completeShift_step,
      State.completeShift_v, Status.completed_eq, Status.withKvec_eq]
    exact ⟨hm, hi, trivial, fun _ => ⟨hstep, h4, h5⟩, nofun⟩
  | false =>
    obtain ⟨hm, hi, hgstep, htone⟩ := h.gshift_eq
    rw [shiftResult_generic hu, shiftResult_generic (h.useVector.trans hu)]
    simp only [State.completeShift_mem, State.completeShift_idx, State.completeShift_status, State.completeShift_gstep,
      State.completeShift_tone, Status.completed_eq, Status.withKvec_eq]
    exact ⟨hm, hi, trivial, nofun, fun _ => ⟨hgstep, htone⟩⟩

/-- Taking a fault leaves every register of both kernels. -/
theorem raise_keeps_registers (s : State) (e : Exc) (b : Bool) :
    (s.raise e b).v = s.v ∧ (s.raise e b).step = s.step ∧ (s.raise e b).tone = s.tone ∧
      (s.raise e b).gstep = s.gstep := by
  rw [State.raise_eq]
  exact ⟨rfl, rfl, rfl, rfl⟩

theorem vshift_keeps_low (s : State) (T : Fmt) {r : Fin 8} (hr : r.val < 4) : (vshift T s).v[r] = s.v[r] := by
  have h : ∀ q : Fin 8, 4 ≤ q.val → r ≠ q := fun q hq e => by subst e; omega
  rw [vshift_get, if_neg (h 4 (by decide)), if_neg (h 5 (by decide)), if_neg (h 6 (by decide)),
    if_neg (h 7 (by decide))]

theorem tgenBody_keeps_low (s : State) {r : Fin 8} (hr : r.val < 4) : (tgenBody s).v[r] = s.v[r] := by
  have h : ∀ q : Fin 8, 4 ≤ q.val → r ≠ q := fun q hq e => by subst e; omega
  show ((s.setV 4 _).setV 5 _).v[r] = s.v[r]
  rw [State.setV_ne _ _ (h 5 (by decide)), State.setV_ne _ _ (h 4 (by decide))]

theorem shiftResult_keeps_low (s : State) {r : Fin 8} (hr : r.val < 4) : (shiftResult s).v[r] = s.v[r] := by
  cases hu : s.useVector with
  | true => rw [shiftResult_vector hu]; exact vshift_keeps_low s _ hr
  | false => rw [shiftResult_generic hu]; rfl

/-- Settles O42: by everything SHIFT and TGEN can do. -/
theorem kernelsKeepEachOthersRegisters : Obligations.KernelsKeepEachOthersRegisters := by
  refine ⟨fun s t h hu => ?_, fun s t h hu => ?_, fun i s t hi h r hr => ?_⟩
  · rcases execShift_cases h with ⟨-, rfl⟩ | ⟨-, -, rfl⟩
    · obtain ⟨hv, hstep, -, -⟩ := raise_keeps_registers s .invalidFreq true
      exact ⟨hv, hstep⟩
    · rw [shiftResult_generic hu]; exact ⟨rfl, rfl⟩
  · rcases execShift_cases h with ⟨-, rfl⟩ | ⟨-, -, rfl⟩
    · obtain ⟨-, -, htone, hgstep⟩ := raise_keeps_registers s .invalidFreq true
      exact ⟨htone, hgstep⟩
    · rw [shiftResult_vector hu]; exact ⟨rfl, rfl⟩
  · rcases hi with rfl | rfl
    · rcases execShift_cases h with ⟨-, rfl⟩ | ⟨-, -, rfl⟩
      · rw [(raise_keeps_registers s _ _).1]
      · exact shiftResult_keeps_low s hr
    · have hne : Instr.tgen ≠ .shift := by decide
      rcases exec_cases hne h with ⟨e, rfl⟩ | ⟨hself, -⟩ | ⟨-, rfl⟩ | ⟨_, _, himp, -⟩
      · rw [(raise_keeps_registers s _ _).1]
      · exact absurd rfl hself
      · exact tgenBody_keeps_low s hr
      · cases himp

end Sys2Proof.Machine
end

section
/-! PROOF. Decoding the word of a command: a word selects one row at most, and so decodes to the command it encodes
(30_encoding.md R95, R96, R101). -/

namespace Sys2Proof

theorem Row.mem_all (r : Row) : r ∈ Row.all := by cases r <;> decide

/-- The patterns of two different rows differ in a bit that both masks cover. -/
theorem Row.eq_of_pattern_and_mask : ∀ r r' : Row, r.pattern &&& r'.mask = r'.pattern &&& r.mask → r = r' := by
  intro r r'
  cases r <;> cases r' <;> decide

theorem Row.eq_of_selects {r r' : Row} {w : BitVec 32} (h : r.selects w = true) (h' : r'.selects w = true) :
    r = r' := by
  rw [Row.selects, beq_iff_eq] at h h'
  apply Row.eq_of_pattern_and_mask
  rw [← h, ← h', BitVec.and_assoc, BitVec.and_assoc, BitVec.and_comm r.mask]

/-- A word that selects a row whose "needs" holds decodes to that row's command. -/
theorem decode_of_selects {hasVec : Bool} {w : BitVec 32} {r : Row} (h : r.selects w = true)
    (hneeds : (!r.needsVec || hasVec) = true) : decode hasVec w = .instr (r.instr w) := by
  have hfound : (Row.all.find? fun r => r.selects w && (!r.needsVec || hasVec)).isSome = true := by
    rw [List.find?_isSome]
    exact ⟨r, r.mem_all, by rw [h, hneeds]; rfl⟩
  obtain ⟨r', hr'⟩ := Option.isSome_iff_exists.1 hfound
  have hsel : r'.selects w = true := (Bool.and_eq_true _ _ ▸ List.find?_some hr').1
  obtain rfl := Row.eq_of_selects h hsel
  simp only [decode, hr']

theorem selects_encode {i : Instr} (h : WellFormed i) :
    (Laws.RowMatch.row i).selects (encode i) = true ∧ (Laws.RowMatch.row i).instr (encode i) = i := by
  cases i with
  | shift => exact Laws.RowMatch.shift h
  | tgen => exact Laws.RowMatch.tgen h
  | vnarrow rd ra rb => exact Laws.RowMatch.vnarrow rd ra rb h
  | vcmul4s rd ra => exact Laws.RowMatch.vcmul4s rd ra h
  | vcmul2d rd ra => exact Laws.RowMatch.vcmul2d rd ra h
  | vbcmul2d rd => exact Laws.RowMatch.vbcmul2d rd h
  | vld rd imm => exact Laws.RowMatch.vld rd imm h
  | vst rd imm => exact Laws.RowMatch.vst rd imm h

theorem decode_encode {hasVec : Bool} {i : Instr} (h : WellFormed i) (ha : i.available hasVec = true) :
    decode hasVec (encode i) = .instr i := by
  obtain ⟨hsel, hinstr⟩ := selects_encode h
  have hneeds : (Laws.RowMatch.row i).needsVec = i.needsVec := by rw [← Row.needsVec_instr _ (encode i), hinstr]
  rw [decode_of_selects hsel (by rw [hneeds]; exact ha), hinstr]

end Sys2Proof
end

section
/-! PROOF. Sample memory (20_memory.md): accesses from outside the engine, the ranges that a command closes, and which
bytes a command changes. -/

namespace Sys2Proof.Machine

/-! Every step keeps the canonical form (20_memory.md R61). -/

theorem State.MemoryInv.congr {s t : State} (h : s.MemoryInv) (hmem : t.mem = s.mem) (hparams : t.params = s.params) :
    t.MemoryInv := by
  obtain ⟨hcanonical, hinside⟩ := h
  exact ⟨by rwa [hmem], by rwa [hmem, hparams]⟩

theorem State.inMemory_one_iff (s : State) (a : Nat) : s.inMemory a 1 = true ↔ a < s.params.memBytes.val := by
  simp only [State.inMemory, decide_eq_true_eq, Nat.succ_le_iff]

@[simp] theorem State.writeReg_mem (s : State) (r : WindowReg) (x : Word64) : (s.writeReg r x).mem = s.mem := by
  cases r <;> rfl

theorem memoryInv_resetEvent {s t : State} (h : resetEvent s = .next t) (hs : s.MemoryInv) : t.MemoryInv := by
  rcases resetEvent_cases h with ⟨-, rfl⟩ | ⟨w, f, -, hrun, rfl⟩
  · exact memoryInv_resetWith hs.canonical hs.inside
  · obtain ⟨hcanonical, hinside⟩ := memoryInv_abandoned hrun hs
    exact memoryInv_resetWith hcanonical hinside

theorem InputEffect.memoryInv {s t : State} (h : InputEffect s t) (hs : s.MemoryInv) : t.MemoryInv := by
  cases h with
  | observe _ _ _ ht => subst ht; exact hs.congr rfl rfl
  | memWrite addr x hin _ ht =>
    subst ht
    exact ⟨Memory.wf_write hs.canonical _ _, Memory.inside_write hs.inside ((s.inMemory_one_iff _).1 hin)⟩
  | hostWrite r x _ ht => subst ht; exact hs.congr (s.writeReg_mem r x) (s.writeReg_params r x)
  | command _ _ ht => exact memoryInv_runWord ht hs
  | reset ht => exact memoryInv_resetEvent ht hs

/-- Settles O57: by what one input can do. -/
theorem stepKeepsMemoryCanonical : Obligations.StepKeepsMemoryCanonical := by
  intro s t hs h
  obtain ⟨rest, he⟩ := inputEffect_step h
  exact he.memoryInv (hs.congr rfl rfl)

/-! One byte accessed from outside the engine (20_memory.md R60, R76, R81). -/

@[simp] theorem State.inMemory_withInputs (s : State) (rest : List Input) (addr n : Nat) :
    ({ s with inputs := rest } : State).inMemory addr n = s.inMemory addr n := rfl

@[simp] theorem State.isLocked_withInputs (s : State) (rest : List Input) (a : Nat) :
    ({ s with inputs := rest } : State).isLocked a = s.isLocked a := rfl

section
variable {s : State} {a : Word64} {x : Byte} {rest : List Input}

theorem step_memWrite_closed (h : s.inputs = .memWrite a x :: rest) (hin : a.toNat < s.params.memBytes.val)
    (hlocked : s.isLocked a.toNat = true) : step s = .refused .concurrentAccess := by
  rw [step_cons h]
  simp [runInput, outsideWrite, (s.inMemory_one_iff _).2 hin, hlocked]

theorem step_memRead_closed (h : s.inputs = .memRead a :: rest) (hin : a.toNat < s.params.memBytes.val)
    (hlocked : s.isLocked a.toNat = true) : step s = .refused .concurrentAccess := by
  rw [step_cons h]
  simp [runInput, outsideRead, (s.inMemory_one_iff _).2 hin, hlocked]

theorem step_memWrite_open (h : s.inputs = .memWrite a x :: rest) (hin : a.toNat < s.params.memBytes.val)
    (hopen : s.isLocked a.toNat = false) : step s = .next { s with inputs := rest, mem := s.mem.write a.toNat x } := by
  rw [step_cons h]
  simp [runInput, outsideWrite, (s.inMemory_one_iff _).2 hin, hopen]

theorem step_memRead_open (h : s.inputs = .memRead a :: rest) (hin : a.toNat < s.params.memBytes.val)
    (hopen : s.isLocked a.toNat = false) :
    step s = .next (({ s with inputs := rest } : State).returns ((s.mem.read a.toNat).setWidth 64)) := by
  rw [step_cons h]
  simp [runInput, outsideRead, (s.inMemory_one_iff _).2 hin, hopen]

end

/-- Settles O15: the write and the read of an open byte, each as an equation. -/
theorem outsideWriteChangesOneByte : Obligations.OutsideWriteChangesOneByte := by
  intro s a x rest hwf hin hopen hinputs
  refine ⟨_, _, step_memWrite_open hinputs hin hopen, step_memRead_open rfl hin hopen, ?_,
    fun b hb => Memory.read_write_ne _ _ hb, rfl⟩
  rw [State.returns_hostData, Memory.read_write_eq hwf]

/-! The bytes that an issued command closes (20_memory.md R81; log 9). -/

theorem State.isLocked_issue (s : State) (w : BitVec 32) (a : Nat) : (s.issue w).isLocked a =
    (decide ((accessedBytes s w).1 ≤ a ∧ a < (accessedBytes s w).1 + (accessedBytes s w).2) || s.isLocked a) := by
  rw [State.isLocked, State.issue_locked, List.any_cons, State.isLocked]

theorem accessedBytes_shift {s : State} (hv : validFreq s.freq = true) :
    accessedBytes s 0x01000000#32 = (s.base.toNat, fmtEsz s.fmtT * s.size.toNat) := by
  have hd : decode s.params.hasVec 0x01000000#32 = .instr .shift := decode_encode (i := .shift) rfl rfl
  simp only [accessedBytes, hd, hv, if_true]

theorem accessedBytes_vector {s : State} {i : Instr} {rd : BitVec 4} {imm : BitVec 16}
    (hi : i = .vld rd imm ∨ i = .vst rd imm) (hv : s.params.hasVec = true) (hr : rd.toNat < 8) :
    accessedBytes s (encode i) = (s.base.toNat + 32 * imm.toNat, 32) := by
  have hd : decode s.params.hasVec (encode i) = .instr i := by
    rcases hi with rfl | rfl <;>
      exact decode_encode (decide_eq_true hr) (by simp [Instr.available, hv])
  rcases hi with rfl | rfl <;> simp only [accessedBytes, hd]

/-- After the issue of a command that accesses the n bytes from lo, an access to one of them is refused, and a write to
another byte that was open goes on. -/
theorem step_access_after_issue {s : State} {w : BitVec 32} {lo n : Nat} (hbytes : accessedBytes s w = (lo, n))
    {a : Word64} (hin : a.toNat < s.params.memBytes.val) (x : Byte) (rest : List Input) :
    ((lo ≤ a.toNat ∧ a.toNat < lo + n) →
      step { s.issue w with inputs := .memWrite a x :: rest } = .refused .concurrentAccess ∧
      step { s.issue w with inputs := .memRead a :: rest } = .refused .concurrentAccess) ∧
    ((a.toNat < lo ∨ lo + n ≤ a.toNat) → s.isLocked a.toNat = false →
      step { s.issue w with inputs := .memWrite a x :: rest } =
        .next { s.issue w with inputs := rest, mem := s.mem.write a.toNat x }) := by
  have hlocked : (s.issue w).isLocked a.toNat = (decide (lo ≤ a.toNat ∧ a.toNat < lo + n) || s.isLocked a.toNat) := by
    rw [State.isLocked_issue, hbytes]
  refine ⟨fun hinside => ?_, fun houtside hopen => ?_⟩
  · have hclosed : (s.issue w).isLocked a.toNat = true := by rw [hlocked, decide_eq_true hinside, Bool.true_or]
    exact ⟨step_memWrite_closed rfl hin hclosed, step_memRead_closed rfl hin hclosed⟩
  · have hopen' : (s.issue w).isLocked a.toNat = false := by
      rw [hlocked, hopen, Bool.or_false]
      exact decide_eq_false (by omega)
    exact step_memWrite_open rfl hin hopen'

/-- Settles O14: by the bytes that each command closes at its issue, and what leaves or empties the list of them. -/
theorem arrayIsClosedUntilCompletionIsRead : Obligations.ArrayIsClosedUntilCompletionIsRead := by
  refine ⟨?shift, ?vector, ?completion, ?statusRead, ?reset⟩
  case shift =>
    intro s a x rest hv hin
    exact step_access_after_issue (accessedBytes_shift hv) hin x rest
  case vector =>
    intro s i rd imm a x rest hi hv hr hin
    exact step_access_after_issue (accessedBytes_vector hi hv hr) hin x rest
  case completion =>
    intro i s t h
    exact (completed_exec h).locked
  case statusRead =>
    intro s rest hidle hinputs
    exact step_windowRead_idle hidle rfl hinputs (r := .status) rfl
  case reset =>
    intro s t rest hinputs h
    obtain ⟨m, rfl⟩ := exists_resetWith_of_resetEvent ((step_cons hinputs).symm.trans h)
    rfl

/-! When a command stops for its range (20_memory.md R72). -/

theorem execShift_fault_iff {s : State} (hv : validFreq s.freq = true) :
    execShift s = .fault .outsideSampleMemory ↔ s.arrayInMemory = false := by
  cases ha : s.arrayInMemory with
  | true => simp [execShift_valid hv ha]
  | false => simp [execShift, hv, ha]

/-- A command of the vector datapath that checks a range first stops exactly when the check fails. -/
theorem vectorCommand_checked_fault_iff {s t : State} {ok inRange : Bool} (hv : s.params.hasVec = true)
    (hr : ok = true) : vectorCommand ok s (if inRange then .next t else .fault .outsideSampleMemory) =
      .fault .outsideSampleMemory ↔ inRange = false := by
  rw [vectorCommand_run _ hv hr]
  cases inRange <;> simp

theorem exec_vld_fault_iff {s : State} {rd : BitVec 4} (imm : BitVec 16) (hv : s.params.hasVec = true)
    (hr : rd.toNat < 8) : exec (.vld rd imm) s = .fault .outsideSampleMemory ↔ s.vecInMemory imm = false :=
  vectorCommand_checked_fault_iff hv (decide_eq_true hr)

theorem exec_vst_fault_iff {s : State} {rd : BitVec 4} (imm : BitVec 16) (hv : s.params.hasVec = true)
    (hr : rd.toNat < 8) : exec (.vst rd imm) s = .fault .outsideSampleMemory ↔ s.vecInMemory imm = false :=
  vectorCommand_checked_fault_iff hv (decide_eq_true hr)

theorem arrayInMemory_eq_false_iff (s : State) : s.arrayInMemory = false ↔
    s.size ≠ 0#64 ∧ s.params.memBytes.val < s.base.toNat + fmtEsz s.fmtT * s.size.toNat := by
  rw [← Bool.not_eq_true, arrayInMemory_iff, not_or, Nat.not_le]

theorem vecInMemory_eq_false_iff (s : State) (imm : BitVec 16) : s.vecInMemory imm = false ↔
    s.params.memBytes.val < s.base.toNat + 32 * imm.toNat + 32 := by
  rw [← Bool.not_eq_true, vecInMemory_iff, Nat.not_le]

/-- Settles O22: each command stops exactly where its range check fails. -/
theorem rangeStopsExactly : Obligations.RangeStopsExactly := by
  refine ⟨fun s hv => ?_, fun s rd imm hv hr => ⟨?_, ?_⟩⟩
  · exact (execShift_fault_iff hv).trans (arrayInMemory_eq_false_iff s)
  · exact (exec_vld_fault_iff imm hv hr).trans (vecInMemory_eq_false_iff s imm)
  · exact (exec_vst_fault_iff imm hv hr).trans (vecInMemory_eq_false_iff s imm)

/-! Which bytes a command changes (20_memory.md R69, R77, R82). -/

@[simp] theorem State.raise_mem (s : State) (e : Exc) (isShift : Bool) : (s.raise e isShift).mem = s.mem := by
  rw [State.raise_eq]

/-- Settles O40: a SHIFT by its kernels' law, every other command by its cases. -/
theorem noByteOutsideTheArrayChanges : Obligations.NoByteOutsideTheArrayChanges := by
  refine ⟨fun s t h a ha => ?_, fun i s t hi hvst h => ?_⟩
  · rcases execShift_cases h with ⟨-, rfl⟩ | ⟨-, harray, rfl⟩
    · rw [State.raise_mem]
    · exact read_shiftResult_outside harray ha
  · rcases exec_cases hi h with ⟨e, rfl⟩ | ⟨-, -, d, x, rfl⟩ | ⟨-, rfl⟩ | ⟨rd, imm, rfl, -, -⟩
    · exact s.raise_mem e false
    · rw [State.complete_mem, State.setV_mem]
    · rw [State.complete_mem, tgenBody_mem]
    · exact absurd rfl (hvst rd imm)

theorem shiftResult_err (s : State) : (shiftResult s).status.err = 0#2 := by
  cases hu : s.useVector with
  | true => rw [shiftResult_vector hu]; rfl
  | false => rw [shiftResult_generic hu]; rfl

theorem exec_tgen_invalid {s : State} (hv : s.params.hasVec = true) (hf : validFreq s.freq = false) :
    exec .tgen s = .next (s.raise .invalidFreq false) := by
  show execTgen s = _
  rw [execTgen, vectorCommand_run _ hv rfl, hf]
  rfl

/-- Settles O19: a SHIFT with a result has ERR = 0, so one that fails took the fault, which writes STATUS only. -/
theorem invalidFrequencyWritesStatusOnly : Obligations.InvalidFrequencyWritesStatusOnly := by
  refine ⟨fun s t h herr => ?_, fun s hf => ⟨?_, fun hv => ?_⟩⟩
  · rcases execShift_cases h with ⟨-, rfl⟩ | ⟨-, -, rfl⟩
    · exact s.raise_mem _ _
    · exact absurd (shiftResult_err s) herr
  · exact (execShift_invalid hf).trans (by rw [State.raise_eq]; rfl)
  · exact (exec_tgen_invalid hv hf).trans (by rw [State.raise_eq]; rfl)

end Sys2Proof.Machine
end

section
/-! PROOF. Which words decode, and to what (30_encoding.md R96, R98, R101): a word selects a row exactly when it has the
row's OP, its must-be-zero field is zero and its register fields name registers. -/

namespace Sys2Proof

/-- Settles O1: two rows that one word selects are the same row. -/
theorem wordSelectsAtMostOneRow : Obligations.WordSelectsAtMostOneRow :=
  fun _ _ _ h h' => Row.eq_of_selects h h'

/-- Settles O2: the word of a well-formed command selects the command's row and no other. -/
theorem decodeOfEncode : Obligations.DecodeOfEncode :=
  fun _ _ h ha => decode_encode h ha

/-! A word is the concatenation of its format's fields (30_encoding.md R91, R92). -/

theorem opField_append_rdField (w : BitVec 32) : opField w ++ rdField w = w.extractLsb' 20 12 :=
  BitVec.extractLsb'_append_extractLsb'_eq_extractLsb' rfl

theorem opField_rdField_append_raField (w : BitVec 32) : opField w ++ rdField w ++ raField w = w.extractLsb' 16 16 := by
  rw [opField_append_rdField]
  exact BitVec.extractLsb'_append_extractLsb'_eq_extractLsb' rfl

theorem opField_rdField_raField_append_rbField (w : BitVec 32) :
    opField w ++ rdField w ++ raField w ++ rbField w = w.extractLsb' 12 20 := by
  rw [opField_rdField_append_raField]
  exact BitVec.extractLsb'_append_extractLsb'_eq_extractLsb' rfl

/-- A word is its upper n bits before its lower m. -/
theorem upper_append_lower (n m : Nat) (w : BitVec (n + m)) : w.extractLsb' m n ++ w.extractLsb' 0 m = w :=
  (BitVec.extractLsb'_append_extractLsb'_eq_extractLsb' (Nat.zero_add m).symm).trans BitVec.extractLsb'_eq_self

section
variable {w : BitVec 32} {op : BitVec 8}

theorem word_of_formatZ (hop : opField w = op) (hzero : w.extractLsb' 0 24 = 0#24) : op ++ 0#24 = w := by
  rw [← hop, ← hzero]
  exact upper_append_lower 8 24 w

theorem word_of_formatV3 (hop : opField w = op) (hzero : w.extractLsb' 0 12 = 0#12) :
    op ++ rdField w ++ raField w ++ rbField w ++ 0#12 = w := by
  rw [← hop, ← hzero, opField_rdField_raField_append_rbField]
  exact upper_append_lower 20 12 w

theorem word_of_formatV2 (hop : opField w = op) (hzero : w.extractLsb' 0 16 = 0#16) :
    op ++ rdField w ++ raField w ++ 0#16 = w := by
  rw [← hop, ← hzero, opField_rdField_append_raField]
  exact upper_append_lower 16 16 w

theorem word_of_formatV1 (hop : opField w = op) (hzero : w.extractLsb' 0 20 = 0#20) : op ++ rdField w ++ 0#20 = w := by
  rw [← hop, ← hzero, opField_append_rdField]
  exact upper_append_lower 12 20 w

theorem word_of_formatM (hop : opField w = op) (hzero : w.extractLsb' 16 4 = 0#4) :
    op ++ rdField w ++ 0#4 ++ immField w = w := by
  rw [← hop, ← hzero]
  exact (congrArg (· ++ immField w) (opField_rdField_append_raField w)).trans (upper_append_lower 16 16 w)

end

/-- The place of a row's must-be-zero field, as its lowest bit and its length (30_encoding.md R91). -/
def Row.zeroPlace : Row → Nat × Nat
  | .shift | .tgen => (0, 24)
  | .vnarrow => (0, 12)
  | .vcmul4s | .vcmul2d => (0, 16)
  | .vbcmul2d => (0, 20)
  | .vld | .vst => (16, 4)

/-- The word's must-be-zero field under the row's format. -/
def Row.zeroField (r : Row) (w : BitVec 32) : BitVec r.zeroPlace.2 := w.extractLsb' r.zeroPlace.1 r.zeroPlace.2

/-- A word with a row's OP and zero in its must-be-zero field is the word of the row's command. -/
theorem Row.encode_instr {r : Row} {w : BitVec 32} (hop : opField w = opField r.pattern) (hzero : r.zeroField w = 0) :
    encode (r.instr w) = w := by
  cases r with
  | shift => exact word_of_formatZ hop hzero
  | tgen => exact word_of_formatZ hop hzero
  | vnarrow => exact word_of_formatV3 hop hzero
  | vcmul4s => exact word_of_formatV2 hop hzero
  | vcmul2d => exact word_of_formatV2 hop hzero
  | vbcmul2d => exact word_of_formatV1 hop hzero
  | vld => exact word_of_formatM hop hzero
  | vst => exact word_of_formatM hop hzero

/-! Which words select a row. -/

/-- A field that the mask covers is the pattern's in every word that selects the row. -/
theorem Row.extract_of_selects {r : Row} {w : BitVec 32} (h : r.selects w = true) {lo n : Nat}
    (hm : r.mask.extractLsb' lo n = BitVec.allOnes n) : w.extractLsb' lo n = r.pattern.extractLsb' lo n := by
  rw [Row.selects, beq_iff_eq] at h
  rw [← h, BitVec.extractLsb'_and, hm, BitVec.and_allOnes]

theorem Row.opField_of_selects {r : Row} {w : BitVec 32} (h : r.selects w = true) :
    opField w = opField r.pattern :=
  Row.extract_of_selects h (by cases r <;> rfl)

theorem Row.zeroField_of_selects {r : Row} {w : BitVec 32} (h : r.selects w = true) : r.zeroField w = 0 :=
  (Row.extract_of_selects h (by cases r <;> rfl)).trans (by cases r <;> rfl)

theorem Row.encode_instr_of_selects {r : Row} {w : BitVec 32} (h : r.selects w = true) : encode (r.instr w) = w :=
  Row.encode_instr (Row.opField_of_selects h) (Row.zeroField_of_selects h)

/-- A word selects a row by its OP, unless one of the two causes of 30_encoding.md R98 that name fields holds. -/
theorem Row.selects_iff (r : Row) (w : BitVec 32) :
    r.selects w = true ↔ opField w = opField r.pattern ∧ r.zeroField w = 0 ∧ WellFormed (r.instr w) := by
  constructor
  · exact fun h => ⟨Row.opField_of_selects h, Row.zeroField_of_selects h, Row.wellFormed_of_selects h⟩
  · rintro ⟨hop, hzero, hwf⟩
    have hsel := (selects_encode hwf).1
    have hrow : Laws.RowMatch.row (r.instr w) = r := by cases r <;> rfl
    rwa [Row.encode_instr hop hzero, hrow] at hsel

/-- Settles O3: the word selects the row of its command, and the selected row's command encodes to the word. -/
theorem encodeOfDecode : Obligations.EncodeOfDecode := by
  intro hasVec w i h
  refine ⟨?_, wellFormed_of_decode h, available_of_decode h⟩
  obtain ⟨r, hsel, -, rfl⟩ := decode_cases h
  exact Row.encode_instr_of_selects hsel

/-! Which words are illegal (30_encoding.md R98). -/

theorem Row.opField_pattern_injective : ∀ r r' : Row, opField r.pattern = opField r'.pattern → r = r' := by
  intro r r'
  cases r <;> cases r' <;> decide

/-- A word is illegal exactly when no row that it selects is in the build. -/
theorem decode_illegal_iff {hasVec : Bool} {w : BitVec 32} : (∃ why, decode hasVec w = .illegal why) ↔
    ∀ r : Row, r.selects w = true → (!r.needsVec || hasVec) = false := by
  constructor
  · rintro ⟨why, h⟩ r hsel
    by_contra hneeds
    rw [Bool.not_eq_false] at hneeds
    rw [decode_of_selects hsel hneeds] at h
    cases h
  · intro h
    cases hd : decode hasVec w with
    | illegal why => exact ⟨why, rfl⟩
    | instr i =>
      obtain ⟨r, hsel, hneeds, -⟩ := decode_cases hd
      rw [h r hsel] at hneeds
      cases hneeds

/-- A word whose OP is no row's is illegal. -/
theorem decode_illegal_of_unassigned (hasVec : Bool) {w : BitVec 32} (h : ∀ r : Row, opField w ≠ opField r.pattern) :
    ∃ why, decode hasVec w = .illegal why :=
  decode_illegal_iff.2 fun r hsel => absurd (Row.opField_of_selects hsel) (h r)

/-- A word with a row's OP is illegal exactly by one of the three other causes. -/
theorem decode_illegal_iff_of_opField {hasVec : Bool} {w : BitVec 32} {r : Row} (hop : opField w = opField r.pattern) :
    (∃ why, decode hasVec w = .illegal why) ↔
      r.zeroField w ≠ 0 ∨ ¬ WellFormed (r.instr w) ∨ (r.needsVec = true ∧ hasVec = false) := by
  have honly : (∃ why, decode hasVec w = .illegal why) ↔ (r.selects w = true → (!r.needsVec || hasVec) = false) := by
    rw [decode_illegal_iff]
    refine ⟨fun h => h r, fun h r' hsel => ?_⟩
    obtain rfl : r' = r := Row.opField_pattern_injective _ _ ((Row.opField_of_selects hsel).symm.trans hop)
    exact h hsel
  rw [honly, Row.selects_iff]
  simp only [hop, true_and, Bool.or_eq_false_iff, Bool.not_eq_false']
  tauto

theorem opField_mem_iff (w : BitVec 32) :
    opField w ∈ [0x01#8, 0x02#8, 0x10#8, 0x11#8, 0x12#8, 0x13#8, 0x20#8, 0x21#8] ↔
      ∃ r : Row, opField w = opField r.pattern := by
  have hops : [0x01#8, 0x02#8, 0x10#8, 0x11#8, 0x12#8, 0x13#8, 0x20#8, 0x21#8] =
      Row.all.map fun r => opField r.pattern := rfl
  rw [hops, List.mem_map]
  exact ⟨fun ⟨r, _, h⟩ => ⟨r, h.symm⟩, fun ⟨r, h⟩ => ⟨r, r.mem_all, h.symm⟩⟩

/-- The causes of 30_encoding.md R98 that look at an assigned OP: a must-be-zero field, a register number, HAS_VEC. -/
def illegalByFields (hasVec : Bool) (w : BitVec 32) (op : BitVec 8) : Prop :=
  (op ∈ [0x01#8, 0x02#8] ∧ w.extractLsb' 0 24 ≠ 0#24)
    ∨ (op = 0x10#8 ∧ w.extractLsb' 0 12 ≠ 0#12)
    ∨ (op ∈ [0x11#8, 0x12#8] ∧ w.extractLsb' 0 16 ≠ 0#16)
    ∨ (op = 0x13#8 ∧ w.extractLsb' 0 20 ≠ 0#20)
    ∨ (op ∈ [0x20#8, 0x21#8] ∧ w.extractLsb' 16 4 ≠ 0#4)
    ∨ (op ∈ [0x10#8, 0x11#8, 0x12#8, 0x13#8, 0x20#8, 0x21#8] ∧ 8 ≤ (rdField w).toNat)
    ∨ (op ∈ [0x10#8, 0x11#8, 0x12#8] ∧ 8 ≤ (raField w).toNat)
    ∨ (op = 0x10#8 ∧ 8 ≤ (rbField w).toNat)
    ∨ (hasVec = false ∧ op ≠ 0x01#8)

/-- Under an assigned OP the causes are those of the OP's row. -/
theorem illegalByFields_opcode (hasVec : Bool) (w : BitVec 32) (r : Row) :
    illegalByFields hasVec w (opField r.pattern) ↔
      r.zeroField w ≠ 0 ∨ ¬ WellFormed (r.instr w) ∨ (r.needsVec = true ∧ hasVec = false) := by
  cases r <;>
    simp [illegalByFields, opField, Row.pattern, Row.zeroField, Row.zeroPlace, Row.instr, WellFormed,
      Instr.wellFormed, Row.needsVec, or_assoc, imp_iff_not_or]

/-- 30_encoding.md R98: the OP is unassigned, or one of the other causes holds. -/
theorem decode_illegal_iff_causes (hasVec : Bool) (w : BitVec 32) : (∃ why, decode hasVec w = .illegal why) ↔
    opField w ∉ [0x01#8, 0x02#8, 0x10#8, 0x11#8, 0x12#8, 0x13#8, 0x20#8, 0x21#8] ∨
      illegalByFields hasVec w (opField w) := by
  by_cases hop : ∃ r : Row, opField w = opField r.pattern
  · have hassigned := (opField_mem_iff w).2 hop
    obtain ⟨r, hr⟩ := hop
    rw [decode_illegal_iff_of_opField hr, hr, illegalByFields_opcode, ← hr, or_iff_right (not_not.2 hassigned)]
  · have hill := decode_illegal_of_unassigned hasVec fun r hr => hop ⟨r, hr⟩
    exact iff_of_true hill (.inl (mt (opField_mem_iff w).1 hop))

end Sys2Proof

namespace Sys2Proof.Machine

/-- Settles O6: with no pending input, or with the engine's turn as the oldest, the step is the engine's turn, which runs
the latched word. -/
theorem stepRunsTheDecodedCommand : Obligations.StepRunsTheDecodedCommand := by
  refine fun s w i hseq hdec => ⟨fun hin => ?_, fun rest hin => ?_⟩
  · rw [step_nil hin, engineTurn_run hseq, runWord_instr hdec]
  · rw [step_cons hin]
    exact (engineTurn_run (s := { s with inputs := rest }) hseq).trans (runWord_instr hdec)

/-- Settles O4: the causes of R98 are those for which a word selects no row of the build; 0x00 and 0xFF are no row's OP;
ILLEGAL_CMD writes STATUS and SEQ only. -/
theorem illegalWordsExactly : Obligations.IllegalWordsExactly := by
  refine ⟨decode_illegal_iff_causes, fun hasVec => ⟨?_, ?_⟩, fun s w why h => ?_⟩
  · exact decode_illegal_of_unassigned hasVec fun r => by cases r <;> decide
  · exact decode_illegal_of_unassigned hasVec fun r => by cases r <;> decide
  · rw [runWord_illegal h, State.raise_eq]
    rfl

/-- Settles O5: each word is the encoding of its command. -/
theorem wordsOfTheSpecDecode : Obligations.WordsOfTheSpecDecode :=
  ⟨decode_encode (i := .shift) rfl rfl, decode_encode (i := .tgen) rfl rfl,
    decode_encode (i := .vnarrow 6 4 5) rfl rfl, decode_encode (i := .vcmul4s 7 6) rfl rfl,
    decode_encode (i := .vcmul2d 7 4) rfl rfl, decode_encode (i := .vbcmul2d 5) rfl rfl,
    decode_encode (i := .vld 7 1) rfl rfl, decode_encode (i := .vst 7 127) rfl rfl⟩

end Sys2Proof.Machine
end

section
/-! PROOF. The numerics of 40_numerics.md: the rounding as the nearest magnitude (R122, R124), the arithmetic and the
conversions as one rounding of the exact result with the special values (R124, R127, R128), the product with the unit
tone (R142) and the valid frequencies (R136). -/

namespace Sys2Proof.Machine

/-! Rounding to nearest, ties to even (R124). -/

/-- A larger magnitude has a larger value, in 2^−q units. -/
theorem scaledUnits_lt {f : Fmt} {x y : Nat} (q : Nat) (h : x < y) :
    2 ^ q * fpUnitsOf f x < 2 ^ q * fpUnitsOf f y :=
  Nat.mul_lt_mul_of_pos_left (fpUnitsOf_lt_iff.2 h) (Nat.two_pow_pos q)

/-- Settles O47: the magnitudes around the rounded one lie a grid spacing above it and, where it exceeds the exact value,
a spacing below it; past the format's end the exact value exceeds the infinity's, which is the nearest. -/
theorem roundingIsNearestTiesToEven : Obligations.RoundingIsNearestTiesToEven := by
  refine fun f m q => ⟨fpRound_le f m q, fun y hy hne => ?_⟩
  obtain ⟨D, V, hV, hlo, hhi, -, htie, hup, hdown, -, -⟩ := fpRoundRaw_spec f m q
  have hcast : ∀ x : Nat, (2 ^ q * fpUnitsOf f x : Int) = ((2 ^ q * fpUnitsOf f x : Nat) : Int) := fun x => by
    push_cast; rfl
  rw [hcast, hcast]
  rw [fpRound_eq_min] at hne ⊢
  rcases le_or_gt (fpRoundRaw f m q) (fmtInfMag f) with hr | hr
  · rw [Nat.min_eq_right hr] at hne ⊢
    rw [← hV]
    rcases Nat.lt_or_gt_of_ne hne with hlt | hgt
    · have hY := scaledUnits_lt (f := f) q hlt
      have := hdown y hlt
      omega
    · have hY : 2 ^ q * fpUnitsOf f (fpRoundRaw f m q + 1) ≤ 2 ^ q * fpUnitsOf f y :=
        Nat.mul_le_mul_left _ (fpUnitsOf_le_iff.2 hgt)
      omega
  · rw [Nat.min_eq_left hr.le] at hne ⊢
    have hY := scaledUnits_lt (f := f) q (show y < fmtInfMag f by omega)
    have hI := scaledUnits_lt (f := f) q hr
    have := hdown _ hr
    omega

/-- From the middle of the largest finite value and the format's end up, a magnitude rounds to infinity. -/
theorem fpRound_eq_fmtInfMag {f : Fmt} {m q : Nat}
    (h : 2 ^ q * (fpUnitsOf f (fmtInfMag f - 1) + fpUnitsOf f (fmtInfMag f)) ≤ 2 * m) : fpRound f m q = fmtInfMag f := by
  obtain ⟨hle, hnear⟩ := roundingIsNearestTiesToEven f m q
  by_contra hne
  have hodd : (fmtInfMag f - 1) % 2 = 1 := by cases f <;> rfl
  have hend := scaledUnits_lt (f := f) q (show fmtInfMag f - 1 < fmtInfMag f by omega)
  have := hnear (fmtInfMag f) le_rfl (Ne.symm hne)
  rw [Nat.mul_add] at h
  by_cases hlast : fpRound f m q = fmtInfMag f - 1
  · rw [hlast] at this
    zify at h hend
    omega
  · have hlt := scaledUnits_lt (f := f) q (show fpRound f m q < fmtInfMag f - 1 by omega)
    zify at h hend hlt
    omega

/-- Up to half of the smallest value of the format, a magnitude rounds to zero. -/
theorem fpRound_eq_zero {f : Fmt} {m q : Nat} (h : 2 * m ≤ 2 ^ q) : fpRound f m q = 0 := by
  obtain ⟨-, hnear⟩ := roundingIsNearestTiesToEven f m q
  by_contra hne
  have hone : fpUnitsOf f 1 = 1 := by cases f <;> rfl
  have hpos := Nat.two_pow_pos q
  have := hnear 0 (Nat.zero_le _) (Ne.symm hne)
  rw [fpUnitsOf_zero] at this
  by_cases hfirst : fpRound f m q = 1
  · rw [hfirst, hone] at this
    zify at h hpos
    omega
  · have hlt := scaledUnits_lt (f := f) q (show 1 < fpRound f m q by omega)
    rw [hone, Nat.mul_one] at hlt
    zify at h hlt hpos
    omega

/-! Sums, differences and products of finite patterns (R124). -/

theorem fpMag_fpOfInt {f : Fmt} (z : Bool) (n : Int) : fpMag (fpOfInt f z n) = fpRound f n.natAbs 0 := by
  rw [fpOfInt]
  split
  next h => subst h; rw [fpMag_fpPack (Nat.two_pow_pos _), Int.natAbs_zero, fpRound_zero]
  next => exact fpMag_fpPack (fpRound_lt _ _ _)

theorem fpNeg_fpOfInt {f : Fmt} (z : Bool) {n : Int} (h : n ≠ 0) : fpNeg (fpOfInt f z n) = decide (n < 0) := by
  rw [fpOfInt, if_neg h, fpNeg_fpPack (fpRound_lt _ _ _)]

/-- Settles O48: each operation on finite patterns is one rounding of the exact result, and the rounding is to nearest. -/
theorem arithmeticIsCorrectlyRounded : Obligations.ArithmeticIsCorrectlyRounded := by
  have hround := roundingIsNearestTiesToEven
  refine ⟨fun f a b ha hb => ?_, fun a ha => ?_⟩
  · rw [fadd_finite ha hb, fsub_finite ha hb, fmul_finite ha hb, fpMag_fpOfInt, fpMag_fpOfInt,
      fpNeg_fpPack (fpRound_lt _ _ _), fpMag_fpPack (fpRound_lt _ _ _)]
    exact ⟨fpNeg_fpOfInt _, hround f _ 0, fpNeg_fpOfInt _, hround f _ 0, rfl, hround f _ _⟩
  · rw [cvt6432_finite ha, fpNeg_fpPack (fpRound_lt _ _ _), fpMag_fpPack (fpRound_lt _ _ _)]
    exact ⟨rfl, hround .f32 _ 925⟩

/-! Zeros, infinities and NaNs (R122, R124). -/

theorem fpInt_of_fpMag_eq_zero {f : Fmt} {a : Fp f} (h : fpMag a = 0) : fpInt a = 0 := by
  rw [← Int.natAbs_eq_zero, natAbs_fpInt, fpUnits, h, fpUnitsOf_zero]

theorem fpInt_fpPack_zero {f : Fmt} (n : Bool) : fpInt (fpPack f n 0) = 0 :=
  fpInt_of_fpMag_eq_zero (fpMag_fpPack (Nat.two_pow_pos _))

theorem fpIsInf_iff {f : Fmt} {a : Fp f} : fpIsInf a = true ↔ fpMag a = fmtInfMag f := decide_eq_true_iff

theorem fpIsNaN_iff {f : Fmt} {a : Fp f} : fpIsNaN a = true ↔ fmtInfMag f < fpMag a := decide_eq_true_iff

theorem fpIsNaN_fneg {f : Fmt} (b : Fp f) : fpIsNaN (fneg b) = fpIsNaN b := by rw [fpIsNaN, fpMag_fneg, fpIsNaN]

theorem fpIsInf_fneg {f : Fmt} (b : Fp f) : fpIsInf (fneg b) = fpIsInf b := by rw [fpIsInf, fpMag_fneg, fpIsInf]

/-- An infinity is the infinity of its sign. -/
theorem eq_fpPack_of_fpIsInf {f : Fmt} {a : Fp f} (h : fpIsInf a = true) : a = fpPack f (fpNeg a) (fmtInfMag f) := by
  rw [← fpIsInf_iff.1 h, fpPack_self]

/-- Changing the sign is changing the sign bit. -/
theorem fneg_eq_xor {f : Fmt} (b : Fp f) : fneg b = b ^^^ BitVec.ofNat f.width (2 ^ (f.width - 1)) := by
  have hmsb : (BitVec.ofNat f.width (2 ^ (f.width - 1))).msb = true := by cases f <;> rfl
  have hmag : (BitVec.ofNat f.width (2 ^ (f.width - 1))).toNat % 2 ^ (f.width - 1) = 0 := by cases f <;> rfl
  apply fp_ext
  · rw [fpNeg_fneg, fpNeg, fpNeg, BitVec.msb_xor, hmsb, Bool.xor_true]
  · rw [fpMag_fneg, fpMag, fpMag, BitVec.toNat_xor, Nat.xor_mod_two_pow, hmag, Nat.xor_zero]

theorem fadd_nan {f : Fmt} {a b : Fp f} (h : fpIsNaN a = true ∨ fpIsNaN b = true) : fadd a b = qnan f := by
  rw [fadd, if_pos (by simpa using h)]

theorem fmul_nan {f : Fmt} {a b : Fp f} (h : fpIsNaN a = true ∨ fpIsNaN b = true) : fmul a b = qnan f := by
  rw [fmul, if_pos (by simpa using h)]

theorem fsub_nan {f : Fmt} {a b : Fp f} (h : fpIsNaN a = true ∨ fpIsNaN b = true) : fsub a b = qnan f :=
  fadd_nan (by rwa [fpIsNaN_fneg])

theorem fpIsNaN_of_fpIsInf {f : Fmt} {a : Fp f} (h : fpIsInf a = true) : fpIsNaN a = false :=
  fpIsNaN_eq_false (fpIsInf_iff.1 h).le

theorem fpIsZero_of_fpIsInf {f : Fmt} {a : Fp f} (h : fpIsInf a = true) : fpIsZero a = false := by
  rw [fpIsZero, fpIsInf_iff.1 h]
  cases f <;> rfl

theorem fadd_inf_inf {f : Fmt} {a b : Fp f} (ha : fpIsInf a = true) (hb : fpIsInf b = true) :
    fadd a b = if fpNeg a = fpNeg b then a else qnan f := by
  simp [fadd, ha, hb, fpIsNaN_of_fpIsInf]

theorem fmul_inf_inf {f : Fmt} {a b : Fp f} (ha : fpIsInf a = true) (hb : fpIsInf b = true) :
    fmul a b = fpPack f (fpNeg a ^^ fpNeg b) (fmtInfMag f) := by
  simp [fmul, ha, hb, fpIsNaN_of_fpIsInf, fpIsZero_of_fpIsInf]

theorem fadd_inf_finite {f : Fmt} {a b : Fp f} (ha : fpIsInf a = true) (hb : fpMag b < fmtInfMag f) : fadd a b = a := by
  simp [fadd, ha, fpIsNaN_of_fpIsInf ha, (finite_iff.1 hb).1, (finite_iff.1 hb).2]

theorem fmul_inf_finite {f : Fmt} {a b : Fp f} (ha : fpIsInf a = true) (hb : fpMag b < fmtInfMag f) :
    fmul a b = if fpIsZero b then qnan f else fpPack f (fpNeg a ^^ fpNeg b) (fmtInfMag f) := by
  simp [fmul, ha, fpIsZero_of_fpIsInf ha, fpIsNaN_of_fpIsInf ha, (finite_iff.1 hb).1]

theorem fsub_finite_inf {f : Fmt} {a b : Fp f} (ha : fpIsInf a = true) (hb : fpMag b < fmtInfMag f) :
    fsub b a = fpPack f (!fpNeg a) (fmtInfMag f) := by
  rw [fsub, fadd_comm, fadd_inf_finite (by rwa [fpIsInf_fneg]) hb, fneg, fpIsInf_iff.1 ha]

/-- A product with a zero is a zero. -/
theorem fmul_zero_finite {f : Fmt} {a b : Fp f} (ha : fpMag a = 0) (hb : fpMag b < fmtInfMag f) :
    fmul a b = fpPack f (fpNeg a ^^ fpNeg b) 0 := by
  rw [fmul_finite (by omega) hb, fpUnits, ha, fpUnitsOf_zero, Nat.zero_mul, fpRound_zero]

/-- A word without its first bit is the rest of the word. -/
theorem toNat_append_mod {k m n : Nat} (s : BitVec 1) (e : BitVec k) (y : BitVec m) (p : BitVec n) :
    (s ++ e ++ y ++ p).toNat % 2 ^ (k + m + n) = (e ++ y ++ p).toNat := by
  have h : (s ++ e ++ y ++ p).toNat = s.toNat * 2 ^ (k + m + n) + (e ++ y ++ p).toNat := by
    simp only [toNat_append]; ring
  rw [h, Nat.mul_add_mod', Nat.mod_eq_of_lt (e ++ y ++ p).isLt]

/-- A pattern with the quiet bit set lies at least that bit beyond the infinity. -/
theorem quiet_le_fpMag32 (s : BitVec 1) (p : BitVec 22) :
    fmtInfMag .f32 + 2 ^ 22 ≤ fpMag (f := .f32) (s ++ 0xFF#8 ++ 1#1 ++ p) := by
  have hmag : fpMag (f := .f32) (s ++ 0xFF#8 ++ 1#1 ++ p) = fmtInfMag .f32 + 2 ^ 22 + p.toNat :=
    (toNat_append_mod s 0xFF#8 1#1 p).trans (toNat_append (0xFF#8 ++ 1#1) p)
  exact hmag ▸ Nat.le_add_right _ _

theorem quiet_le_fpMag64 (s : BitVec 1) (p : BitVec 51) :
    fmtInfMag .f64 + 2 ^ 51 ≤ fpMag (f := .f64) (s ++ 0x7FF#11 ++ 1#1 ++ p) := by
  have hmag : fpMag (f := .f64) (s ++ 0x7FF#11 ++ 1#1 ++ p) = fmtInfMag .f64 + 2 ^ 51 + p.toNat :=
    (toNat_append_mod s 0x7FF#11 1#1 p).trans (toNat_append (0x7FF#11 ++ 1#1) p)
  exact hmag ▸ Nat.le_add_right _ _

/-- The NaN of a format is quiet (R122), whatever its open sign and fraction are. -/
theorem quiet_le_fpMag_qnan : (f : Fmt) → fmtInfMag f + 2 ^ (fmtFrac f - 1) ≤ fpMag (qnan f)
  | .f32 => quiet_le_fpMag32 _ _
  | .f64 => quiet_le_fpMag64 _ _

/-- Settles O49: the cases of each operation in the order of its definition; a difference is the sum with the sign
changed. -/
theorem specialValuesOfArithmetic : Obligations.SpecialValuesOfArithmetic := by
  refine ⟨fun f => ⟨fpIsNaN_iff.2 (fmtInfMag_lt_qnan f), quiet_le_fpMag_qnan f⟩, fun f a b => ?_, fun f a b h => ?_,
    fun f a b ha hb => ?_, fun f a b ha hb => ?_, fun f a b ha hb => ?_, fun f a b ha hb => ?_⟩
  · rw [fsub, fneg_eq_xor]
  · exact ⟨fadd_nan h, fsub_nan h, fmul_nan h⟩
  · refine ⟨fadd_inf_inf ha hb, ?_, fmul_inf_inf ha hb⟩
    rw [fsub, fadd_inf_inf ha (by rwa [fpIsInf_fneg]), fpNeg_fneg]
    cases fpNeg a <;> cases fpNeg b <;> rfl
  · exact ⟨fadd_inf_finite ha hb, by rw [fadd_comm, fadd_inf_finite ha hb],
      fadd_inf_finite ha (by rwa [fpMag_fneg]), fsub_finite_inf ha hb, fmul_inf_finite ha hb, fmul_comm b a⟩
  · rw [fadd_finite ha hb, fsub_finite ha hb, fpOfInt, fpOfInt]
    exact ⟨fun h => if_pos h, fun h => if_pos h⟩
  · exact fmul_zero_finite (decide_eq_true_iff.1 ha) hb

/-! The product with the unit tone (R142). -/

/-- A finite nonzero value plus a zero is the value. -/
theorem fadd_zero_right {f : Fmt} {a : Fp f} (h0 : fpMag a ≠ 0) (ha : fpMag a < fmtInfMag f) (n : Bool) :
    fadd a (fpPack f n 0) = a := by
  have hz : fpMag (fpPack f n 0) < fmtInfMag f := by rw [fpMag_fpPack (Nat.two_pow_pos _)]; omega
  rw [fadd_finite ha hz, fpInt_fpPack_zero, Int.add_zero, fpOfInt_fpInt a _ h0 ha.le]

theorem fsub_zero_right {f : Fmt} {a : Fp f} (h0 : fpMag a ≠ 0) (ha : fpMag a < fmtInfMag f) (n : Bool) :
    fsub a (fpPack f n 0) = a := by
  rw [fsub, fneg, fpMag_fpPack (Nat.two_pow_pos _), fadd_zero_right h0 ha]

/-- A finite value times one is the value, the sign of a zero included. -/
theorem fmul_fpOne {f : Fmt} {a : Fp f} (ha : fpMag a < fmtInfMag f) : fmul a (fpOne f) = a := by
  obtain ⟨hfin, hneg, hone⟩ : fpMag (fpOne f) < fmtInfMag f ∧ fpNeg (fpOne f) = false ∧
      fpUnits (fpOne f) = 2 ^ fmtUnitExp f := by cases f <;> decide +kernel
  rw [fmul_finite ha hfin, hneg, hone, Bool.xor_false, Nat.mul_comm, fpUnits, fpRound_units ha.le, fpPack_self]

/-- A finite value times +0 is the zero of its sign. -/
theorem fmul_posZero {f : Fmt} {a : Fp f} (ha : fpMag a < fmtInfMag f) :
    fmul a (fpPack f false 0) = fpPack f (fpNeg a) 0 := by
  rw [fmul_comm, fmul_zero_finite (fpMag_fpPack (Nat.two_pow_pos _)) ha, fpNeg_fpPack (Nat.two_pow_pos _),
    Bool.false_xor]

/-- The product with (1, +0): each part plus or minus a zero. -/
theorem cmul_unitTone {f : Fmt} {a b : Fp f} (ha : fpMag a < fmtInfMag f) (hb : fpMag b < fmtInfMag f) :
    cmul { re := a, im := b } { re := fpOne f, im := fpPack f false 0 } =
      { re := fsub a (fpPack f (fpNeg b) 0), im := fadd (fpPack f (fpNeg a) 0) b } := by
  simp only [cmul, fmul_fpOne ha, fmul_fpOne hb, fmul_posZero ha, fmul_posZero hb]

/-- Settles O46: a finite nonzero part plus or minus a zero is itself; −0 minus −0 is +0. -/
theorem unitToneKeepsFiniteValues : Obligations.UnitToneKeepsFiniteValues := by
  refine ⟨fun f a b ha hb ha0 hb0 => ?_, fun f b hb hb0 hneg => ?_⟩
  · rw [cmul_unitTone ha hb, fsub_zero_right ha0 ha, fadd_comm, fadd_zero_right hb0 hb]
  · have hz : fpMag (fpPack f true 0) < fmtInfMag f := by rw [fpMag_fpPack (Nat.two_pow_pos _)]; omega
    rw [cmul_unitTone hz hb, hneg, fadd_comm, fadd_zero_right hb0 hb, fsub_finite hz hz, Int.sub_self,
      fpNeg_fpPack (Nat.two_pow_pos _)]
    rfl

/-! The conversions (R127, R128). -/

theorem cvt6432_nan {a : Fp .f64} (h : fpIsNaN a = true) : cvt6432 a = qnan .f32 := by
  rw [cvt6432, if_pos h]

theorem cvt6432_inf {a : Fp .f64} (h : fpIsInf a = true) : cvt6432 a = fpPack .f32 (fpNeg a) (fmtInfMag .f32) := by
  rw [cvt6432, fpIsNaN_of_fpIsInf h, if_neg (by simp), if_pos h]

theorem cvt3264_nan {a : Fp .f32} (h : fpIsNaN a = true) : cvt3264 a = qnan .f64 := by
  rw [cvt3264, if_pos h]

theorem cvt3264_inf {a : Fp .f32} (h : fpIsInf a = true) : cvt3264 a = fpPack .f64 (fpNeg a) (fmtInfMag .f64) := by
  rw [cvt3264, fpIsNaN_of_fpIsInf h, if_neg (by simp), if_pos h]

/-- Settles O50: the two ends are the halfway points at which the rounding passes to infinity and to zero. -/
theorem narrowingEnds : Obligations.NarrowingEnds := by
  refine fun a => ⟨fun h => cvt6432_nan (fpIsNaN_iff.2 h), fun hlo hhi => ?_, fun h => ?_, fun h => ?_⟩
  · rcases hhi.eq_or_lt with hinf | hfin
    · exact cvt6432_inf (fpIsInf_iff.2 hinf)
    · have hmid : 2 ^ 925 * (fpUnitsOf .f32 (fmtInfMag .f32 - 1) + fpUnitsOf .f32 (fmtInfMag .f32)) =
          2 * fpUnitsOf .f64 0x47EFFFFFF0000000 := by decide +kernel
      have hle : fpUnitsOf .f64 0x47EFFFFFF0000000 ≤ fpUnits a := fpUnitsOf_le_iff.2 hlo
      rw [cvt6432_finite hfin, fpRound_eq_fmtInfMag (by rw [hmid]; exact Nat.mul_le_mul_left 2 hle)]
      rfl
  · have hval : fpRound .f32 (fpUnitsOf .f64 0x47EFFFFFEFFFFFFF) 925 = 0x7F7FFFFF := by decide +kernel
    rw [cvt6432_finite (by rw [h]; decide), fpUnits, h, hval]
  · have hhalf : 2 * fpUnitsOf .f64 0x3690000000000000 = 2 ^ 925 := by decide +kernel
    have hle : fpUnits a ≤ fpUnitsOf .f64 0x3690000000000000 := fpUnitsOf_le_iff.2 h
    rw [cvt6432_finite (Nat.lt_of_le_of_lt h (by decide)), fpRound_eq_zero (by omega)]

/-- Widening keeps a finite pattern's sign, and its value in the smaller unit. -/
theorem cvt3264_units {a : Fp .f32} (h : fpMag a < fmtInfMag .f32) :
    fpNeg (f := .f64) (cvt3264 a) = fpNeg a ∧ fpUnits (f := .f64) (cvt3264 a) = fpUnits a * 2 ^ 925 := by
  rw [cvt3264_finite h, fpNeg_fpPack (fpRound_lt _ _ _), fpUnits, fpMag_fpPack (fpRound_lt _ _ _)]
  exact ⟨rfl, widen_units h⟩

/-- Narrowing takes a widened finite pattern back. -/
theorem cvt6432_cvt3264 {a : Fp .f32} (h : fpMag a < fmtInfMag .f32) : cvt6432 (cvt3264 a) = a := by
  obtain ⟨hneg, hunits⟩ := cvt3264_units h
  rw [cvt6432_finite (cvt3264_value h).1, hneg, hunits, Nat.mul_comm, fpUnits, fpRound_units h.le, fpPack_self]

/-- Settles O51: the value in the smaller unit is an F64 value, and an F32 value rounds to itself. -/
theorem wideningIsExact : Obligations.WideningIsExact := by
  refine fun a => ⟨cvt3264_nan, fun hnan => ?_, cvt3264_inf, fun hfin => ?_⟩
  · by_cases hinf : fpIsInf a = true
    · have hneg := fpNeg_fpPack (f := .f64) (n := fpNeg a) (fmtInfMag_lt .f64)
      rw [cvt3264_inf hinf, cvt6432_inf (fpIsInf_iff.2 (fpMag_fpPack (fmtInfMag_lt .f64))), hneg]
      exact ⟨(eq_fpPack_of_fpIsInf hinf).symm, rfl⟩
    · have hfin : fpMag a < fmtInfMag .f32 := finite_iff.2 ⟨hnan, by simpa using hinf⟩
      exact ⟨cvt6432_cvt3264 hfin, (cvt3264_units hfin).1⟩
  · obtain ⟨hneg, hunits⟩ := cvt3264_units hfin
    rw [fpInt, hneg, hunits, fpInt, Nat.cast_mul, Nat.cast_pow, Nat.cast_ofNat, ite_mul, Int.neg_mul]

/-! The valid frequencies (R136). -/

/-- The sign bit alone is −0. -/
theorem eq_negZero_iff (b : Fp .f64) : b = (0x8000000000000000#64 : Fp .f64) ↔ fpNeg b = true ∧ fpMag b = 0 :=
  ⟨fun h => h ▸ by decide, fun ⟨hneg, hmag⟩ => fp_ext hneg hmag⟩

/-- The two comparisons on values: no NaN, and from 0 to below 1.0. -/
theorem validFreq_iff (b : Fp .f64) :
    validFreq b = true ↔ fpMag b ≤ fmtInfMag .f64 ∧ 0 ≤ fpInt b ∧ fpInt b < fpUnits (fpOne .f64) := by
  have hzero : fpIsNaN (f := .f64) 0#64 = false ∧ fpInt (f := .f64) 0#64 = 0 := by decide
  obtain ⟨hnan, hneg⟩ : fpIsNaN (fpOne .f64) = false ∧ fpNeg (fpOne .f64) = false := by decide
  have hone : fpInt (fpOne .f64) = fpUnits (fpOne .f64) := by rw [fpInt, hneg]; rfl
  have hb : fpIsNaN b = false ↔ fpMag b ≤ fmtInfMag .f64 := by rw [fpIsNaN, decide_eq_false_iff_not, Nat.not_lt]
  simp only [validFreq, fge, fltLt, hzero, hone, hnan, Bool.and_eq_true, Bool.not_eq_true', decide_eq_true_eq, hb,
    and_true]
  exact ⟨fun ⟨⟨hn, h0⟩, _, h1⟩ => ⟨hn, h0, h1⟩, fun ⟨hn, h0, h1⟩ => ⟨⟨hn, h0⟩, hn, h1⟩⟩

/-- Settles O21: with the sign clear, the magnitudes below that of 1.0; with the sign set, that of zero. -/
theorem validFrequencyExactly : Obligations.ValidFrequencyExactly := by
  refine fun b => ⟨rfl, ?_⟩
  have hlt : fpUnits b < fpUnits (fpOne .f64) ↔ fpMag b < 0x3FF0000000000000 := fpUnitsOf_lt_iff
  have hzero : fpUnits b = 0 ↔ fpMag b = 0 := fpUnitsOf_eq_zero
  have hpos : 0 < fpUnits (fpOne .f64) := Nat.pos_of_ne_zero (mt fpUnitsOf_eq_zero.1 (by decide))
  have hnat := toNat_eq b
  rw [validFreq_iff, eq_negZero_iff, fpInt]
  generalize fpUnits (fpOne .f64) = one at *
  simp only [fmtInfMag, Fmt.width] at hnat ⊢
  cases hs : fpNeg b with
  | false =>
    simp only [hs, Bool.false_eq_true, if_false, false_and, or_false] at hnat ⊢
    omega
  | true =>
    simp only [hs, if_true, true_and] at hnat ⊢
    omega

end Sys2Proof.Machine
end

section
/-! PROOF. A SHIFT that completes (41_shift_generic.md R160, 44_dispatch.md R242), and what the generic kernel leaves in
memory and in its registers (41_shift_generic.md R162 to R168). -/

namespace Sys2Proof.Machine

/-! What each kernel leaves as it was. -/

theorem shiftResult_generic_frame {s : State} (hu : s.useVector = false) :
    shiftResult s = { s with
      tone := (shiftResult s).tone, gstep := (shiftResult s).gstep, idx := (shiftResult s).idx
      mem := (shiftResult s).mem, seq := .idle
      status := { busy := false, done := true, err := 0#2, kvec := false } } := by
  rw [shiftResult_generic hu]
  rfl

theorem shiftResult_vector_frame {s : State} (hu : s.useVector = true) :
    shiftResult s = { s with
      step := (shiftResult s).step, v := (shiftResult s).v, idx := (shiftResult s).idx
      mem := (shiftResult s).mem, seq := .idle
      status := { busy := false, done := true, err := 0#2, kvec := true } } := by
  rw [shiftResult_vector hu]
  rfl

/-- Settles O34: by the kernel that `use_vector()` chooses, each of which leaves the arguments. -/
theorem shiftCompletesAndKeepsArguments : Obligations.ShiftCompletesAndKeepsArguments := by
  intro s hv hrange
  refine ⟨shiftResult s, execShift_valid hv ((arrayInMemory_iff s).2 hrange), ?_⟩
  rw [show (!s.cfg.getLsbD 2 && s.params.hasVec) = s.useVector from rfl]
  cases hu : s.useVector with
  | true => rw [shiftResult_vector_frame hu]
  | false => rw [shiftResult_generic_frame hu]

/-! The registers of the generic kernel. -/

/-- The tones of a run that ended after q advances, in the registers k < UNROLL_SIZE. -/
theorem getElem_gshift_tone {s : State} {q : Nat}
    (h : (grun s.fmtT s.fmtU s.base s.freq s.phase s.size.toNat s.unroll s.mem).tones =
      tonesAt s.fmtU s.freq s.phase s.unroll q) (k : Fin 8) :
    (gshift s).tone[k] =
      if k.val < s.unroll then ToneReg.of s.fmtU (toneAt s.fmtU s.freq s.phase s.unroll k q) else s.tone[k] := by
  rw [gshift_tone, h, getElem_writeTones]
  simp only [length_tonesAt, getElem_tonesAt, Nat.zero_le, Nat.sub_zero, true_and, dite_eq_ite]

/-- No block runs over an empty array (41_shift_generic.md R168). -/
theorem grun_size_zero (T U : Fmt) (base freq phase : Word64) (n : Nat) (m : Memory) :
    grun T U base freq phase 0 n m = { idx := 0, tones := tonesAt U freq phase n 0, mem := m } := rfl

theorem size_le_blocks_mul_unroll (s : State) : s.size.toNat ≤ s.blocks * s.unroll := by
  have hblocks : s.size.toNat + s.unroll - 1 < s.blocks * s.unroll + s.unroll := Nat.lt_div_mul_add (unroll_pos s)
  omega

/-- IDX at completion is the end of the last block, which a 64-bit register holds (40_numerics.md R120, R121). -/
theorem blocks_mul_unroll_lt {s : State} (hA : s.base.toNat + fmtEsz s.fmtT * s.size.toNat ≤ 2 ^ 64) :
    s.blocks * s.unroll < 2 ^ 64 := by
  have hblocks : s.blocks * s.unroll ≤ s.size.toNat + s.unroll - 1 := Nat.div_mul_le_self _ _
  have hunroll := unroll_le s
  have hesz : 8 * s.size.toNat ≤ fmtEsz s.fmtT * s.size.toNat :=
    Nat.mul_le_mul_right _ (by cases s.fmtT <;> decide)
  omega

/-- Settles O35: the frequency check comes first; then the generic kernel runs no block. -/
theorem emptyArrayIsANoOpSuccess : Obligations.EmptyArrayIsANoOpSuccess := by
  intro s hsize
  refine ⟨fun hf => ⟨_, execShift_invalid hf, ?_, s.raise_mem _ _⟩, fun hv hu => ?_⟩
  · rw [State.raise_eq]; rfl
  have hrun : grun s.fmtT s.fmtU s.base s.freq s.phase s.size.toNat s.unroll s.mem =
      { idx := 0, tones := tonesAt s.fmtU s.freq s.phase s.unroll 0, mem := s.mem } := by
    rw [hsize]; exact grun_size_zero _ _ _ _ _ _ _
  have htone := getElem_gshift_tone (congrArg GRun.tones hrun)
  refine ⟨shiftResult s, execShift_valid hv ((arrayInMemory_iff s).2 (.inl hsize)), shiftResult_err s, ?_⟩
  rw [shiftResult_generic hu]
  simp only [State.completeShift_mem, State.completeShift_idx, State.completeShift_tone, State.completeShift_gstep,
    gshift_mem, gshift_idx, gshift_gstep, hrun, true_and]
  exact ⟨fun k hk => (htone k).trans (if_pos hk), fun k hk => (htone k).trans (if_neg (Nat.not_lt.2 hk)), rfl⟩

/-- Settles O36: by the state of the generic kernel after the last block. -/
theorem genericKernelEffect : Obligations.GenericKernelEffect := by
  intro s hv hrange hu hwf
  have ha : s.arrayInMemory = true := (arrayInMemory_iff s).2 (.inr hrange)
  have hA := array_le ha
  obtain ⟨hidx, htones, hmem⟩ : GAfter s.fmtT s.fmtU s.base s.freq s.phase s.size.toNat s.unroll s.mem s.blocks
      (grun s.fmtT s.fmtU s.base s.freq s.phase s.size.toNat s.unroll s.mem) := grun_spec hA (unroll_pos s) hwf
  refine ⟨shiftResult s, execShift_valid hv ha, fun i hi => ?_, fun a => read_shiftResult_outside ha, ?_, ?_,
    fun k => ?_, shiftResult_generic_frame hu⟩ <;> rw [shiftResult_generic hu]
  · exact (hmem.elems i hi).trans (if_pos (Nat.lt_of_lt_of_le hi (size_le_blocks_mul_unroll s)))
  · rw [State.completeShift_idx, gshift_idx, hidx, BitVec.toNat_ofNat, Nat.mod_eq_of_lt (blocks_mul_unroll_lt hA)]
  · rfl
  · exact getElem_gshift_tone htones k

end Sys2Proof.Machine
end

section
/-! PROOF. TGEN and the packed primitives, VLD and VST, and the illegal commands of the vector datapath
(42_vector_primitives.md R190 to R203). -/

namespace Sys2Proof.Machine

/-! Illegal commands (42_vector_primitives.md R202 a). -/

/-- Every command but SHIFT is guarded by HAS_VEC and by its register fields. -/
theorem exec_eq_vectorCommand {i : Instr} (hi : i ≠ .shift) (s : State) :
    ∃ body, exec i s = vectorCommand i.wellFormed s body := by
  cases i with
  | shift => exact absurd rfl hi
  | tgen | vnarrow | vcmul4s | vcmul2d | vbcmul2d | vld | vst => exact ⟨_, rfl⟩

/-- Settles O20: by the guard that every command but SHIFT stands behind. -/
theorem absentOrIllFormedCommandsAreIllegal : Obligations.AbsentOrIllFormedCommandsAreIllegal := by
  intro i s hi h
  obtain ⟨body, hexec⟩ := exec_eq_vectorCommand hi s
  rw [hexec, vectorCommand_illegal body (h.imp_right Bool.eq_false_of_not_eq_true), State.raise_eq]
  rfl

/-! TGEN (42_vector_primitives.md R191). -/

theorem tgenBody_get (s : State) (r : Fin 8) : (tgenBody s).v[r] =
    if r = 4 then VReg.full (masterLow s.freq s.phase)
    else if r = 5 then VReg.full (masterHigh s.freq s.phase) else s.v[r] := by
  match r with
  | 0 | 1 | 2 | 3 | 4 | 5 | 6 | 7 => simp [VReg.full]

/-- Settles O25: the masters are the complex lanes of what `tgen_body()` writes. -/
theorem tgenBuildsTonesAndStep : Obligations.TgenBuildsTonesAndStep := by
  intro s hv hf
  have h4 : ((tgenBody s).complete okCode).v[4] = VReg.full (masterLow s.freq s.phase) := tgenBody_get s 4
  have h5 : ((tgenBody s).complete okCode).v[5] = VReg.full (masterHigh s.freq s.phase) := tgenBody_get s 5
  refine ⟨_, exec_tgen hv hf, ?_, ?_, ?_, ?_, congrArg VReg.held h4, congrArg VReg.held h5, tgenBody_step s,
    fun r hr4 hr5 => ?_, rfl⟩
  · rw [h4]; exact dCx_packD_0 _ _
  · rw [h4]; exact dCx_packD_1 _ _
  · rw [h5]; exact dCx_packD_0 _ _
  · rw [h5]; exact dCx_packD_1 _ _
  · exact (tgenBody_get s r).trans (by rw [if_neg hr4, if_neg hr5])

/-! A command that writes one vector register and completes (42_vector_primitives.md R202 b). -/

theorem onlyWritesV_setV_complete (s : State) (d : Fin 8) (x : VWord) :
    s.OnlyWritesV ((s.setV d x).complete okCode) d := by
  refine ⟨?_, fun r hr => ?_, rfl⟩ <;> rw [State.complete_v]
  · rw [State.setV_same]
  · exact State.setV_ne s x hr

theorem bits_setV_complete (s : State) (d : Fin 8) (x : VWord) (c : BitVec 2) :
    ((s.setV d x).complete c).v[d].bits = x := by
  rw [State.complete_v, State.setV_same]

/-! The lanes that the packed primitives leave (42_vector_primitives.md R193, R195, R197, R199). -/

theorem sLane_narrow8 (a b : VWord) {j : Nat} (h : j < 4) :
    sLane (narrow8 a b) j = cvt6432 (dLane a j) ∧ sLane (narrow8 a b) (4 + j) = cvt6432 (dLane b j) := by
  obtain ⟨z0, z1, z2, z3⟩ := sCx_packS (cvtTone .f64 .f32 (dCx a 0)) (cvtTone .f64 .f32 (dCx a 1))
    (cvtTone .f64 .f32 (dCx b 0)) (cvtTone .f64 .f32 (dCx b 1))
  match j with
  | 0 => exact ⟨congrArg Cx.re z0, congrArg Cx.re z2⟩
  | 1 => exact ⟨congrArg Cx.im z0, congrArg Cx.im z2⟩
  | 2 => exact ⟨congrArg Cx.re z1, congrArg Cx.re z3⟩
  | 3 => exact ⟨congrArg Cx.im z1, congrArg Cx.im z3⟩

theorem sCx_cmul4s (z x : VWord) {k : Nat} (h : k < 4) : sCx (cmul4s z x) k = cmul (sCx z k) (sCx x k) := by
  match k with
  | 0 | 1 | 2 | 3 => simp [cmul4s]

theorem dCx_cmul2d (z x : VWord) {k : Nat} (h : k < 2) : dCx (cmul2d z x) k = cmul (dCx z k) (dCx x k) := by
  match k with
  | 0 | 1 => simp [cmul2d]

theorem dCx_bcmul2d (z : VWord) (c : Cx .f64) {k : Nat} (h : k < 2) : dCx (bcmul2d z c) k = cmul (dCx z k) c := by
  match k with
  | 0 | 1 => simp [bcmul2d]

theorem bcmul2d_eq_cmul2d (z : VWord) (c : Cx .f64) : bcmul2d z c = cmul2d z (packD c c) := by
  rw [bcmul2d, cmul2d, dCx_packD_0, dCx_packD_1]

/-- Settles O26: by the lanes of `narrow8`. -/
theorem vnarrowNarrowsEightLanes : Obligations.VnarrowNarrowsEightLanes := by
  intro s rd ra rb hv hd ha hb
  refine ⟨_, exec_vnarrow hv hd ha hb, onlyWritesV_setV_complete _ _ _, fun j hj => ?_⟩
  rw [bits_setV_complete]
  exact sLane_narrow8 _ _ hj

/-- Settles O27: by the complex lanes of `cmul4s`. -/
theorem vcmul4sMultipliesFourLanes : Obligations.Vcmul4sMultipliesFourLanes := by
  intro s rd ra hv hd ha
  refine ⟨_, exec_vcmul4s hv hd ha, onlyWritesV_setV_complete _ _ _, fun k hk => ?_⟩
  rw [bits_setV_complete]
  exact sCx_cmul4s _ _ hk

/-- Settles O28: by the complex lanes of `cmul2d`. -/
theorem vcmul2dMultipliesTwoLanes : Obligations.Vcmul2dMultipliesTwoLanes := by
  intro s rd ra hv hd ha
  refine ⟨_, exec_vcmul2d hv hd ha, onlyWritesV_setV_complete _ _ _, fun k hk => ?_⟩
  rw [bits_setV_complete]
  exact dCx_cmul2d _ _ hk

/-- Settles O29: by the complex lanes of `bcmul2d`, which is `cmul2d` with the scalar in both complex lanes. -/
theorem vbcmul2dMultipliesByStep : Obligations.Vbcmul2dMultipliesByStep := by
  intro s rd hv hd
  refine ⟨_, exec_vbcmul2d hv hd, onlyWritesV_setV_complete _ _ _, fun k hk => ?_, ?_⟩ <;> rw [bits_setV_complete]
  · exact dCx_bcmul2d _ _ hk
  · exact bcmul2d_eq_cmul2d _ _

/-! The complex product (42_vector_primitives.md R203, 40_numerics.md R135). -/

theorem cmul_eq_packed {f : Fmt} (z x : Cx f) : cmul z x =
    { re := fsub (fmul z.re x.re) (fmul z.im x.im), im := fadd (fmul z.im x.re) (fmul z.re x.im) } := by
  rw [cmul, fadd_comm]

theorem cmul_comm {f : Fmt} (z x : Cx f) : cmul z x = cmul x z := by
  rw [cmul_eq_packed, cmul, fmul_comm z.re x.re, fmul_comm z.im x.im, fmul_comm z.im x.re, fmul_comm z.re x.im]

/-- Settles O30: the sum and the product of two patterns commute. -/
theorem complexProductCommutes : Obligations.ComplexProductCommutes :=
  fun _ z x => ⟨cmul_comm z x, cmul_eq_packed z x⟩

/-! The bytes of a vector register in memory (20_memory.md R62, R63, R67). -/

/-- Byte j of a vector register is digit j of its number to base 256. -/
theorem byte_eq_ofNat (x : VWord) (j : Nat) : x.extractLsb' (8 * j) 8 = BitVec.ofNat 8 (x.toNat / 256 ^ j) := by
  rw [BitVec.extractLsb', Nat.shiftRight_eq_div_pow, Nat.pow_mul]

theorem byte_memReadV (m : Memory) (a : Nat) {j : Nat} (h : j < 32) :
    (memReadV m a).extractLsb' (8 * j) 8 = m.read (a + j) := by
  rw [byte_eq_ofNat, toNat_memReadV]
  exact BitVec.eq_of_toNat_eq ((BitVec.toNat_ofNat _ _).trans (Memory.readLE_byte m a 32 h))

theorem read_memWriteV_inside {m : Memory} (hm : m.wf = true) (a : Nat) (x : VWord) {j : Nat} (h : j < 32) :
    (memWriteV m a x).read (a + j) = x.extractLsb' (8 * j) 8 := by
  rw [byte_eq_ofNat]
  exact Memory.read_writeLE_inside hm a 32 x.toNat h

theorem read_memWriteV_outside (m : Memory) {a : Nat} (x : VWord) {b : Nat} (h : b < a ∨ a + 32 ≤ b) :
    (memWriteV m a x).read b = m.read b :=
  Memory.read_writeLE_outside m a 32 x.toNat h

/-- Storing the 32 bytes that memory holds leaves it as it is. -/
theorem memWriteV_memReadV_self {m : Memory} (hm : m.wf = true) (a : Nat) : memWriteV m a (memReadV m a) = m := by
  refine Memory.ext_of_wf (wf_memWriteV hm a _) hm fun b => ?_
  by_cases h : b < a ∨ a + 32 ≤ b
  · exact read_memWriteV_outside m _ h
  · obtain ⟨j, rfl⟩ : ∃ j, b = a + j := ⟨b - a, by omega⟩
    have hj : j < 32 := by omega
    rw [read_memWriteV_inside hm a _ hj, byte_memReadV m a hj]

/-! VLD and VST (42_vector_primitives.md R200, R201). -/

/-- Settles O31: by the bytes and the lanes of a 32-byte read. -/
theorem vldLoadsThirtyTwoBytes : Obligations.VldLoadsThirtyTwoBytes := by
  intro s rd imm hv hd hrange
  have hm := (vecInMemory_iff s imm).2 hrange
  refine ⟨_, exec_vld hv hd hm, onlyWritesV_setV_complete _ _ _, ?_⟩
  rw [bits_setV_complete, vecAddr_eq hm]
  refine ⟨fun j hj => ?_, fun j hj => ?_, fun j hj => ?_⟩
  · exact byte_memReadV _ _ hj
  · exact toNat_dLane_memReadV _ _ hj
  · exact toNat_sLane_memReadV _ _ hj

/-- Settles O32: by the bytes that a 32-byte write leaves inside its range and outside it. -/
theorem vstStoresThirtyTwoBytes : Obligations.VstStoresThirtyTwoBytes := by
  intro s rd imm hv hd hwf hrange
  have hm := (vecInMemory_iff s imm).2 hrange
  refine ⟨_, exec_vst hv hd hm, vecAddr_eq hm, fun j hj => ?_, fun a ha => ?_, ?_⟩ <;>
    rw [State.complete_mem, State.setMem_mem]
  · exact read_memWriteV_inside hwf _ _ hj
  · exact read_memWriteV_outside _ _ ha
  · exact State.complete_setMem_eq s _ okCode

/-- A VST of a register whose bits memory already holds at the VST's address leaves memory as it is. -/
theorem exec_vst_keeps_mem {t : State} {rd : BitVec 4} {imm : BitVec 16} (hv : t.params.hasVec = true)
    (hd : rd.toNat < 8) (hm : t.vecInMemory imm = true) (hwf : t.mem.wf = true)
    (hbits : t.vBits (vnum rd) = memReadV t.mem (vecAddr t.base imm)) :
    ∃ u, exec (.vst rd imm) t = .next u ∧ u.mem = t.mem := by
  refine ⟨_, exec_vst hv hd hm, ?_⟩
  rw [State.complete_mem, State.setMem_mem, hbits]
  exact memWriteV_memReadV_self hwf _

theorem runCommands_pair {i j : Instr} {s t u : State} (hi : exec i s = .next t) (hj : exec j t = .next u) :
    runCommands [i, j] s = .next u := by
  simp only [runCommands, hi, hj]

/-- Settles O33: the VST stores what the VLD loaded, at the address it was loaded from. -/
theorem loadThenStoreKeepsMemory : Obligations.LoadThenStoreKeepsMemory := by
  intro s rd imm hv hd hwf hrange
  have hm := (vecInMemory_iff s imm).2 hrange
  have hld := exec_vld hv hd hm
  have hmem : ((s.setV (vnum rd) (memReadV s.mem (vecAddr s.base imm))).complete okCode).mem = s.mem := by
    rw [State.complete_mem, State.setV_mem]
  have hbits : ((s.setV (vnum rd) (memReadV s.mem (vecAddr s.base imm))).complete okCode).vBits (vnum rd) =
      memReadV s.mem (vecAddr s.base imm) := bits_setV_complete _ _ _ _
  generalize (s.setV (vnum rd) (memReadV s.mem (vecAddr s.base imm))).complete okCode = t at hld hmem hbits
  have hdone := completed_exec hld
  obtain ⟨u, hst, hu⟩ := exec_vst_keeps_mem (t := t) (rd := rd) (imm := imm) (by rw [hdone.params, hv]) hd
    ((vecInMemory_congr imm hdone.params hdone.base).trans hm) (by rw [hmem, hwf]) (by rw [hbits, hmem, hdone.base])
  exact ⟨u, runCommands_pair hld hst, hu.trans hmem⟩

end Sys2Proof.Machine
end

section
/-! PROOF. The vector kernel (43_vector_kernel.md R220 to R228): what it leaves in memory and in every register, its
agreement with the generic kernel, and one full block of it built from the commands. -/

namespace Sys2Proof.Machine

/-! The registers a vector SHIFT leaves (43_vector_kernel.md R227). -/

theorem shiftResult_vector_mem {s : State} (hu : s.useVector = true) :
    (shiftResult s).mem = (vrun s.fmtT s).mem := by
  rw [shiftResult_vector hu, State.completeShift_mem, vshift_mem]

theorem shiftResult_vector_get {s : State} (hu : s.useVector = true) :
    (shiftResult s).v[4] = (vrun s.fmtT s).v4 ∧ (shiftResult s).v[5] = (vrun s.fmtT s).v5 ∧
      (shiftResult s).v[6] = (vrun s.fmtT s).v6 ∧ (shiftResult s).v[7] = (vrun s.fmtT s).v7 := by
  rw [shiftResult_vector hu, State.completeShift_v]
  exact ⟨vshift_get s _ 4, vshift_get s _ 5, vshift_get s _ 6, vshift_get s _ 7⟩

section
variable {freq phase : Word64} {q : Nat}

theorem masters_eq_tonesAt_iff {r : VRun} : r.masters = tonesAt .f64 freq phase 4 q ↔
    dCx r.v4.bits 0 = toneAt .f64 freq phase 4 0 q ∧ dCx r.v4.bits 1 = toneAt .f64 freq phase 4 1 q ∧
      dCx r.v5.bits 0 = toneAt .f64 freq phase 4 2 q ∧ dCx r.v5.bits 1 = toneAt .f64 freq phase 4 3 q := by
  simp only [VRun.masters, tonesAt_four, List.cons.injEq, and_true]

/-- The narrowed masters, complex lane by complex lane. -/
theorem sCx_of_narrowed_tonesAt {x : VWord}
    (h : [sCx x 0, sCx x 1, sCx x 2, sCx x 3] = (tonesAt .f64 freq phase 4 q).map (cvtTone .f64 .f32))
    (k : Nat) (hk : k < 4) : sCx x k = cvtTone .f64 .f32 (toneAt .f64 freq phase 4 k q) := by
  simp only [tonesAt_four, List.map, List.cons.injEq, and_true] at h
  obtain ⟨h0, h1, h2, h3⟩ := h
  match k with
  | 0 => exact h0
  | 1 => exact h1
  | 2 => exact h2
  | 3 => exact h3

end

/-- Settles O37: by the state of the vector kernel after its tail. -/
theorem vectorKernelEffect : Obligations.VectorKernelEffect := by
  intro s hv ha hu hwf
  have hend := vrun_spec (array_le ha) hwf
  obtain ⟨c, hc, hmem⟩ := hend.mem
  obtain ⟨hm0, hm1, hm2, hm3⟩ := masters_eq_tonesAt_iff.1 hend.tones
  obtain ⟨h4, h5, -, -⟩ := shiftResult_vector_get hu
  refine ⟨shiftResult s, execShift_valid hv ha, fun i hi => ?_, fun a => read_shiftResult_outside ha, ?_, ?_, ?_, ?_, ?_,
    ?_, fun r => shiftResult_keeps_low s, shiftResult_vector_frame hu⟩
  · rw [shiftResult_vector_mem hu]
    exact (hmem.elems i hi).trans (if_pos (Nat.lt_of_lt_of_le hi hc))
  · have hsize := s.size.isLt
    rw [shiftResult_vector hu, State.completeShift_idx, vshift_idx, hend.idx, BitVec.toNat_ofNat]
    omega
  · rw [h4, hm0]
  · rw [h4, hm1]
  · rw [h5, hm2]
  · rw [h5, hm3]
  · rw [shiftResult_vector hu, State.completeShift_step, vshift_step]
    rfl

/-- Settles O38: `V[6]` from the last narrowing that ran, in the tail or in a block, `V[7]` from the last full block. -/
theorem vectorKernelScratchRegisters : Obligations.VectorKernelScratchRegisters := by
  intro s hv ha hu hwf
  have hend := vrun_spec (array_le ha) hwf
  obtain ⟨-, -, h6, h7⟩ := shiftResult_vector_get hu
  refine ⟨shiftResult s, execShift_valid hv ha, ?_⟩
  rw [h6, h7, shiftResult_vector_mem hu]
  refine ⟨fun hT htail => ?_, fun hT hfull hblock => ?_, fun hkeep => ?_, hend.v7keep, fun hT hblock => ?_,
    fun hT hblock => ?_⟩
  · exact sCx_of_narrowed_tonesAt (hend.v6tail hT htail).2
  · exact sCx_of_narrowed_tonesAt (hend.v6block hT hfull hblock).2
  · exact hend.v6keep (hkeep.imp_right (congrArg BitVec.toNat))
  · have hlast := hend.v7last hblock
    rw [hT] at hlast ⊢
    exact hlast
  · have hlast := hend.v7last hblock
    rw [hT] at hlast ⊢
    exact hlast

/-! The two kernels (43_vector_kernel.md R228). -/

/-- Both kernels multiply every element by the same tone, when the generic one has U = F64 and UNROLL_SIZE = 4. -/
theorem vrun_mem_eq_grun_mem {T : Fmt} {s : State} (hA : s.base.toNat + fmtEsz T * s.size.toNat ≤ 2 ^ 64)
    (hwf : s.mem.wf = true) :
    (vrun T s).mem = (grun T .f64 s.base s.freq s.phase s.size.toNat 4 s.mem).mem := by
  obtain ⟨c, hc, hvector⟩ := (vrun_spec hA hwf).mem
  have hgeneric := (grun_spec (U := .f64) (freq := s.freq) (phase := s.phase) hA (Nat.succ_pos 3) hwf).mem
  exact hvector.unique hA hgeneric hc (by show _ ≤ (_ + 4 - 1) / 4 * 4; omega)

/-- Settles O39: by the multiplies of the whole array, which are the same in both kernels. -/
theorem kernelsAgreeOnTheArray : Obligations.KernelsAgreeOnTheArray := by
  intro s s' hu hu' hU hn hT hbase hsize hfreq hphase hmem hwf hv ha ha'
  refine ⟨_, _, execShift_valid hv ha, execShift_valid (hfreq.symm ▸ hv) ha', ?_⟩
  rw [shiftResult_vector_mem hu, vrun_mem_eq_grun_mem (array_le ha) hwf, shiftResult_generic hu',
    State.completeShift_mem, gshift_mem, hU, hn, hT, hbase, hsize, hfreq, hphase, hmem]

/-! The vector SHIFT of four elements is one full block (43_vector_kernel.md R222, R225). -/

theorem mulElems_of_size_le {T : Fmt} {base : Word64} {size : Nat} (m : Memory) :
    ∀ (ts : List (Cx T)) (i : Nat), size ≤ i → mulElems T base size i ts m = m
  | [], _, _ => rfl
  | _ :: ts, i, h => by
    rw [mulElems, if_neg (Nat.not_lt.2 h), mulElems_of_size_le m ts (i + 1) (Nat.le_succ_of_le h)]

theorem vtail_of_size_le {T : Fmt} {base : Word64} {size : Nat} {r : VRun} (h : size ≤ r.idx) :
    vtail T base size r = r := by
  cases T with
  | f32 => exact if_neg (Nat.not_lt.2 h)
  | f64 => rw [vtail, vtail64, mulElems_of_size_le _ _ _ h]

theorem vblock_idx (T : Fmt) (base : Word64) (step : Cx .f64) (r : VRun) :
    (vblock T base step r).idx = r.idx + 4 := by cases T <;> rfl

theorem vrun_of_size_four {s : State} (T : Fmt) (h : s.size = 4#64) :
    vrun T s = vblock T s.base (stepPhasor .f64 s.freq 4) (vstart s) := by
  have hidx : (vblock T s.base (stepPhasor .f64 s.freq 4) (vstart s)).idx = 4 := vblock_idx _ _ _ _
  have hloop : vloop T s.base 4 (stepPhasor .f64 s.freq 4) 4 (vstart s) =
      vblock T s.base (stepPhasor .f64 s.freq 4) (vstart s) := by
    rw [vloop, if_pos (show (vstart s).idx + 4 ≤ 4 from Nat.le_refl 4), vloop, hidx, if_neg (by decide)]
  rw [vrun, h, show (4#64).toNat = 4 from rfl, hloop, vtail_of_size_le (Nat.le_of_eq hidx.symm)]

/-! The commands on the kernel's live state: after TGEN each of them moves `V[4]` to `V[7]` and memory as a line of the
kernel does (42_vector_primitives.md R190 to R202). -/

/-- The register file `v` with the kernel's registers in `V[4]` to `V[7]`. -/
def VRun.regs (r : VRun) (v : Vector VReg 8) : Vector VReg 8 := (((v.set 4 r.v4).set 5 r.v5).set 6 r.v6).set 7 r.v7

/-- `s` after a completed command, with STEP = z, and `V[4]` to `V[7]` and sample memory those of the kernel's live state
(43_vector_kernel.md R221). IDX is the kernel's own, which no command but SHIFT writes. -/
def State.withRun (s : State) (z : Cx .f64) (r : VRun) : State :=
  { s.setStep z with v := r.regs s.v, mem := r.mem, seq := .idle, status := s.status.completed okCode }

@[simp] theorem State.withRun_mem (s : State) (z : Cx .f64) (r : VRun) : (s.withRun z r).mem = r.mem := by
  unfold State.withRun; rfl
@[simp] theorem State.withRun_v (s : State) (z : Cx .f64) (r : VRun) : (s.withRun z r).v = r.regs s.v := by
  unfold State.withRun; rfl
@[simp] theorem State.withRun_step (s : State) (z : Cx .f64) (r : VRun) :
    (s.withRun z r).step = (s.setStep z).step := by
  unfold State.withRun; rfl

theorem registers_ext {v w : Vector VReg 8} (h : ∀ i : Fin 8, v[i] = w[i]) : v = w :=
  Vector.ext fun i hi => h ⟨i, hi⟩

/-- `V[d]` of the live state, d one of the kernel's four registers. -/
def VRun.reg (r : VRun) (d : Fin 8) : VReg :=
  match d with
  | 4 => r.v4
  | 5 => r.v5
  | 6 => r.v6
  | _ => r.v7

/-- The live state with a new `V[d]`, d one of the kernel's four registers. -/
def VRun.setReg (r : VRun) (d : Fin 8) (x : VReg) : VRun :=
  match d with
  | 4 => { r with v4 := x }
  | 5 => { r with v5 := x }
  | 6 => { r with v6 := x }
  | _ => { r with v7 := x }

theorem VRun.reg_eq (r : VRun) : r.reg 4 = r.v4 ∧ r.reg 5 = r.v5 ∧ r.reg 6 = r.v6 ∧ r.reg 7 = r.v7 :=
  ⟨rfl, rfl, rfl, rfl⟩

theorem VRun.setReg_eq (r : VRun) (x : VReg) : r.setReg 4 x = { r with v4 := x } ∧ r.setReg 5 x = { r with v5 := x } ∧
    r.setReg 6 x = { r with v6 := x } ∧ r.setReg 7 x = { r with v7 := x } :=
  ⟨rfl, rfl, rfl, rfl⟩

theorem VRun.regs_getElem (r : VRun) (v : Vector VReg 8) {d : Fin 8} (hd : 4 ≤ d.val) : (r.regs v)[d] = r.reg d := by
  match d with
  | 0 | 1 | 2 | 3 => exact absurd hd (by decide)
  | 4 | 5 | 6 | 7 => simp [VRun.regs, VRun.reg]

theorem VRun.regs_setReg (r : VRun) (v : Vector VReg 8) {d : Fin 8} (hd : 4 ≤ d.val) (x : VReg) :
    (r.setReg d x).regs v = (r.regs v).set d x :=
  registers_ext fun i => by
    match d with
    | 0 | 1 | 2 | 3 => exact absurd hd (by decide)
    | 4 | 5 | 6 | 7 =>
      match i with
      | 0 | 1 | 2 | 3 | 4 | 5 | 6 | 7 => simp [VRun.regs, VRun.setReg]

theorem VRun.setReg_mem (r : VRun) (d : Fin 8) (x : VReg) : (r.setReg d x).mem = r.mem := by
  unfold VRun.setReg
  split <;> rfl

/-- TGEN leaves `V[6]` and `V[7]` as the kernel's live state has them at its start. -/
theorem tgenBody_regs (s : State) : (tgenBody s).v = (vstart s).regs s.v :=
  registers_ext fun i => by
    rw [tgenBody_get]
    match i with
    | 0 | 1 | 2 | 3 | 4 | 5 | 6 | 7 => simp [VRun.regs, vstart]

/-- The field names one of the kernel's registers, `V[4]` to `V[7]`. -/
abbrev kernelReg (r : BitVec 4) : Prop := 4 ≤ r.toNat ∧ r.toNat < 8

theorem vnum_kernel : vnum 4 = 4 ∧ vnum 5 = 5 ∧ vnum 6 = 6 ∧ vnum 7 = 7 := ⟨rfl, rfl, rfl, rfl⟩

theorem le_vnum {r : BitVec 4} (h : kernelReg r) : 4 ≤ (vnum r).val := by
  obtain ⟨hlow, hhigh⟩ := h
  show 4 ≤ r.toNat % 8
  omega

theorem shiftResult_of_size_four {T : Fmt} {s : State} (hu : s.useVector = true) (hT : s.fmtT = T)
    (hsize : s.size = 4#64) :
    (shiftResult s).mem = (vblock T s.base (stepPhasor .f64 s.freq 4) (vstart s)).mem ∧
      (shiftResult s).v = (vblock T s.base (stepPhasor .f64 s.freq 4) (vstart s)).regs s.v ∧
      (shiftResult s).step = (s.setStep (stepPhasor .f64 s.freq 4)).step := by
  rw [← vrun_of_size_four T hsize, shiftResult_vector hu, hT]
  exact ⟨rfl, rfl, rfl⟩

theorem runCommands_cons {i : Instr} {is : List Instr} {s t : State} (h : exec i s = .next t) :
    runCommands (i :: is) s = runCommands is t := by
  rw [runCommands, h]

section
variable {s : State} {z : Cx .f64} {r : VRun}

theorem vBits_withRun {d : Fin 8} (hd : 4 ≤ d.val) : (s.withRun z r).vBits d = (r.reg d).bits :=
  congrArg VReg.bits (r.regs_getElem s.v hd)

theorem complete_setV_withRun {d : Fin 8} (hd : 4 ≤ d.val) (x : VWord) :
    ((s.withRun z r).setV d x).complete okCode = s.withRun z (r.setReg d (VReg.full x)) := by
  rw [State.withRun, State.withRun, VRun.regs_setReg _ _ hd, VRun.setReg_mem]
  rfl

variable (hv : s.params.hasVec = true) {rd ra rb : BitVec 4} {imm : BitVec 16}
include hv

theorem exec_tgen_withRun (hf : validFreq s.freq = true) :
    exec .tgen s = .next (s.withRun (stepPhasor .f64 s.freq 4) (vstart s)) := by
  rw [exec_tgen hv hf, State.withRun, ← tgenBody_regs]
  rfl

theorem exec_vld_withRun (hd : kernelReg rd) (hm : s.vecInMemory imm = true) :
    exec (.vld rd imm) (s.withRun z r) =
      .next (s.withRun z (r.setReg (vnum rd) (VReg.full (memReadV r.mem (vecAddr s.base imm))))) := by
  rw [exec_vld (s := s.withRun z r) hv hd.2 hm, complete_setV_withRun (le_vnum hd)]
  rfl

theorem exec_vst_withRun (hd : kernelReg rd) (hm : s.vecInMemory imm = true) :
    exec (.vst rd imm) (s.withRun z r) =
      .next (s.withRun z { r with mem := memWriteV r.mem (vecAddr s.base imm) (r.reg (vnum rd)).bits }) := by
  rw [exec_vst (s := s.withRun z r) hv hd.2 hm, vBits_withRun (le_vnum hd)]
  rfl

theorem exec_vnarrow_withRun (hd : kernelReg rd) (ha : kernelReg ra) (hb : kernelReg rb) :
    exec (.vnarrow rd ra rb) (s.withRun z r) =
      .next (s.withRun z
        (r.setReg (vnum rd) (VReg.full (narrow8 (r.reg (vnum ra)).bits (r.reg (vnum rb)).bits)))) := by
  rw [exec_vnarrow (s := s.withRun z r) hv hd.2 ha.2 hb.2, complete_setV_withRun (le_vnum hd),
    vBits_withRun (le_vnum ha), vBits_withRun (le_vnum hb)]

theorem exec_vcmul4s_withRun (hd : kernelReg rd) (ha : kernelReg ra) :
    exec (.vcmul4s rd ra) (s.withRun z r) =
      .next (s.withRun z
        (r.setReg (vnum rd) (VReg.full (cmul4s (r.reg (vnum rd)).bits (r.reg (vnum ra)).bits)))) := by
  rw [exec_vcmul4s (s := s.withRun z r) hv hd.2 ha.2, complete_setV_withRun (le_vnum hd),
    vBits_withRun (le_vnum hd), vBits_withRun (le_vnum ha)]

theorem exec_vcmul2d_withRun (hd : kernelReg rd) (ha : kernelReg ra) :
    exec (.vcmul2d rd ra) (s.withRun z r) =
      .next (s.withRun z
        (r.setReg (vnum rd) (VReg.full (cmul2d (r.reg (vnum rd)).bits (r.reg (vnum ra)).bits)))) := by
  rw [exec_vcmul2d (s := s.withRun z r) hv hd.2 ha.2, complete_setV_withRun (le_vnum hd),
    vBits_withRun (le_vnum hd), vBits_withRun (le_vnum ha)]

theorem exec_vbcmul2d_withRun (hd : kernelReg rd) :
    exec (.vbcmul2d rd) (s.withRun z r) =
      .next (s.withRun z (r.setReg (vnum rd) (VReg.full (bcmul2d (r.reg (vnum rd)).bits z)))) := by
  rw [exec_vbcmul2d (s := s.withRun z r) hv hd.2, complete_setV_withRun (le_vnum hd), vBits_withRun (le_vnum hd)]
  rfl

/-- TGEN and the F32 block's commands: the live state after one full block (43_vector_kernel.md R222). -/
theorem runCommands_block32 (hf : validFreq s.freq = true) (hm : s.vecInMemory 0 = true) :
    runCommands [.tgen, .vld 7 0, .vnarrow 6 4 5, .vcmul4s 7 6, .vst 7 0, .vbcmul2d 4, .vbcmul2d 5] s =
      .next (s.withRun (stepPhasor .f64 s.freq 4) (vblock .f32 s.base (stepPhasor .f64 s.freq 4) (vstart s))) := by
  rw [runCommands_cons (exec_tgen_withRun hv hf),
    runCommands_cons (exec_vld_withRun hv (by decide) hm),
    runCommands_cons (exec_vnarrow_withRun hv (by decide) (by decide) (by decide)),
    runCommands_cons (exec_vcmul4s_withRun hv (by decide) (by decide)),
    runCommands_cons (exec_vst_withRun hv (by decide) hm),
    runCommands_cons (exec_vbcmul2d_withRun hv (by decide)),
    runCommands_cons (exec_vbcmul2d_withRun hv (by decide))]
  simp only [vnum_kernel, VRun.reg_eq, VRun.setReg_eq]
  rfl

/-- TGEN and the F64 block's commands: the live state after one full block (43_vector_kernel.md R225). -/
theorem runCommands_block64 (hf : validFreq s.freq = true) (hm0 : s.vecInMemory 0 = true)
    (hm1 : s.vecInMemory 1 = true) :
    runCommands [.tgen, .vld 7 0, .vcmul2d 7 4, .vst 7 0, .vld 7 1, .vcmul2d 7 5, .vst 7 1, .vbcmul2d 4, .vbcmul2d 5] s =
      .next (s.withRun (stepPhasor .f64 s.freq 4) (vblock .f64 s.base (stepPhasor .f64 s.freq 4) (vstart s))) := by
  rw [runCommands_cons (exec_tgen_withRun hv hf),
    runCommands_cons (exec_vld_withRun hv (by decide) hm0),
    runCommands_cons (exec_vcmul2d_withRun hv (by decide) (by decide)),
    runCommands_cons (exec_vst_withRun hv (by decide) hm0),
    runCommands_cons (exec_vld_withRun hv (by decide) hm1),
    runCommands_cons (exec_vcmul2d_withRun hv (by decide) (by decide)),
    runCommands_cons (exec_vst_withRun hv (by decide) hm1),
    runCommands_cons (exec_vbcmul2d_withRun hv (by decide)),
    runCommands_cons (exec_vbcmul2d_withRun hv (by decide))]
  simp only [vnum_kernel, VRun.reg_eq, VRun.setReg_eq]
  rfl

end

/-- Settles O43: one full F32 block is all that SHIFT runs on four elements, and the commands are its lines. -/
theorem primitivesBuildOneBlock32 : Obligations.PrimitivesBuildOneBlock32 := by
  intro s hu hT hsize hf hrange
  have hv : s.params.hasVec = true := (Bool.and_eq_true_iff.1 hu).2
  have ha : s.arrayInMemory = true := (arrayInMemory_iff s).2 (.inr (by rw [hT, hsize]; exact hrange))
  have hm : s.vecInMemory 0 = true := (vecInMemory_iff s 0).2 hrange
  refine ⟨_, _, execShift_valid hf ha, runCommands_block32 hv hf hm, ?_⟩
  rw [State.withRun_mem, State.withRun_v, State.withRun_step]
  exact shiftResult_of_size_four hu hT hsize

/-- Settles O44: one full F64 block is all that SHIFT runs on four elements, and the commands are its two halves. -/
theorem primitivesBuildOneBlock64 : Obligations.PrimitivesBuildOneBlock64 := by
  intro s hu hT hsize hf hrange
  have hv : s.params.hasVec = true := (Bool.and_eq_true_iff.1 hu).2
  have ha : s.arrayInMemory = true := (arrayInMemory_iff s).2 (.inr (by rw [hT, hsize]; exact hrange))
  have hm0 : s.vecInMemory 0 = true := (vecInMemory_iff s 0).2 (Nat.le_trans (Nat.add_le_add_left (by decide) _) hrange)
  have hm1 : s.vecInMemory 1 = true := (vecInMemory_iff s 1).2 hrange
  refine ⟨_, _, execShift_valid hf ha, runCommands_block64 hv hf hm0 hm1, ?_⟩
  rw [State.withRun_mem, State.withRun_v, State.withRun_step]
  exact shiftResult_of_size_four hu hT hsize

end Sys2Proof.Machine
end

section
/-! PROOF. KVEC (44_dispatch.md R242, 10_state.md R26): what a SHIFT records in it, and that no other command and no
action of the outside world but reset writes it. -/

namespace Sys2Proof.Machine

/-! KVEC after a command. -/

theorem State.raise_kvec (s : State) (e : Exc) (isShift : Bool) :
    (s.raise e isShift).status.kvec = if isShift then false else s.status.kvec := by
  rw [State.raise_eq]

theorem shiftResult_kvec (s : State) : (shiftResult s).status.kvec = s.useVector := by
  cases hu : s.useVector with
  | true => rw [shiftResult_vector_frame hu]
  | false => rw [shiftResult_generic_frame hu]

theorem execShift_kvec {s t : State} (h : execShift s = .next t) :
    t.status.kvec = (validFreq s.freq && s.useVector) := by
  rcases execShift_cases h with ⟨hf, rfl⟩ | ⟨hf, -, rfl⟩
  · rw [State.raise_kvec, hf, if_pos rfl, Bool.false_and]
  · rw [shiftResult_kvec, hf, Bool.true_and]

theorem exec_keeps_kvec {i : Instr} {s t : State} (hi : i ≠ .shift) (h : exec i s = .next t) :
    t.status.kvec = s.status.kvec := by
  rcases exec_cases hi h with ⟨e, rfl⟩ | ⟨-, -, d, x, rfl⟩ | ⟨-, rfl⟩ | ⟨rd, imm, -, -, rfl⟩
  · exact s.raise_kvec e false
  · rw [State.complete_status, State.setV_status, Status.completed_eq]
  · rw [State.complete_status, tgenBody_status, Status.completed_eq]
  · rw [State.complete_status, State.setMem_status, Status.completed_eq]

/-! KVEC after an access of the host or of another agent. -/

/-- Of the registers the host writes only CMD changes STATUS, and an issue keeps KVEC. -/
theorem State.writeReg_kvec (s : State) (r : WindowReg) (x : Word64) :
    (s.writeReg r x).status.kvec = s.status.kvec := by
  by_cases hr : r = .cmd
  · subst hr; rfl
  · rw [(s.writeReg_status_seq x hr).1]

section
variable {s t : State} {o : BitVec 12} {bytes : Nat} {x : Word64} {addr : Word64} {b : Byte}

theorem windowWrite_keeps_kvec (h : windowWrite o bytes x s = .next t) : t.status.kvec = s.status.kvec := by
  unfold windowWrite at h
  split at h
  · obtain rfl := Host.Outcome.next.inj h
    split
    · rfl
    · exact s.writeReg_kvec _ x
  · cases h

theorem windowRead_keeps_status (h : windowRead o bytes s = .next t) : t.status = s.status := by
  unfold windowRead at h
  split at h
  · obtain rfl := Host.Outcome.next.inj h
    split
    · rw [State.readBusy_frame]
    · rw [State.readIdle_frame]
  · cases h

theorem outsideWrite_keeps_status (h : outsideWrite addr b s = .next t) : t.status = s.status := by
  unfold outsideWrite at h
  split at h
  · cases h
  · split at h
    · cases h
    · obtain rfl := Host.Outcome.next.inj h; rfl

theorem outsideRead_keeps_status (h : outsideRead addr s = .next t) : t.status = s.status := by
  unfold outsideRead at h
  split at h
  · cases h
  · split at h
    · cases h
    · obtain rfl := Host.Outcome.next.inj h; exact s.returns_status _

end

theorem runInput_keeps_kvec {a : Input} {s t : State} (hturn : a ≠ .engineTurn) (hreset : a ≠ .reset)
    (h : runInput a s = .next t) : t.status.kvec = s.status.kvec := by
  cases a with
  | engineTurn => exact absurd rfl hturn
  | windowWrite o bytes x => exact windowWrite_keeps_kvec h
  | windowRead o bytes => exact congrArg Status.kvec (windowRead_keeps_status h)
  | memWrite addr x => exact congrArg Status.kvec (outsideWrite_keeps_status h)
  | memRead addr => exact congrArg Status.kvec (outsideRead_keeps_status h)
  | reset => exact absurd rfl hreset

/-- Settles O24: by everything SHIFT can do, everything another command can do, and each action of the outside world. -/
theorem onlyShiftAndResetWriteKvec : Obligations.OnlyShiftAndResetWriteKvec :=
  ⟨fun _ _ => execShift_kvec, fun _ _ _ => exec_keeps_kvec, fun _ _ _ => runInput_keeps_kvec⟩

end Sys2Proof.Machine
end

section
/-! PROOF. What a SHIFT multiplies each element by, in whichever kernel runs, and the SHIFT with FREQ = +0 and PHASE = +0
(45_contract_properties.md R254). -/

namespace Sys2Proof.Machine

/-! The tone of an element (41_shift_generic.md R167, 43_vector_kernel.md R227). -/

theorem kernelN_pos (s : State) : 0 < s.kernelN := by
  rw [State.kernelN]; split; exacts [by decide, unroll_pos s]

theorem kernelN_le (s : State) : s.kernelN ≤ 8 := by
  rw [State.kernelN]; split; exacts [by decide, unroll_le s]

/-- Both kernels multiply element i by its tone, advanced once for each block before it. -/
theorem elemAt_shiftResult {s : State} (ha : s.arrayInMemory = true) (hwf : s.mem.wf = true) {i : Nat}
    (hi : i < s.size.toNat) :
    elemAt s.fmtT (shiftResult s).mem s.base i =
      cmul (elemAt s.fmtT s.mem s.base i) (genericTone s.fmtT s.kernelU s.freq s.phase s.kernelN i) := by
  cases hu : s.useVector with
  | true =>
    obtain ⟨c, hc, hmem⟩ := (vrun_spec (array_le ha) hwf).mem
    rw [shiftResult_vector_mem hu, State.kernelU, State.kernelN, if_pos hu, if_pos hu]
    exact (hmem.elems i hi).trans (if_pos (Nat.lt_of_lt_of_le hi hc))
  | false =>
    have hmem := (grun_spec (U := s.fmtU) (freq := s.freq) (phase := s.phase) (array_le ha) (unroll_pos s) hwf).mem
    have hblocks : i < s.blocks * s.unroll := Nat.lt_of_lt_of_le hi (size_le_blocks_mul_unroll s)
    rw [shiftResult_generic hu, State.completeShift_mem, gshift_mem, State.kernelU, State.kernelN, hu]
    exact (hmem.elems i hi).trans (if_pos hblocks)

/-! The zero shift (45_contract_properties.md R254). -/

/-- The tone (1, +0) (40_numerics.md R133, R142). -/
def unitTone (f : Fmt) : Cx f := { re := fpOne f, im := fpPack f false 0 }

/-- The phasor of a zero is (1, that zero) in every build (40_numerics.md R133 a). -/
theorem phasor_of_isZero {f : Fmt} {x : Fp f} (hx : fpIsZero x = true) : phasor f x = { re := fpOne f, im := x } := by
  cases f <;> exact congrArg₂ Cx.mk (if_pos hx) (if_pos hx)

theorem phasor_posZero (f : Fmt) : phasor f (fpPack f false 0) = unitTone f :=
  phasor_of_isZero (by cases f <;> decide)

theorem angle_zero (U : Fmt) (k : Fin 8) : angle U 0#64 0#64 k = fpPack U false 0 := by
  revert k; cases U <;> decide +kernel

theorem stepAngle_zero (U : Fmt) (n : Fin 9) : stepAngle U 0#64 n = fpPack U false 0 := by
  revert n; cases U <;> decide +kernel

theorem cmul_unitTone_unitTone (f : Fmt) : cmul (unitTone f) (unitTone f) = unitTone f := by
  cases f <;> decide +kernel

theorem cvtTone_unitTone (U T : Fmt) : cvtTone U T (unitTone U) = unitTone T := by
  cases U <;> cases T <;> decide +kernel

/-- With FREQ = +0 and PHASE = +0 no advance moves a tone from (1, +0). -/
theorem toneAt_zero {U : Fmt} {n k : Nat} (hn : n ≤ 8) (hk : k < 8) :
    ∀ q : Nat, toneAt U 0#64 0#64 n k q = unitTone U
  | 0 => (congrArg (phasor U) (angle_zero U ⟨k, hk⟩)).trans (phasor_posZero U)
  | q + 1 => by
    have hstep : stepPhasor U 0#64 n = unitTone U :=
      (congrArg (phasor U) (stepAngle_zero U ⟨n, Nat.lt_succ_of_le hn⟩)).trans (phasor_posZero U)
    rw [toneAt, toneAt_zero hn hk q, hstep, cmul_unitTone_unitTone]

/-- Settles O45: every tone is (1, +0), converted or not, in whichever kernel runs. -/
theorem zeroShiftMultipliesByOne : Obligations.ZeroShiftMultipliesByOne := by
  intro s hf hp ha hwf
  have hv : validFreq s.freq = true := by rw [hf]; decide +kernel
  refine ⟨shiftResult s, execShift_valid hv ha, shiftResult_err s, fun i hi => ?_⟩
  have hk : i % s.kernelN < 8 := Nat.lt_of_lt_of_le (Nat.mod_lt i (kernelN_pos s)) (kernelN_le s)
  rw [elemAt_shiftResult ha hwf hi, genericTone, hf, hp, toneAt_zero (kernelN_le s) hk, cvtTone_unitTone, unitTone]

end Sys2Proof.Machine
end

section
/-! PROOF. The accuracy of one SHIFT, of two that ought to agree, and of two in sequence (45_contract_properties.md R250,
R251, R255). -/

namespace Sys2Proof.Machine

/-! Near a turned element (log 20). -/

/-- Two results near the same turned element are near each other. -/
theorem norm_sub_le_of_cxNear {T : Fmt} {b b' : Cx T} {a : ℂ} {x r r' e e' : ℝ} (h : cxNear b a x r e)
    (h' : cxNear b' a x r' e') : ‖cxVal b - cxVal b'‖ ≤ (r + r') * ‖a‖ + (e + e') := by
  rw [cxNear] at h h'
  rw [norm_sub_rev] at h'
  have htri := norm_sub_le_norm_sub_add_norm_sub (cxVal b) (a * Complex.exp (x * Complex.I)) (cxVal b')
  linarith

/-- An element turned twice is the element turned by the sum of the angles, with both relative errors and their product. -/
theorem cxNear.trans {T : Fmt} {b c : Cx T} {a : ℂ} {x y r q e : ℝ} (hq : 0 ≤ q) (hb : cxNear b a x r e)
    (hc : cxNear c (cxVal b) y q e) : cxNear c a (x + y) (r + q + r * q) ((2 + q) * e) := by
  rw [cxNear] at hb hc ⊢
  have hexp : Complex.exp ((x + y : ℝ) * Complex.I) = Complex.exp (x * Complex.I) * Complex.exp (y * Complex.I) := by
    rw [← Complex.exp_add]; congr 1; push_cast; ring
  have hturn : ‖cxVal b * Complex.exp (y * Complex.I) - a * Complex.exp ((x + y : ℝ) * Complex.I)‖ ≤ r * ‖a‖ + e := by
    rw [hexp, ← mul_assoc, ← sub_mul, norm_mul, norm_exp_mul_I, mul_one]; exact hb
  have hnorm : ‖cxVal b‖ ≤ (1 + r) * ‖a‖ + e := by
    have := norm_le_norm_sub_add (cxVal b) (a * Complex.exp (x * Complex.I))
    rw [norm_mul, norm_exp_mul_I, mul_one] at this
    linarith
  have htri := norm_sub_le_norm_sub_add_norm_sub (cxVal c) (cxVal b * Complex.exp (y * Complex.I))
    (a * Complex.exp ((x + y : ℝ) * Complex.I))
  calc ‖cxVal c - a * Complex.exp ((x + y : ℝ) * Complex.I)‖
      ≤ (q * ‖cxVal b‖ + e) + (r * ‖a‖ + e) := htri.trans (add_le_add hc hturn)
    _ ≤ (q * ((1 + r) * ‖a‖ + e) + e) + (r * ‖a‖ + e) := by gcongr
    _ = (r + q + r * q) * ‖a‖ + (2 + q) * e := by ring

/-- Turning by another angle costs at most the distance of the angles. -/
theorem cxNear.angle {T : Fmt} {b : Cx T} {a : ℂ} {x r e : ℝ} (h : cxNear b a x r e) (y : ℝ) :
    cxNear b a y (r + |x - y|) e := by
  rw [cxNear] at h ⊢
  have hturn : ‖a * Complex.exp (x * Complex.I) - a * Complex.exp (y * Complex.I)‖ ≤ ‖a‖ * |x - y| := by
    rw [← mul_sub, norm_mul]
    exact mul_le_mul_of_nonneg_left (norm_exp_sub_le x y) (norm_nonneg a)
  have htri := norm_sub_le_norm_sub_add_norm_sub (cxVal b) (a * Complex.exp (x * Complex.I))
    (a * Complex.exp (y * Complex.I))
  linarith

/-- Whole turns do not matter. -/
theorem cxNear.sub_turns {T : Fmt} {b : Cx T} {a : ℂ} {x r e : ℝ} (h : cxNear b a x r e) (k : ℤ) :
    cxNear b a (x - k * (2 * Real.pi)) r e := by
  have hexp : Complex.exp ((x - k * (2 * Real.pi) : ℝ) * Complex.I) = Complex.exp (x * Complex.I) :=
    Complex.exp_eq_exp_iff_exists_int.2 ⟨-k, by push_cast; ring⟩
  rwa [cxNear, hexp]

/-! One SHIFT (45_contract_properties.md R250, R256). -/

/-- SIZE within the contract bounds the advances before an element as the recurrence of the tones needs it (log 18). -/
theorem advances_le {U : Fmt} {size i : Nat} (n : Nat) (hsize : size * 2 ^ 6 ≤ 2 ^ (fmtFrac U + 1)) (hi : i < size) :
    64 * uOf U * ((i / n : ℕ) + 1) ≤ 1 := by
  have hq : i / n ≤ i := Nat.div_le_self i n
  have h : 64 * (i / n + 1) ≤ 2 ^ (fmtFrac U + 1) := by omega
  have hreal : (64 * ((i / n : ℕ) + 1) : ℝ) ≤ 2 ^ (fmtFrac U + 1) := by exact_mod_cast h
  rw [uOf_eq, mul_one_div, div_mul_eq_mul_div, div_le_one (by positivity)]
  exact hreal

section
variable {s : State} (h : s.InContract)
include h

theorem State.InContract.arrayInMemory : s.arrayInMemory = true := (arrayInMemory_iff s).2 (.inr h.array)

theorem State.InContract.exec_shift : exec .shift s = .next (shiftResult s) :=
  execShift_valid h.freq h.arrayInMemory

variable {T : Fmt} (hT : s.fmtT = T) {i : Nat} (hi : i < s.size.toNat)
include hT hi

/-- An element times its own tone, against the element turned by the exact angle. -/
theorem State.InContract.elem :
    (cxModerate (elemAt T s.mem s.base i) → cxFinite (elemAt T (shiftResult s).mem s.base i)) ∧
      (cxFinite (elemAt T (shiftResult s).mem s.base i) →
        cxNear (elemAt T (shiftResult s).mem s.base i) (cxVal (elemAt T s.mem s.base i)) (s.exactAngle i)
          (s.tolerance i : ℚ) (underflowTolerance T : ℚ)) := by
  subst hT
  have hk : i % s.kernelN < s.kernelN := Nat.mod_lt i (kernelN_pos s)
  have hn := kernelN_le s
  have hindex : i / s.kernelN * s.kernelN + i % s.kernelN = i := Nat.div_add_mod' i s.kernelN
  have hnear := cmul_cvtTone_near (a := elemAt s.fmtT s.mem s.base i) h.freq h.phase (Nat.lt_of_lt_of_le hk hn) hn
    (h.trig.1 _ hk) h.trig.2 (advances_le s.kernelN h.size hi)
  rw [hindex] at hnear
  rw [elemAt_shiftResult h.arrayInMemory h.memory hi]
  exact hnear

/-- What is finite after a SHIFT was finite before it. -/
theorem State.InContract.finite_before (hfin : cxFinite (elemAt T (shiftResult s).mem s.base i)) :
    cxFinite (elemAt T s.mem s.base i) := by
  subst hT
  rw [elemAt_shiftResult h.arrayInMemory h.memory hi] at hfin
  exact (cmul_error hfin).1

end

/-- In double precision the tolerance of every element up to index b: a block advance costs at most 21 unit roundoffs for
each element of its block. -/
theorem tolerance_le_f64 {s : State} (hU : s.kernelU = .f64) (hT : s.fmtT = .f64)
    (hφ : |fpVal (f := .f64) s.phase| ≤ 10 ^ 6) {i b : Nat} (hi : i ≤ b) :
    s.tolerance i ≤ (21 * b + 3 * 10 ^ 6 + 216) / 2 ^ 53 := by
  have hblock : ((i / s.kernelN : ℕ) : ℚ) * s.kernelN ≤ b := by
    exact_mod_cast (Nat.div_mul_le_self i s.kernelN).trans hi
  have hadvances : ((i / s.kernelN : ℕ) : ℚ) ≤ b := by exact_mod_cast (Nat.div_le_self i s.kernelN).trans hi
  simp only [State.tolerance, shiftTolerance, unitRoundoff, angleError, fmtFrac, hU, hT]
  linarith

/-- Settles O52: by the accuracy of one element; the two figures by the bound of the tolerance. -/
theorem shiftTurnsEveryElement : Obligations.ShiftTurnsEveryElement :=
  ⟨fun s h => ⟨shiftResult s, h.exec_shift, shiftResult_err s, fun _ hi => h.elem rfl hi⟩,
    fun _ _ hU hT hφ hi =>
      ⟨fun hsize => (tolerance_le_f64 hU hT hφ (hi.le.trans hsize)).trans (by norm_num),
        fun hsize => (tolerance_le_f64 hU hT hφ (hi.le.trans hsize)).trans (by norm_num)⟩⟩

/-! A SHIFT against one with UNROLL_SIZE = 1 (45_contract_properties.md R251). -/

/-- Settles O53: both SHIFTs turn the same element by the same exact angle. -/
theorem tailMatchesBlockSizeOne : Obligations.TailMatchesBlockSizeOne := by
  intro s s' h h' _ _ hT hbase hsize hfreq hphase hmem
  refine ⟨shiftResult s, shiftResult s', h.exec_shift, h'.exec_shift, fun i hi => ?_⟩
  have hangle : s'.exactAngle i = s.exactAngle i := by rw [State.exactAngle, State.exactAngle, hfreq, hphase]
  obtain ⟨hstays, hnear⟩ := h.elem rfl hi
  obtain ⟨hstays', hnear'⟩ := h'.elem hT (hsize ▸ hi)
  rw [hbase, hmem] at hstays' hnear'
  rw [hangle] at hnear'
  refine ⟨fun hm => ⟨hstays hm, hstays' hm⟩, fun hfin hfin' => ?_⟩
  push_cast
  rw [two_mul]
  exact norm_sub_le_of_cxNear (hnear hfin) (hnear' hfin')

/-! Two SHIFTs in sequence (45_contract_properties.md R255). -/

theorem tolerance_nonneg (s : State) (i : Nat) : 0 ≤ s.tolerance i := by
  have hangle : 0 ≤ angleError s.kernelU := by cases s.kernelU <;> simp [angleError]
  rw [State.tolerance, shiftTolerance, unitRoundoff, unitRoundoff]
  positivity

/-- The sum of the exact angles of two SHIFTs, less its whole turns, against that of a third: a frequency turns element i
i times, a phase once. -/
theorem abs_exactAngle_sum_sub_le (s₁ s₂ s₃ : State) (i : Nat) :
    |s₁.exactAngle i + s₂.exactAngle i -
        ((⌊fpVal (f := .f64) s₁.freq + fpVal (f := .f64) s₂.freq⌋ * i : ℤ) : ℝ) * (2 * Real.pi) - s₃.exactAngle i| ≤
      2 * Real.pi * i * ((|Int.fract (fpVal (f := .f64) s₁.freq + fpVal (f := .f64) s₂.freq) -
          fpVal (f := .f64) s₃.freq| : ℚ) : ℝ) +
        ((|fpVal (f := .f64) s₁.phase + fpVal (f := .f64) s₂.phase - fpVal (f := .f64) s₃.phase| : ℚ) : ℝ) := by
  simp only [State.exactAngle]
  generalize fpVal (f := .f64) s₁.freq = f₁, fpVal (f := .f64) s₂.freq = f₂, fpVal (f := .f64) s₃.freq = f₃,
    fpVal (f := .f64) s₁.phase = φ₁, fpVal (f := .f64) s₂.phase = φ₂, fpVal (f := .f64) s₃.phase = φ₃
  have hsum : 2 * Real.pi * f₁ * i + φ₁ + (2 * Real.pi * f₂ * i + φ₂) - ((⌊f₁ + f₂⌋ * i : ℤ) : ℝ) * (2 * Real.pi) -
      (2 * Real.pi * f₃ * i + φ₃) = 2 * Real.pi * i * (Int.fract (f₁ + f₂) - f₃ : ℚ) + (φ₁ + φ₂ - φ₃ : ℚ) := by
    rw [Int.fract]; push_cast; ring
  rw [hsum]
  refine (abs_add_le _ _).trans (le_of_eq ?_)
  rw [abs_mul, abs_of_nonneg (by positivity : 0 ≤ 2 * Real.pi * (i : ℝ)), Rat.cast_abs, Rat.cast_abs]

theorem fmtT_congr {s t : State} (h : t.cfg = s.cfg) : t.fmtT = s.fmtT := by rw [State.fmtT, State.fmtT, h]

/-- Settles O54: the first two SHIFTs turn an element by the sum of their angles, and its whole turns, and the host's
rounding of the third's arguments, are all that parts it from the third's angle. -/
theorem shiftsCompose : Obligations.ShiftsCompose := by
  intro s₁ t₁ s₂ s₃ f₂ φ₂ f₃ φ₃ h₁ hexec hs₂ h₂ hs₃ h₃
  obtain rfl : shiftResult s₁ = t₁ := Host.Outcome.next.inj (h₁.exec_shift.symm.trans hexec)
  have hkept := completed_shiftResult s₁
  obtain ⟨hcfg₂, hbase₂, hsize₂, hmem₂, rfl, rfl⟩ : s₂.cfg = s₁.cfg ∧ s₂.base = s₁.base ∧ s₂.size = s₁.size ∧
      s₂.mem = (shiftResult s₁).mem ∧ s₂.freq = f₂ ∧ s₂.phase = φ₂ := by
    rw [hs₂]; exact ⟨hkept.cfg, hkept.base, hkept.size, rfl, rfl, rfl⟩
  obtain ⟨hcfg₃, hbase₃, hsize₃, hmem₃, rfl, rfl⟩ : s₃.cfg = s₁.cfg ∧ s₃.base = s₁.base ∧ s₃.size = s₁.size ∧
      s₃.mem = s₁.mem ∧ s₃.freq = f₃ ∧ s₃.phase = φ₃ := by
    rw [hs₃]; exact ⟨rfl, rfl, rfl, rfl, rfl, rfl⟩
  refine ⟨_, _, h₂.exec_shift, h₃.exec_shift, fun i hi hfin₂ hfin₃ => ?_⟩
  have hi₂ : i < s₂.size.toNat := hsize₂ ▸ hi
  have hbefore := h₂.finite_before (fmtT_congr hcfg₂) hi₂
  obtain ⟨-, hnear₁⟩ := h₁.elem rfl hi
  obtain ⟨-, hnear₂⟩ := h₂.elem (fmtT_congr hcfg₂) hi₂
  obtain ⟨-, hnear₃⟩ := h₃.elem (fmtT_congr hcfg₃) (hsize₃ ▸ hi)
  rw [hbase₂, hmem₂] at hbefore hnear₂
  rw [hbase₃, hmem₃] at hnear₃
  have htol₂ : (0 : ℝ) ≤ (s₂.tolerance i : ℚ) := Rat.cast_nonneg.2 (tolerance_nonneg s₂ i)
  have htwice := (((hnear₁ (hbefore hfin₂)).trans htol₂ (hnear₂ hfin₂)).sub_turns
    (⌊fpVal (f := .f64) s₁.freq + fpVal (f := .f64) s₂.freq⌋ * i)).angle (s₃.exactAngle i)
  have hdiff := norm_sub_le_of_cxNear htwice (hnear₃ hfin₃)
  have hangle := mul_le_mul_of_nonneg_right (abs_exactAngle_sum_sub_le s₁ s₂ s₃ i)
    (norm_nonneg (cxVal (elemAt s₁.fmtT s₁.mem s₁.base i)))
  push_cast at hdiff hangle ⊢
  linarith

end Sys2Proof.Machine
end

section
/-! PROOF. The idle engine (60_exceptions.md R285, 10_state.md R41): what its turn leaves. -/

namespace Sys2Proof.Machine

/-- Settles O60: a step is then the engine's turn, either because no input is pending or because the turn is the oldest
input, and the turn of an idle engine leaves the state it is given. -/
theorem idleEngineDoesNothing : Obligations.IdleEngineDoesNothing := by
  refine fun s hidle => ⟨fun hnone => ?_, fun rest hturn => ?_⟩
  · rw [step_nil hnone, engineTurn_idle hidle]
  · rw [step_cons hturn]
    exact engineTurn_idle (s := { s with inputs := rest }) hidle

end Sys2Proof.Machine
end

section
/-! PROOF. Completion and reset (70_reset_and_hazards.md R303, R319): which commands complete, and what a reset makes of one
that runs. -/

namespace Sys2Proof.Machine

/-! Which commands complete (70_reset_and_hazards.md R319). -/

/-- The guard of the vector datapath stops no command: it lets the body run, or takes ILLEGAL_CMD. -/
theorem vectorCommand_completes {s : State} {ok : Bool} {body : Host.Outcome State Fault Refusal}
    (h : ∃ t, body = .next t) : ∃ t, vectorCommand ok s body = .next t := by
  unfold vectorCommand
  split
  · exact h
  · exact ⟨_, rfl⟩

theorem execShift_completes {s : State} (h : validFreq s.freq = true → s.arrayInMemory = true) :
    ∃ t, execShift s = .next t := by
  cases hf : validFreq s.freq with
  | false => exact ⟨_, execShift_invalid hf⟩
  | true => exact ⟨_, execShift_valid hf (h hf)⟩

theorem execTgen_completes (s : State) : ∃ t, execTgen s = .next t := by
  refine vectorCommand_completes ?_
  split
  · exact ⟨_, rfl⟩
  · exact ⟨_, rfl⟩

/-- Only a range check stops a command: one whose bytes, if it accesses any, lie in sample memory completes, whether or not
the registers it reads hold a value. -/
theorem exec_completes {i : Instr} {s : State}
    (hshift : i = .shift → validFreq s.freq = true → s.arrayInMemory = true)
    (hvec : ∀ rd imm, i = .vld rd imm ∨ i = .vst rd imm → s.vecInMemory imm = true) : ∃ t, exec i s = .next t := by
  cases i with
  | shift => exact execShift_completes (hshift rfl)
  | tgen => exact execTgen_completes s
  | vnarrow | vcmul4s | vcmul2d | vbcmul2d => exact vectorCommand_completes ⟨_, rfl⟩
  | vld rd imm => exact vectorCommand_completes ⟨_, if_pos (hvec rd imm (.inl rfl))⟩
  | vst rd imm => exact vectorCommand_completes ⟨_, if_pos (hvec rd imm (.inr rfl))⟩

theorem hasMeaning_shift {s : State} (h : hasMeaning .shift s = true) (hf : validFreq s.freq = true) :
    s.arrayInMemory = true := by
  simpa [hasMeaning, hf] using h

theorem hasMeaning_vector {i : Instr} {s : State} {rd : BitVec 4} {imm : BitVec 16} (h : hasMeaning i s = true)
    (hi : i = .vld rd imm ∨ i = .vst rd imm) : s.vecInMemory imm = true := by
  rcases hi with rfl | rfl
  · exact h
  · exact ((Bool.and_eq_true _ _).mp h).2

/-- Settles O23: a meaning includes the range, so the command completes, and every completion leaves STATUS so. -/
theorem everyMeaningfulCommandCompletes : Obligations.EveryMeaningfulCommandCompletes := by
  intro i s h
  obtain ⟨t, ht⟩ := exec_completes (i := i) (fun hi => hasMeaning_shift (hi ▸ h)) fun _ _ => hasMeaning_vector h
  have hc := completed_exec ht
  exact ⟨t, ht, hc.seq, hc.busy, hc.done, hc.err⟩

/-! A reset while a command runs (70_reset_and_hazards.md R303). -/

/-- A reset leaves the table of 10_state.md R46, the build, and the memory of the abandoned command. -/
theorem step_reset_running {s f : State} {w : BitVec 32} {rest : List Input} (hseq : s.seq = .run w)
    (hinputs : s.inputs = .reset :: rest) (hrun : runWord w { s with inputs := rest } = .next f) :
    ∃ t, step s = .next t ∧ t.AtReset ∧ t.params = s.params ∧ t.mem = abandonedMemory w s f.mem :=
  ⟨_, (step_cons hinputs).trans (resetEvent_run hseq hrun), atReset_afterReset _ _ _ _ _ _, rfl, rfl⟩

theorem abandonedMemory_shift {s : State} {w : BitVec 32} (hd : decode s.params.hasVec w = .instr .shift)
    (hf : validFreq s.freq = true) (final : Memory) :
    abandonedMemory w s final = abandonElems s.fmtT s.base s.freeCtr final s.size.toNat s.mem := by
  simp only [abandonedMemory, hd, hf, if_true]

theorem abandonedMemory_vector {s : State} {w : BitVec 32} {i : Instr} {rd : BitVec 4} {imm : BitVec 16}
    (hi : i = .vld rd imm ∨ i = .vst rd imm) (hd : decode s.params.hasVec w = .instr i) (final : Memory) :
    abandonedMemory w s final = scramble s.freeCtr s.mem (vecAddr s.base imm) 32 := by
  rcases hi with rfl | rfl <;> simp only [abandonedMemory, hd]

theorem read_scramble_outside (ctr : Nat) (m : Memory) {addr b : Nat} : ∀ n, b < addr ∨ addr + n ≤ b →
    (scramble ctr m addr n).read b = m.read b
  | 0, _ => rfl
  | n + 1, h => by
    rw [scramble, Memory.read_write_ne _ _ (by omega)]
    exact read_scramble_outside ctr m n (by omega)

/-- Settles O17: the SHIFT would have completed, so the reset abandons it element by element. -/
theorem resetAbandonsARunningShift : Obligations.ResetAbandonsARunningShift := by
  intro s f rest hseq hinputs hf ha hwf hexec
  have hd : decode s.params.hasVec 0x01000000#32 = .instr .shift := decode_encode (i := .shift) rfl rfl
  obtain ⟨t, hstep, hreset, hparams, hmem⟩ := step_reset_running hseq hinputs
      ((runWord_instr (s := { s with inputs := rest }) hd).trans hexec)
  obtain ⟨-, houtside, helems⟩ := abandonElems_spec (array_le ha) s.freeCtr f.mem s.mem hwf s.size.toNat le_rfl
  rw [abandonedMemory_shift hd hf] at hmem
  exact ⟨t, hstep, hreset.status, hreset.seq, hreset.size, hparams, by rwa [hmem], by rwa [hmem]⟩

/-- The word accesses no byte of sample memory: it is illegal, or a SHIFT that fails its frequency check, or a command of
the registers only (the three cases of 70_reset_and_hazards.md R303 in which memory stays). -/
def State.AccessesNoMemory (s : State) (w : BitVec 32) : Prop :=
  (∃ why, decode s.params.hasVec w = .illegal why) ∨
    (decode s.params.hasVec w = .instr .shift ∧ validFreq s.freq = false) ∨
    (∃ i, decode s.params.hasVec w = .instr i ∧ i ≠ .shift ∧ ∀ rd imm, i ≠ .vld rd imm ∧ i ≠ .vst rd imm)

theorem State.AccessesNoMemory.runWord_completes {s : State} {w : BitVec 32} (h : s.AccessesNoMemory w) :
    ∃ f, runWord w s = .next f := by
  rcases h with ⟨why, hd⟩ | ⟨hd, hf⟩ | ⟨i, hd, hshift, hvec⟩
  · exact ⟨_, runWord_illegal hd⟩
  · exact ⟨_, (runWord_instr hd).trans (execShift_invalid hf)⟩
  · rw [runWord_instr hd]
    exact exec_completes (fun hi => absurd hi hshift) fun rd imm hi =>
      (hi.elim (hvec rd imm).1 (hvec rd imm).2).elim

theorem State.AccessesNoMemory.abandonedMemory_eq {s : State} {w : BitVec 32} (h : s.AccessesNoMemory w)
    (final : Memory) : abandonedMemory w s final = s.mem := by
  rcases h with ⟨why, hd⟩ | ⟨hd, hf⟩ | ⟨i, hd, hshift, hvec⟩
  · simp only [abandonedMemory, hd]
  · simp [abandonedMemory, hd, hf]
  · cases i with
    | shift => exact absurd rfl hshift
    | vld rd imm => exact absurd rfl (hvec rd imm).1
    | vst rd imm => exact absurd rfl (hvec rd imm).2
    | tgen | vnarrow | vcmul4s | vcmul2d | vbcmul2d => simp only [abandonedMemory, hd]

/-- Settles O18: the 32 bytes of a VLD or VST are all that its abandonment touches, and a word that accesses no memory
leaves none behind. -/
theorem resetAbandonsOtherCommands : Obligations.ResetAbandonsOtherCommands := by
  refine ⟨fun s i rd imm rest hi hv hr hrange hseq hinputs => ?vector, fun s w rest hseq hinputs h => ?noAccess⟩
  case vector =>
    have hd : decode s.params.hasVec (encode i) = .instr i := by
      rcases hi with rfl | rfl <;> exact decode_encode (decide_eq_true hr) (by simp [Instr.available, hv])
    have hm := (vecInMemory_iff s imm).2 hrange
    obtain ⟨f, hexec⟩ : ∃ f, exec i { s with inputs := rest } = .next f := by
      rcases hi with rfl | rfl
      · exact ⟨_, exec_vld hv hr hm⟩
      · exact ⟨_, exec_vst hv hr hm⟩
    obtain ⟨t, hstep, hreset, hparams, hmem⟩ := step_reset_running hseq hinputs
      ((runWord_instr (s := { s with inputs := rest }) hd).trans hexec)
    rw [abandonedMemory_vector hi hd, vecAddr_eq hm] at hmem
    exact ⟨t, hstep, hreset, hparams, fun a ha => by rw [hmem, read_scramble_outside _ _ _ ha]⟩
  case noAccess =>
    have hno : s.AccessesNoMemory w := h
    obtain ⟨f, hrun⟩ := State.AccessesNoMemory.runWord_completes (s := { s with inputs := rest }) h
    obtain ⟨t, hstep, hreset, hparams, hmem⟩ := step_reset_running hseq hinputs hrun
    exact ⟨t, hstep, hreset, hparams, hmem.trans (hno.abandonedMemory_eq _)⟩

end Sys2Proof.Machine
end
